-- ==== Sys2Proof/Word.lean ====
section
/-! DEFINITION. The machine words of GENIE-RX (R9, R42, R53): wire bytes, 16-bit units, milliseconds. -/

namespace Sys2Proof

/-- A wire byte: "every wire byte is 8 bits" (R9). -/
abbrev Byte := BitVec 8

/-- A 16-bit payload unit, and the combined data value of a frame (R9, R53). -/
abbrev Unit16 := BitVec 16

/-- The millisecond counter `NOW` and the deadline compared with it: 32 bits, unsigned, wrapping (R42, R244). -/
abbrev Millis := BitVec 32

end Sys2Proof
end

