-- ==== Sys2Proof/Config.lean ====
section
/-! DEFINITION. The configuration parameters of R8: the command code table, the bounds, and the two OPEN values. -/

namespace Sys2Proof

/-- `CODES`, the "fixed external constant table" of the 13 protocol command codes (R81). -/
structure Codes where
  readObj          : Byte
  writeObj         : Byte
  writeStr         : Byte
  writeStrU        : Byte
  writeContrast    : Byte
  reportObj        : Byte
  ack              : Byte
  reportEvent      : Byte
  writeMagicBytes  : Byte
  writeMagicDbytes : Byte
  reportMagicBytes : Byte
  reportMagicDbytes : Byte
  nak              : Byte
deriving DecidableEq, Repr

/-- The six receive codes of R82. -/
def Codes.receive (c : Codes) : List Byte :=
  [c.reportEvent, c.reportObj, c.ack, c.nak, c.reportMagicBytes, c.reportMagicDbytes]

/-- R82: `CODES` is well-formed only if the six receive codes are pairwise distinct; transmit codes are free. -/
def Codes.distinct (c : Codes) : Bool := decide c.receive.Nodup

/-- Profile `SRC`, this spec's default (R81). Only `REPORT_EVENT = 0x01` is the source's; the others are K1 of
`93_implementation_defined.md`. -/
def Codes.src : Codes where
  readObj := 0x00
  writeObj := 0x01
  writeStr := 0x02
  writeStrU := 0x03
  writeContrast := 0x04
  reportObj := 0x05
  ack := 0x06
  reportEvent := 0x01
  writeMagicBytes := 0x08
  writeMagicDbytes := 0x09
  reportMagicBytes := 0x0A
  reportMagicDbytes := 0x0B
  nak := 0x15

/-- Profile `GENIE`: `SRC` with `REPORT_EVENT = 0x07` (R81, K2). -/
def Codes.genie : Codes := { Codes.src with reportEvent := 0x07 }

/-- `BAD_CS_POLICY`: what a bad checksum does to the accumulator (R8, R127). -/
inductive BadCsPolicy where
  | restart
  | restartPop
  | staleFault
deriving DecidableEq, Repr

/-- The parameter record of R8, before its constraints are checked. -/
structure Params where
  codes          : Codes
  qCap           : Nat
  stackDepth     : Nat
  timeoutMs      : Nat
  fatalThreshold : Nat
  badCsPolicy    : BadCsPolicy
deriving DecidableEq, Repr

/-- `Q_MARGIN`: "2 slots reserved" (R8). -/
def qMargin : Nat := 2

/-- `Q_CAP` is a power of two with 4 <= `Q_CAP` <= 128 (R8). -/
def Params.qCapOk (p : Params) : Bool := decide (p.qCap ∈ [4, 8, 16, 32, 64, 128])

/-- The constraints of R8 on one instance. -/
def Params.valid (p : Params) : Bool :=
  p.codes.distinct && p.qCapOk
    && decide (1 ≤ p.stackDepth ∧ p.stackDepth ≤ 255)
    && decide (p.timeoutMs < 2147483648)
    && decide (p.fatalThreshold ≤ 255)

/-- A configuration. "A configuration that breaks a stated constraint is refused: the model has no instance for it"
(R8), so the check travels with the record. -/
abbrev Config := { p : Params // p.valid = true }

/-- `TIMEOUT_MS`, OPEN in R8 (D12): nothing but its bound is known of it. -/
opaque Config.openTimeoutMs : Fin 2147483648

/-- `FATAL_THRESHOLD`, OPEN in R8 (D8): nothing but its bound is known of it. -/
opaque Config.openFatalThreshold : Fin 256

/-- `NOW` at reset: "unconstrained (a draw)" (R42, R45, I16). -/
opaque Config.nowAtReset : Millis

/-- The configuration `State.reset` runs with: the values R8 takes, and the OPEN ones left free. -/
def Config.default : Config :=
  ⟨{ codes := Codes.src
     qCap := 16
     stackDepth := 20
     timeoutMs := Config.openTimeoutMs.val
     fatalThreshold := Config.openFatalThreshold.val
     badCsPolicy := .restart },
   by
    have h1 := Config.openTimeoutMs.isLt
    have h2 : Config.openFatalThreshold.val ≤ 255 := Nat.le_of_lt_succ Config.openFatalThreshold.isLt
    have h3 : Codes.src.distinct = true := by decide
    simp [Params.valid, Params.qCapOk, h1, h2, h3]⟩

end Sys2Proof
end

