-- ==== Sys2Proof/Syntax.lean ====
section
/-! DEFINITION. The instructions of GENIE-RX: one constructor per row of spec/opcode_table.json (R72, R84, R89),
and the place a byte is decoded at: a host port, or the receiver in a link state. -/

namespace Sys2Proof

/-- The eight link states of R20, in the spec's order. -/
inductive LinkState where
  | idle
  | waitAckOrNak
  | waitReportHeader
  | receivingReport
  | receivingEvent
  | receivingMagicBytes
  | receivingMagicDoubleBytes
  | shutdown
deriving DecidableEq, Repr

/-- The two host ports of R70. -/
inductive Port where
  | command
  | drain
deriving DecidableEq, Repr

/-- Where an encoded byte list is decoded: a host port (R70), or the receiver with the link state it dispatches in (R84). -/
inductive Place where
  | host (port : Port)
  | receive (top : LinkState)
deriving DecidableEq, Repr

/-- The 15 host operations of R72 and the 9 receive classes of R84, R126, R130. A lead class needs no operand: the
byte is the configured code its row names. -/
inductive Instr where
  -- command-port control operations (R78: 0x01 to 0x06)
  | pump
  | waitIdle
  | resync
  | setHandler (en : Bool)
  | setBytesSink (en : Bool)
  | setDbytesSink (en : Bool)
  -- command-port transmit operations (R78: 0x10 to 0x16)
  | readObj (obj idx : Byte)
  | writeObj (obj idx dh dl : Byte)
  | writeContrast (val : Byte)
  | writeStr (idx : Byte) (us : List Byte)
  | writeStrU (idx : Byte) (us : List Unit16)
  | writeMagicBytes (idx : Byte) (us : List Byte)
  | writeMagicDbytes (idx : Byte) (us : List Unit16)
  -- drain-port operations (R78: 0x20, 0x21)
  | dequeue
  | readStatus
  -- receive classes (R84; R126 and R130 for the data classes)
  | rxReportEventLead
  | rxMagicBytesLead
  | rxMagicDbytesLead
  | rxAck
  | rxNak
  | rxReportObjLead
  | rxFramingError (b : Byte)
  | rxFrameByte (b : Byte)
  | rxMagicHeaderByte (b : Byte)
deriving DecidableEq, Repr

end Sys2Proof
end

