-- ==== Sys2Proof/WellFormed.lean ====
section
/-! DEFINITION. The checks on an instruction term: the unit cap (R72, R195), and the place it can be decoded at
(R72's port column, R84's state column). -/

namespace Sys2Proof

/-- `n` is one byte, so "a command can never carry more than 255 units" (R72). -/
def unitsFit {α : Type} (us : List α) : Bool := decide (us.length ≤ 255)

/-- An instruction the command language can express (R72, R195). -/
def Instr.wellFormed : Instr → Bool
  | .writeStr _ us => unitsFit us
  | .writeStrU _ us => unitsFit us
  | .writeMagicBytes _ us => unitsFit us
  | .writeMagicDbytes _ us => unitsFit us
  | .pump => true
  | .waitIdle => true
  | .resync => true
  | .setHandler _ => true
  | .setBytesSink _ => true
  | .setDbytesSink _ => true
  | .readObj _ _ => true
  | .writeObj _ _ _ _ => true
  | .writeContrast _ => true
  | .dequeue => true
  | .readStatus => true
  | .rxReportEventLead => true
  | .rxMagicBytesLead => true
  | .rxMagicDbytesLead => true
  | .rxAck => true
  | .rxNak => true
  | .rxReportObjLead => true
  | .rxFramingError _ => true
  | .rxFrameByte _ => true
  | .rxMagicHeaderByte _ => true

/-- The link states in which a received byte is classified (R84). -/
def LinkState.classifies : LinkState → Bool
  | .idle => true
  | .waitAckOrNak => true
  | .waitReportHeader => true
  | .receivingReport => false
  | .receivingEvent => false
  | .receivingMagicBytes => false
  | .receivingMagicDoubleBytes => false
  | .shutdown => false

/-- The codes R84 accepts in a state that classifies: any other byte there is a framing error (R125). -/
def Codes.acceptedIn (c : Codes) : LinkState → List Byte
  | .idle => [c.reportEvent, c.reportMagicBytes, c.reportMagicDbytes]
  | .waitAckOrNak => [c.reportEvent, c.reportMagicBytes, c.reportMagicDbytes, c.ack, c.nak]
  | .waitReportHeader => [c.reportEvent, c.reportMagicBytes, c.reportMagicDbytes, c.reportObj]
  | .receivingReport => []
  | .receivingEvent => []
  | .receivingMagicBytes => []
  | .receivingMagicDoubleBytes => []
  | .shutdown => []

/-- The receive states of a class's row in spec/opcode_table.json. -/
def Instr.receivedIn (c : Codes) (i : Instr) (top : LinkState) : Bool :=
  match i with
  | .rxReportEventLead => top.classifies
  | .rxMagicBytesLead => top.classifies
  | .rxMagicDbytesLead => top.classifies
  | .rxAck => decide (top = .waitAckOrNak)
  | .rxNak => decide (top = .waitAckOrNak)
  | .rxReportObjLead => decide (top = .waitReportHeader)
  | .rxFramingError b => top.classifies && decide (b ∉ c.acceptedIn top)
  | .rxFrameByte _ => decide (top = .receivingReport ∨ top = .receivingEvent)
  | .rxMagicHeaderByte _ => decide (top = .receivingMagicBytes ∨ top = .receivingMagicDoubleBytes)
  | .pump => false
  | .waitIdle => false
  | .resync => false
  | .setHandler _ => false
  | .setBytesSink _ => false
  | .setDbytesSink _ => false
  | .readObj _ _ => false
  | .writeObj _ _ _ _ => false
  | .writeContrast _ => false
  | .writeStr _ _ => false
  | .writeStrU _ _ => false
  | .writeMagicBytes _ _ => false
  | .writeMagicDbytes _ _ => false
  | .dequeue => false
  | .readStatus => false

/-- The host port of an operation (R72), none for a receive class. -/
def Instr.hostPort? : Instr → Option Port
  | .pump => some .command
  | .waitIdle => some .command
  | .resync => some .command
  | .setHandler _ => some .command
  | .setBytesSink _ => some .command
  | .setDbytesSink _ => some .command
  | .readObj _ _ => some .command
  | .writeObj _ _ _ _ => some .command
  | .writeContrast _ => some .command
  | .writeStr _ _ => some .command
  | .writeStrU _ _ => some .command
  | .writeMagicBytes _ _ => some .command
  | .writeMagicDbytes _ _ => some .command
  | .dequeue => some .drain
  | .readStatus => some .drain
  | .rxReportEventLead => none
  | .rxMagicBytesLead => none
  | .rxMagicDbytesLead => none
  | .rxAck => none
  | .rxNak => none
  | .rxReportObjLead => none
  | .rxFramingError _ => none
  | .rxFrameByte _ => none
  | .rxMagicHeaderByte _ => none

/-- Whether instruction `i` can be decoded at `place` with the codes `c`. -/
def Instr.admittedAt (c : Codes) (i : Instr) : Place → Bool
  | .host port => decide (i.hostPort? = some port)
  | .receive top => i.receivedIn c top

end Sys2Proof
end

