-- ==== Sys2Proof/Decode.lean ====
section
/-! DEFINITION. The decoder of the host command language and of the receive classification (R70 to R73, R79, R84,
R120), total on every byte list and rejecting by name; after it the encoder, and the reading of an opcode-table word. -/

namespace Sys2Proof

/-! ### Bytes and units (R10, R71, R86) -/

/-- `hi(v) = v[15:8]` (R10). -/
def hiByte (v : Unit16) : Byte := v.extractLsb' 8 8

/-- `lo(v) = v[7:0]` (R10). -/
def loByte (v : Unit16) : Byte := v.extractLsb' 0 8

/-- `h * 256 + l`: a 16-bit quantity given high byte first (R71, R86). -/
def joinBytes (h l : Byte) : Unit16 := h ++ l

/-- 16-bit units as bytes, each high byte first (R72). -/
def splitUnits : List Unit16 → List Byte
  | [] => []
  | u :: us => hiByte u :: loByte u :: splitUnits us

/-- The 16-bit units of a byte list, high byte first; none if a byte is left over (R72). -/
def joinUnits : List Byte → Option (List Unit16)
  | [] => some []
  | [_] => none
  | h :: l :: rest => (joinUnits rest).map (fun us => joinBytes h l :: us)

/-- The unit count operand `n`, one byte (R72). -/
def countByte (n : Nat) : Byte := BitVec.ofNat 8 n

/-! ### The host command language -/

/-- Why a byte list is no instruction at its place. -/
inductive Reject where
  /-- R73 (a): the byte list is empty. -/
  | empty
  /-- R73 (b): byte 0 is not in the table of R72. -/
  | reservedOpcode
  /-- R73 (c): byte 0 names an operation of the other port. -/
  | otherPort
  /-- R73 (d): the length differs from the total length R72 gives. A received class is one byte (R84). -/
  | wrongLength
  /-- R73 (e): the `en` byte is not 0x00 or 0x01. -/
  | badEnable
  /-- R129: in `Shutdown` no byte has a class. -/
  | shutdownState
deriving DecidableEq, Repr

/-- The rows of R72, by mnemonic. -/
inductive Opcode where
  | pump | waitIdle | resync | setHandler | setBytesSink | setDbytesSink
  | readObj | writeObj | writeContrast | writeStr | writeStrU | writeMagicBytes | writeMagicDbytes
  | dequeue | readStatus
deriving DecidableEq, Repr

/-- The opcode column of R72. Every other byte-0 value is reserved (R78). -/
def opcodeTable : List (Byte × Opcode) :=
  [ (0x01, .pump), (0x02, .waitIdle), (0x03, .resync)
  , (0x04, .setHandler), (0x05, .setBytesSink), (0x06, .setDbytesSink)
  , (0x10, .readObj), (0x11, .writeObj), (0x12, .writeContrast)
  , (0x13, .writeStr), (0x14, .writeStrU), (0x15, .writeMagicBytes), (0x16, .writeMagicDbytes)
  , (0x20, .dequeue), (0x21, .readStatus) ]

/-- The port column of R72. -/
def opcodePort : Opcode → Port
  | .dequeue => .drain
  | .readStatus => .drain
  | .pump => .command
  | .waitIdle => .command
  | .resync => .command
  | .setHandler => .command
  | .setBytesSink => .command
  | .setDbytesSink => .command
  | .readObj => .command
  | .writeObj => .command
  | .writeContrast => .command
  | .writeStr => .command
  | .writeStrU => .command
  | .writeMagicBytes => .command
  | .writeMagicDbytes => .command

/-- The total-length column of R72, for a command whose byte 2 is `n`. -/
def commandLength (o : Opcode) (n : Nat) : Nat :=
  match o with
  | .pump => 1
  | .waitIdle => 1
  | .resync => 1
  | .setHandler => 2
  | .setBytesSink => 2
  | .setDbytesSink => 2
  | .readObj => 3
  | .writeObj => 5
  | .writeContrast => 2
  | .writeStr => 3 + n
  | .writeStrU => 3 + 2 * n
  | .writeMagicBytes => 3 + n
  | .writeMagicDbytes => 3 + 2 * n
  | .dequeue => 1
  | .readStatus => 1

/-- An operation without operands. -/
def decodeCmd1 (i : Instr) : List Byte → Except Reject Instr
  | [] => .ok i
  | _ :: _ => .error .wrongLength

/-- The `en` operand: 0x00 unregisters, 0x01 registers, any other value is illegal (R79). -/
def decodeEnable (f : Bool → Instr) : List Byte → Except Reject Instr
  | [en] => if en = 0x00 then .ok (f false) else if en = 0x01 then .ok (f true) else .error .badEnable
  | _ => .error .wrongLength

/-- `idx`, `n`, then `n` 8-bit units (R72, format CMDV8). -/
def decodeUnits8 (f : Byte → List Byte → Instr) : List Byte → Except Reject Instr
  | idx :: n :: us => if us.length = n.toNat then .ok (f idx us) else .error .wrongLength
  | _ => .error .wrongLength

/-- `idx`, `n`, then `n` 16-bit units, high byte first (R72, format CMDV16). -/
def decodeUnits16 (f : Byte → List Unit16 → Instr) : List Byte → Except Reject Instr
  | idx :: n :: bs =>
    if bs.length = 2 * n.toNat then
      match joinUnits bs with
      | some us => .ok (f idx us)
      | none => .error .wrongLength
    else .error .wrongLength
  | _ => .error .wrongLength

/-- The operand bytes after byte 0 (R71, R72). -/
def decodeOperands (o : Opcode) (args : List Byte) : Except Reject Instr :=
  match o with
  | .pump => decodeCmd1 .pump args
  | .waitIdle => decodeCmd1 .waitIdle args
  | .resync => decodeCmd1 .resync args
  | .setHandler => decodeEnable .setHandler args
  | .setBytesSink => decodeEnable .setBytesSink args
  | .setDbytesSink => decodeEnable .setDbytesSink args
  | .readObj =>
    match args with
    | [obj, idx] => .ok (.readObj obj idx)
    | _ => .error .wrongLength
  | .writeObj =>
    match args with
    | [obj, idx, dh, dl] => .ok (.writeObj obj idx dh dl)
    | _ => .error .wrongLength
  | .writeContrast =>
    match args with
    | [val] => .ok (.writeContrast val)
    | _ => .error .wrongLength
  | .writeStr => decodeUnits8 .writeStr args
  | .writeStrU => decodeUnits16 .writeStrU args
  | .writeMagicBytes => decodeUnits8 .writeMagicBytes args
  | .writeMagicDbytes => decodeUnits16 .writeMagicDbytes args
  | .dequeue => decodeCmd1 .dequeue args
  | .readStatus => decodeCmd1 .readStatus args

/-- The port's decoder: "every byte list either decodes to exactly one operation or is illegal" (R70, R73). -/
def decodeHost (port : Port) (bs : List Byte) : Except Reject Instr :=
  match bs with
  | [] => .error .empty
  | op :: args =>
    match opcodeTable.lookup op with
    | none => .error .reservedOpcode
    | some o => if opcodePort o = port then decodeOperands o args else .error .otherPort

/-! ### The receive classification -/

/-- R84, R120: the class of a byte received in a state that classifies. -/
def classifyLead (c : Codes) (top : LinkState) (b : Byte) : Instr :=
  if b = c.reportEvent then .rxReportEventLead
  else if b = c.reportMagicBytes then .rxMagicBytesLead
  else if b = c.reportMagicDbytes then .rxMagicDbytesLead
  else if top = .waitAckOrNak ∧ b = c.ack then .rxAck
  else if top = .waitAckOrNak ∧ b = c.nak then .rxNak
  else if top = .waitReportHeader ∧ b = c.reportObj then .rxReportObjLead
  else .rxFramingError b

/-- R120: "Dispatch is keyed on (current link state, byte value)". In `Shutdown` there is no class (R129). -/
def decodeReceive (c : Codes) (top : LinkState) (b : Byte) : Except Reject Instr :=
  match top with
  | .idle => .ok (classifyLead c .idle b)
  | .waitAckOrNak => .ok (classifyLead c .waitAckOrNak b)
  | .waitReportHeader => .ok (classifyLead c .waitReportHeader b)
  | .receivingReport => .ok (.rxFrameByte b)
  | .receivingEvent => .ok (.rxFrameByte b)
  | .receivingMagicBytes => .ok (.rxMagicHeaderByte b)
  | .receivingMagicDoubleBytes => .ok (.rxMagicHeaderByte b)
  | .shutdown => .error .shutdownState

/-- The decoder of a byte list at a place, with the configured codes. -/
def decode (c : Codes) (place : Place) (bs : List Byte) : Except Reject Instr :=
  match place with
  | .host port => decodeHost port bs
  | .receive top =>
    match bs with
    | [] => .error .empty
    | [b] => decodeReceive c top b
    | _ :: _ :: _ => .error .wrongLength

/-! ### The encoder -/

/-- The `en` operand (R79). -/
def enableByte (en : Bool) : Byte := if en then 0x01 else 0x00

/-- The bytes of an instruction: a host command (R72), or the byte of a receive class (R81, R84). -/
def encode (c : Codes) : Instr → List Byte
  | .pump => [0x01]
  | .waitIdle => [0x02]
  | .resync => [0x03]
  | .setHandler en => [0x04, enableByte en]
  | .setBytesSink en => [0x05, enableByte en]
  | .setDbytesSink en => [0x06, enableByte en]
  | .readObj obj idx => [0x10, obj, idx]
  | .writeObj obj idx dh dl => [0x11, obj, idx, dh, dl]
  | .writeContrast val => [0x12, val]
  | .writeStr idx us => 0x13 :: idx :: countByte us.length :: us
  | .writeStrU idx us => 0x14 :: idx :: countByte us.length :: splitUnits us
  | .writeMagicBytes idx us => 0x15 :: idx :: countByte us.length :: us
  | .writeMagicDbytes idx us => 0x16 :: idx :: countByte us.length :: splitUnits us
  | .dequeue => [0x20]
  | .readStatus => [0x21]
  | .rxReportEventLead => [c.reportEvent]
  | .rxMagicBytesLead => [c.reportMagicBytes]
  | .rxMagicDbytesLead => [c.reportMagicDbytes]
  | .rxAck => [c.ack]
  | .rxNak => [c.nak]
  | .rxReportObjLead => [c.reportObj]
  | .rxFramingError b => [b]
  | .rxFrameByte b => [b]
  | .rxMagicHeaderByte b => [b]

/-! ### Words as spec/opcode_table.json numbers them -/

/-- Byte `k` of a table word: bits above `nbits` are 0. -/
def tableByte (nbits w k : Nat) : Byte := BitVec.ofNat 8 ((w % 2 ^ nbits) >>> (8 * k))

/-- The byte list of a table word: the length R72 gives its opcode (operand bytes beyond `nbits` are 0), or the bytes
the word itself has if those are more. -/
def tableBytes (nbits w : Nat) : List Byte :=
  let len :=
    match opcodeTable.lookup (tableByte nbits w 0) with
    | some o => commandLength o (tableByte nbits w 2).toNat
    | none => 1
  (List.range (max len (nbits / 8))).map (tableByte nbits w)

/-- The place a table word is decoded at: the port that accepts it as a command, else the receiver at `Idle`
(log entry 8: the table lists three byte languages without saying which one a word is in). -/
def tablePlace (nbits w : Nat) : Place :=
  match opcodeTable.lookup (tableByte nbits w 0) with
  | some o => .host (opcodePort o)
  | none => .receive .idle

/-- The instruction of a table word, with the codes of profile `SRC`, whose values the receive rows give (R89). -/
def decodeTableWord (nbits w : Nat) : Option Instr :=
  match decode Codes.src (tablePlace nbits w) (tableBytes nbits w) with
  | .ok i => some i
  | .error _ => none

end Sys2Proof
end

