-- ==== Sys2Proof/Machine/State.lean ====
section
/-! DEFINITION. Every piece of state the spec gives the block (10_state.md), the environment's interfaces (R40 to R44),
the inputs still to come (log entries 1 to 3), and the state after reset (R45). -/

namespace Sys2Proof.Machine

/-- A six-byte frame `[command][object-type][index][data-high][data-low][checksum]` (R80); also the shape of the
accumulator `RX_BUF[0..5]` (R24) and of a queue slot (R27). -/
structure Frame where
  cmd    : Byte
  obj    : Byte
  idx    : Byte
  dataHi : Byte
  dataLo : Byte
  csum   : Byte
deriving DecidableEq, Repr

/-- The link-state stack: `LS[0 .. STACK_DEPTH-1]` and the 8-bit `LS_DEPTH` (R21). -/
structure LinkStack where
  ls    : List LinkState
  depth : Byte
deriving DecidableEq, Repr

/-- The frame accumulator: `RX_BUF`, `RX_COUNT` (values 0..6) and `RX_CS` (R24). -/
structure Accumulator where
  buf   : Frame
  count : Fin 7
  cs    : Byte
deriving DecidableEq, Repr

/-- The magic header registers and the discard counter (R25). -/
structure MagicHeader where
  cursor : BitVec 2
  cmd    : Byte
  idx    : Byte
  len    : Byte
  remain : BitVec 16
deriving DecidableEq, Repr

/-- `SINK_KIND`: 0 = 8-bit units, 1 = 16-bit units (R26). -/
inductive SinkKind where
  | bytes
  | dbytes
deriving DecidableEq, Repr

/-- `SINK_REQ` and `SINK_DONE` (R26). -/
structure SinkPort where
  kind   : SinkKind
  index  : Byte
  length : Byte
  done   : Bool
deriving DecidableEq, Repr

/-- The event queue: `Q_BUF[0 .. Q_CAP-1]`, `Q_RD`, `Q_WR` and the 8-bit `Q_COUNT` (R27). -/
structure EventQueue where
  buf   : List Frame
  rd    : Nat
  wr    : Nat
  count : Byte
deriving DecidableEq, Repr

/-- The `LAST_ERROR` values of R30. Codes 8 to 15 are reserved and never written, so they have no constructor. -/
inductive ErrorKind where
  | none
  | noChar
  | badChecksum
  | nak
  | timeout
  | queueOverflow
  | noHandler
  | framing
deriving DecidableEq, Repr

/-- The `FAULT_KIND` values of R29 and R235. -/
inductive FaultKind where
  | none
  | staleAccumulator
  | shutdownState
  | staleMagicCursor
deriving DecidableEq, Repr

/-- The registrations of R29: `REG_HANDLER`, `REG_BSINK`, `REG_DSINK`. -/
structure Registrations where
  handler : Bool
  bsink   : Bool
  dsink   : Bool
deriving DecidableEq, Repr

/-- `OP`: the command operation in progress (R29, R37). -/
inductive Op where
  | none
  | pump
  | wait
  | tx
deriving DecidableEq, Repr

/-- `PHASE`: its sub-step (R29, R37). -/
inductive Phase where
  | start
  | loop
  | mgSink
  | mgDiscard
  | mgCsum
deriving DecidableEq, Repr

/-- `TX_FRAME` and `TX_PUSH`: the latched outbound frame and the wait state to push (R29, R183). -/
structure TxLatch where
  frame : List Byte
  push  : LinkState
deriving DecidableEq, Repr

/-- One turn of the interleaving of R5: which agent of R6 moves. The sink's two steps are two turns (R44). -/
inductive Turn where
  | hostCmd
  | hostDrain
  | peer
  | clock
  | sinkRead
  | sinkDone
  | block
deriving DecidableEq, Repr

/-- The inputs still to come: what the environment will present, and in which order the agents move. No rule of the
spec reads it but through the agents' steps (log entries 1 to 3). -/
structure Script where
  /-- The order of the agents' turns. When it is empty the turn is `BLOCK`'s. -/
  turns   : List Turn
  /-- The commands `HOST_CMD` has still to present, in order; the first one waits while the port is busy (R75). -/
  cmdIn   : List (List Byte)
  /-- The commands `HOST_DRAIN` has still to present (R76). -/
  drainIn : List (List Byte)
  /-- The bytes `PEER` has still to append (R40). -/
  peerIn  : List Byte
deriving DecidableEq, Repr

/-- The state of the block and of its interfaces. -/
structure State where
  /-- The parameters of R8, "fixed before reset"; no step writes them (log entry 4). -/
  cfg        : Config
  link       : LinkStack
  acc        : Accumulator
  magic      : MagicHeader
  sink       : SinkPort
  queue      : EventQueue
  lastError  : ErrorKind
  fatalCount : Byte
  fault      : Bool
  faultKind  : FaultKind
  reg        : Registrations
  /-- `SUP_DEADLINE` (R29, R211). -/
  deadline   : Millis
  op         : Op
  phase      : Phase
  tx         : TxLatch
  /-- `RX_FIFO`, the transport's unread input, oldest first (R40). -/
  rxFifo     : List Byte
  /-- `TX_LOG` (R41). -/
  txLog      : List Byte
  /-- `RESP_CMD` and `RESP_DRAIN` (R43). -/
  respCmd    : List (List Byte)
  respDrain  : List (List Byte)
  /-- `SINK_DATA` (R44). -/
  sinkData   : List Byte
  /-- `NOW` (R42). -/
  now        : Millis
  script     : Script
deriving DecidableEq, Repr

/-- Why a step stops. -/
inductive Fault where
  /-- Raised by `step` alone, in a state with `FAULT = 1`: "no agent has a step" (R36, R235), and `kind` is `FAULT_KIND`.
  Safe: it is the spec's own final state. The step that raises the fault is a next state. -/
  | stopped (kind : FaultKind)
deriving DecidableEq, Repr

/-- Why an instruction has no meaning yet. -/
inductive Refusal where
  /-- Raised by `exec`'s arm of an instruction that has no meaning yet. Safe: no claim about it can be proved. No arm
  raises it now. -/
  | notModelled (mnemonic : String)
deriving DecidableEq, Repr

/-- Six zero bytes. -/
def Frame.zero : Frame := ⟨0, 0, 0, 0, 0, 0⟩

/-- The reset state of R45 for a configuration, a draw of `NOW` and an input script. The registers R45 leaves
unspecified hold the zero values of log entry 5. -/
def State.resetWith (cfg : Config) (now : Millis) (script : Script) : State where
  cfg := cfg
  link := { ls := List.replicate cfg.val.stackDepth .idle, depth := 1 }
  acc := { buf := Frame.zero, count := 0, cs := 0 }
  magic := { cursor := 0, cmd := 0, idx := 0, len := 0, remain := 0 }
  sink := { kind := .bytes, index := 0, length := 0, done := false }
  queue := { buf := List.replicate cfg.val.qCap Frame.zero, rd := 0, wr := 0, count := 0 }
  lastError := .none
  fatalCount := 0
  fault := false
  faultKind := .none
  reg := { handler := false, bsink := false, dsink := false }
  deadline := 0
  op := .none
  phase := .start
  tx := { frame := [], push := .idle }
  rxFifo := []
  txLog := []
  respCmd := []
  respDrain := []
  sinkData := []
  now := now
  script := script

/-- No input. -/
def Script.empty : Script := { turns := [], cmdIn := [], drainIn := [], peerIn := [] }

/-- The machine right after reset (R45, R260, R261), in the default configuration, with `NOW` a draw and no input. -/
def State.reset : State := State.resetWith Config.default Config.nowAtReset Script.empty

end Sys2Proof.Machine
end

