-- ==== Sys2Proof/Machine/Operands.lean ====
section
/-! DEFINITION. The operand forms: frames by byte position, the XOR checksum (R128, R181), the outbound frame bodies
(R85), the data value of a frame (R53, R167). -/

namespace Sys2Proof.Machine

/-! ### The XOR checksum -/

/-- `XOR(b0, ..., bn)`; of no bytes it is 0x00 (R10). -/
def xorBytes : List Byte → Byte
  | [] => 0
  | b :: bs => b ^^^ xorBytes bs

/-- `TxFrame(L) = L || [XOR(L)]` (R181). -/
def txFrame (body : List Byte) : List Byte := body ++ [xorBytes body]

/-! ### Frames by byte position (R24, R80) -/

/-- The six bytes of a frame, in wire order (R52, R80). -/
def frameBytes (f : Frame) : List Byte := [f.cmd, f.obj, f.idx, f.dataHi, f.dataLo, f.csum]

/-- `RX_BUF[k] <- b`. -/
def setFrameByte (f : Frame) (k : Fin 7) (b : Byte) : Frame :=
  match k with
  | 0 => { f with cmd := b }
  | 1 => { f with obj := b }
  | 2 => { f with idx := b }
  | 3 => { f with dataHi := b }
  | 4 => { f with dataLo := b }
  | 5 => { f with csum := b }
  | 6 => f

/-- `valid(f)`: the XOR of all six bytes is 0x00 (R128). -/
def frameValid (f : Frame) : Bool := decide (xorBytes (frameBytes f) = 0)

/-- Two frames have the same identity: bytes 0, 1, 2 (R161). -/
def sameIdentity (f g : Frame) : Bool := decide (f.cmd = g.cmd ∧ f.obj = g.obj ∧ f.idx = g.idx)

/-- `FrameValue(f) = zext_16(f[3]) * 256 + zext_16(f[4])` (R53, R167). -/
def frameValue (f : Frame) : Unit16 := joinBytes f.dataHi f.dataLo

/-! ### The outbound frame bodies of R85: every byte before the checksum -/

def bodyReadObj (c : Codes) (obj idx : Byte) : List Byte := [c.readObj, obj, idx]

def bodyWriteObj (c : Codes) (obj idx dh dl : Byte) : List Byte := [c.writeObj, obj, idx, dh, dl]

def bodyWriteContrast (c : Codes) (val : Byte) : List Byte := [c.writeContrast, val]

/-- An index-prefixed, length-prefixed payload of 8-bit units. -/
def bodyUnits8 (code idx : Byte) (us : List Byte) : List Byte := code :: idx :: countByte us.length :: us

/-- An index-prefixed, length-prefixed payload of 16-bit units, high byte first; `n` counts units (R189). -/
def bodyUnits16 (code idx : Byte) (us : List Unit16) : List Byte :=
  code :: idx :: countByte us.length :: splitUnits us

end Sys2Proof.Machine
end

