-- ==== Sys2Proof/Machine/Flags.lean ====
section
/-! DEFINITION. Status: the codes of link states and errors (R20, R30), `FATAL_FLAG` (R33), the deadline test (R211,
R213), and the bytes of `READ_STATUS` and of responses (R77, R168). The block has no condition flags (R39). -/

namespace Sys2Proof.Machine

/-- The 3-bit code of a link state (R20). -/
def linkCode : LinkState → BitVec 3
  | .idle => 0
  | .waitAckOrNak => 1
  | .waitReportHeader => 2
  | .receivingReport => 3
  | .receivingEvent => 4
  | .receivingMagicBytes => 5
  | .receivingMagicDoubleBytes => 6
  | .shutdown => 7

/-- The 4-bit code of `LAST_ERROR` (R30). -/
def errorCode : ErrorKind → BitVec 4
  | .none => 0
  | .noChar => 1
  | .badChecksum => 2
  | .nak => 3
  | .timeout => 4
  | .queueOverflow => 5
  | .noHandler => 6
  | .framing => 7

/-- The 2-bit code of `FAULT_KIND` (R29, R235). -/
def faultCode : FaultKind → BitVec 2
  | .none => 0
  | .staleAccumulator => 1
  | .shutdownState => 2
  | .staleMagicCursor => 3

/-- `sat8(x + 1)` for an 8-bit counter (R10, R32). -/
def sat8Inc (x : Byte) : Byte := if x = 0xFF then 0xFF else x + 1

/-- `FATAL_FLAG = (FATAL_COUNT >= FATAL_THRESHOLD)` (R33). -/
def fatalFlag (s : State) : Bool := decide (s.cfg.val.fatalThreshold ≤ s.fatalCount.toNat)

/-- The deadline set or extended at a step: `(NOW + TIMEOUT_MS) mod 2^32` (R211, R212). -/
def deadlineFrom (s : State) : Millis := s.now + BitVec.ofNat 32 s.cfg.val.timeoutMs

/-- `Elapsed() = ((NOW - SUP_DEADLINE) mod 2^32) < 2^31` (R213). -/
def elapsed (s : State) : Bool := decide ((s.now - s.deadline).toNat < 2147483648)

/-- The active link state `TOP = LS[LS_DEPTH-1]` (R21, R102). Outside the stack it reads `Idle` (log entry 11). -/
def top (s : State) : LinkState := s.link.ls.getD (s.link.depth.toNat - 1) .idle

/-- `E`: `LAST_ERROR` as a response byte (R77). -/
def errorByte (e : ErrorKind) : Byte := 0#4 ++ errorCode e

/-- `P`: bit 0 a byte was processed, bit 1 the handler was notified, bits 7:2 zero (R77). -/
def pumpByte (processed notified : Bool) : Byte := 0#6 ++ (BitVec.ofBool notified ++ BitVec.ofBool processed)

/-- `S0`: `TOP` in 2:0, busy in 3 (R168). -/
def statusLink (s : State) : Byte := 0#4 ++ (BitVec.ofBool (decide (s.op ≠ .none)) ++ linkCode (top s))

/-- `S3`: `LAST_ERROR` in 3:0 (R168). -/
def statusError (s : State) : Byte := 0#4 ++ errorCode s.lastError

/-- `S4`: the registrations in 2:0, `FATAL_FLAG` in 3, `FAULT` in 4 (R168). -/
def statusFlags (s : State) : Byte :=
  0#3 ++ (BitVec.ofBool s.fault ++ (BitVec.ofBool (fatalFlag s) ++
    (BitVec.ofBool s.reg.dsink ++ (BitVec.ofBool s.reg.bsink ++ BitVec.ofBool s.reg.handler))))

/-- The six response bytes `[S0, S1, S2, S3, S4, S5]` of `READ_STATUS` (R168). -/
def statusBytes (s : State) : List Byte :=
  [statusLink s, s.link.depth, s.queue.count, statusError s, statusFlags s, s.fatalCount]

end Sys2Proof.Machine
end

