-- ==== Sys2Proof/Machine/Ops.lean ====
section
/-! DEFINITION. The named operations every meaning is written over: errors and faults (R31, R235), responses (R77),
the link-state stack (R100 to R105), the event queue (R160, R166), the accumulator and its check (R126, R127), the magic
header (R130, R131), the end of a pump (R135), and the issue and end of a transmission (R183, R186). -/

namespace Sys2Proof.Machine

/-! ### Errors, faults, responses -/

/-- `SetError(k)` (R31). -/
def setError (k : ErrorKind) (s : State) : State := { s with lastError := k }

/-- `FATAL_COUNT <- sat8(FATAL_COUNT + 1)` (R32). -/
def countFatal (s : State) : State := { s with fatalCount := sat8Inc s.fatalCount }

/-- `raise Fault(kind)`: it "sets `FAULT = 1` and `FAULT_KIND`, ends the step and leaves every other register as it was
before the faulting write" (R235). -/
def raiseFault (k : FaultKind) (s : State) : State := { s with fault := true, faultKind := k }

/-- `Respond(CMD, L)` (R77). -/
def respondCmd (l : List Byte) (s : State) : State := { s with respCmd := s.respCmd ++ [l] }

/-- `Respond(DRAIN, L)` (R77). -/
def respondDrain (l : List Byte) (s : State) : State := { s with respDrain := s.respDrain ++ [l] }

/-- The completing step of a command operation: its response, and `OP <- NONE` (R77). -/
def completeCmd (l : List Byte) (s : State) : State := { respondCmd l s with op := .none }

/-! ### The link-state stack -/

/-- `EnterReceiving()` (R104). -/
def enterReceiving (s : State) : State := { s with acc := { s.acc with count := 0, cs := 0 } }

/-- `Resync()` (R105). -/
def resyncLink (s : State) : State :=
  { s with
    rxFifo := []
    queue := { s.queue with rd := 0, wr := 0, count := 0 }
    link := { ls := s.link.ls.set 0 .idle, depth := 1 }
    acc := { s.acc with count := 0, cs := 0 }
    magic := { s.magic with cursor := 0, remain := 0 } }

/-- "if depth would exceed the bound" (R100). -/
def stackFull (s : State) : Bool := decide (s.link.depth.toNat = s.cfg.val.stackDepth)

/-- The overflow branch of `Push`: resync and count it (R100). -/
def overflowResync (s : State) : State := countFatal (resyncLink s)

/-- The push itself: `LS[LS_DEPTH] <- w; LS_DEPTH <- LS_DEPTH + 1` (R100). -/
def pushEntry (w : LinkState) (s : State) : State :=
  { s with link := { ls := s.link.ls.set s.link.depth.toNat w, depth := s.link.depth + 1 } }

/-- `Push(w)`, with its result: false when it overflowed (R100). -/
def push (w : LinkState) (s : State) : Bool × State :=
  if stackFull s then (false, overflowResync s)
  else if w = .receivingEvent then (true, enterReceiving (pushEntry w s))
  else (true, pushEntry w s)

/-- `Pop()`: "the baseline Idle is never removed" (R101). -/
def pop (s : State) : State :=
  if 1 < s.link.depth.toNat then { s with link := { s.link with depth := s.link.depth - 1 } } else s

/-- `Replace(w)` (R103). -/
def replaceTop (w : LinkState) (s : State) : State :=
  enterReceiving { s with link := { s.link with ls := s.link.ls.set (s.link.depth.toNat - 1) w } }

/-! ### The event queue -/

/-- The slot `(Q_WR - k) mod Q_CAP` (R160). -/
def slotBefore (s : State) (k : Nat) : Nat :=
  (s.queue.wr + s.cfg.val.qCap - k % s.cfg.val.qCap) % s.cfg.val.qCap

/-- The slot of the most recent live entry with the identity of `f`: the scan for `k` in `1 .. Q_COUNT` (R160). -/
def matchingSlot (f : Frame) (s : State) : Option Nat :=
  ((List.range' 1 s.queue.count.toNat).map (slotBefore s)).find?
    (fun j => sameIdentity (s.queue.buf.getD j Frame.zero) f)

/-- Coalesce: bytes 3 and 4 of slot `j` take those of `f`, nothing else (R161, R162). -/
def coalesceInto (j : Nat) (f : Frame) (s : State) : State :=
  { s with queue := { s.queue with
      buf := s.queue.buf.set j
        { s.queue.buf.getD j Frame.zero with dataHi := f.dataHi, dataLo := f.dataLo } } }

/-- Append: all six bytes into slot `Q_WR` (R160). -/
def appendFrame (f : Frame) (s : State) : State :=
  { s with queue := { s.queue with
      buf := s.queue.buf.set s.queue.wr f
      wr := (s.queue.wr + 1) % s.cfg.val.qCap
      count := s.queue.count + 1 } }

/-- "at capacity minus the safety margin" (R160). -/
def queueFull (s : State) : Bool := decide (s.queue.count.toNat = s.cfg.val.qCap - qMargin)

/-- `Enqueue(f)`: the overflow test comes before the coalescing scan (R160, R163). -/
def enqueue (f : Frame) (s : State) : State :=
  if queueFull s then setError .queueOverflow s
  else
    match matchingSlot f s with
    | some j => coalesceInto j f s
    | none => appendFrame f s

/-- The oldest frame `Q_BUF[Q_RD]` (R166). -/
def oldestFrame (s : State) : Frame := s.queue.buf.getD s.queue.rd Frame.zero

/-- The slot freed by a dequeue: `Q_RD <- (Q_RD + 1) mod Q_CAP; Q_COUNT <- Q_COUNT - 1` (R166). -/
def dropOldest (s : State) : State :=
  { s with queue := { s.queue with rd := (s.queue.rd + 1) % s.cfg.val.qCap, count := s.queue.count - 1 } }

/-! ### The accumulator -/

/-- What a bad checksum does to the accumulator and the stack, by `BAD_CS_POLICY` (R127). -/
def badChecksum (s : State) : State :=
  match s.cfg.val.badCsPolicy with
  | .restart => enterReceiving (setError .badChecksum s)
  | .restartPop => pop (enterReceiving (setError .badChecksum s))
  | .staleFault => setError .badChecksum s

/-- `CheckFrame()` (R127): the frame's pop happens even if the enqueue overflowed. -/
def checkFrame (s : State) : State :=
  if s.acc.cs = 0 then pop (enqueue s.acc.buf s) else badChecksum s

/-- The three writes of `Accumulate` (R126). -/
def storeByte (b : Byte) (s : State) : State :=
  { s with acc :=
      { buf := setFrameByte s.acc.buf s.acc.count b, cs := s.acc.cs ^^^ b, count := s.acc.count + 1 } }

/-- `Accumulate(b)` (R126). -/
def accumulate (b : Byte) (s : State) : State :=
  if s.acc.count = 6 then raiseFault .staleAccumulator s
  else if (storeByte b s).acc.count = 6 then checkFrame (storeByte b s)
  else storeByte b s

/-! ### The magic header -/

/-- `k`: bytes per unit of the magic report on top of the stack (R131). -/
def unitBytes (s : State) : Nat := if top s = .receivingMagicBytes then 1 else 2

/-- Whether the sink of the report's unit width is registered (R131). -/
def sinkRegistered (s : State) : Bool :=
  if top s = .receivingMagicBytes then s.reg.bsink else s.reg.dsink

/-- The hand-off to a registered sink (R131). -/
def handToSink (s : State) : State :=
  { s with
    sink := { kind := if top s = .receivingMagicBytes then .bytes else .dbytes
              index := s.magic.idx, length := s.magic.len, done := false }
    phase := .mgSink }

/-- The payload bytes the block discards itself: `k * max(MG_LEN - 1, 0)` (R131). -/
def discardCount (s : State) : BitVec 16 := BitVec.ofNat 16 (unitBytes s * (s.magic.len.toNat - 1))

/-- The discard path (R131). -/
def discardPayload (s : State) : State :=
  { s with
    magic := { s.magic with remain := discardCount s }
    phase := if discardCount s = 0 then .mgCsum else .mgDiscard }

/-- `MagicDispatch()` (R131). -/
def magicDispatch (s : State) : State := if sinkRegistered s then handToSink s else discardPayload s

/-- `MagicHeaderByte(b)` (R130). -/
def magicHeaderByte (b : Byte) (s : State) : State :=
  match s.magic.cursor with
  | 0 => { s with magic := { s.magic with cmd := b, cursor := 1 } }
  | 1 => { s with magic := { s.magic with idx := b, cursor := 2 } }
  | 2 => magicDispatch { s with magic := { s.magic with len := b, cursor := 3 } }
  | 3 => raiseFault .staleMagicCursor s

/-! ### The end of a pump, and transmission -/

/-- `PumpDone()` (R135): a `PUMP` completes; in a wait loop progress extends the deadline (R212). -/
def pumpDone (s : State) : State :=
  if s.op = .pump then completeCmd [pumpByte true false, errorByte s.lastError] s
  else { s with deadline := deadlineFrom s, phase := .loop }

/-- The issue of a transmit operation with body `body` and wait state `w` (R183). -/
def issueTransmit (body : List Byte) (w : LinkState) (s : State) : State :=
  { s with
    lastError := .none
    tx := { frame := txFrame body, push := w }
    deadline := deadlineFrom s
    op := .tx
    phase := .loop }

/-- The whole latched frame written to `TX_LOG`, byte by byte in order (R41, R186). -/
def transmitFrame (s : State) : State := { s with txLog := s.txLog ++ s.tx.frame }

/-- A command operation's own error as its one-byte response (R77). -/
def completeWithError (s : State) : State := completeCmd [errorByte s.lastError] s

/-- `TxFinish()` (R186). -/
def txFinish (s : State) : State := completeWithError (push s.tx.push (transmitFrame s)).2

/-- `Finish()`: the end of a wait (R215). -/
def finishWait (s : State) : State := if s.op = .wait then completeWithError s else txFinish s

end Sys2Proof.Machine
end

