-- ==== Sys2Proof/Machine/Control.lean ====
section
/-! DEFINITION. The command-port control operations: the effect of the `HOST_CMD` step that issues each (R74). -/

namespace Sys2Proof.Machine

/-- `PUMP`, issue: `LAST_ERROR <- NONE; OP <- PUMP; PHASE <- START` (R136). Its `BLOCK` step is `pumpStart`. -/
def execPump (s : State) : Host.Outcome State Fault Refusal :=
  .next { s with lastError := .none, op := .pump, phase := .start }

/-- `WAIT_IDLE`, issue (R210). Its `BLOCK` steps are `loopStep`. -/
def execWaitIdle (s : State) : Host.Outcome State Fault Refusal :=
  .next { s with lastError := .none, deadline := deadlineFrom s, op := .wait, phase := .loop }

/-- `RESYNC`, "entirely in the `HOST_CMD` issue step" (R217). -/
def execResync (s : State) : Host.Outcome State Fault Refusal :=
  let t := resyncLink (setError .none s)
  .next (respondCmd [errorByte t.lastError] t)

/-- `SET_HANDLER en` (R190). -/
def execSetHandler (en : Bool) (s : State) : Host.Outcome State Fault Refusal :=
  let t := setError .none s
  .next (respondCmd [errorByte t.lastError] { t with reg := { t.reg with handler := en } })

/-- `SET_BYTES_SINK en` (R191). -/
def execSetBytesSink (en : Bool) (s : State) : Host.Outcome State Fault Refusal :=
  let t := setError .none s
  .next (respondCmd [errorByte t.lastError] { t with reg := { t.reg with bsink := en } })

/-- `SET_DBYTES_SINK en` (R192). -/
def execSetDbytesSink (en : Bool) (s : State) : Host.Outcome State Fault Refusal :=
  let t := setError .none s
  .next (respondCmd [errorByte t.lastError] { t with reg := { t.reg with dsink := en } })

end Sys2Proof.Machine
end

