-- ==== Sys2Proof/Machine/Drain.lean ====
section
/-! DEFINITION. The drain-port operations: each executes entirely within its `HOST_DRAIN` step (R76). -/

namespace Sys2Proof.Machine

/-- `DEQUEUE` (R166). -/
def execDequeue (s : State) : Host.Outcome State Fault Refusal :=
  if s.queue.count = 0 then .next (respondDrain [0x00] s)
  else .next (respondDrain (0x01 :: frameBytes (oldestFrame s)) (dropOldest s))

/-- `READ_STATUS` (R168). -/
def execReadStatus (s : State) : Host.Outcome State Fault Refusal :=
  .next (respondDrain (statusBytes s) s)

end Sys2Proof.Machine
end

