-- ==== Sys2Proof/Machine/Receive.lean ====
section
/-! DEFINITION. The receive classes: the effect of dispatching one byte already removed from `RX_FIFO` (R120). The pump
around a dispatch, and `PumpDone` after it, are in Machine/Agents.lean. -/

namespace Sys2Proof.Machine

/-- `EventLead(b)` with b = `CODES.REPORT_EVENT` (R121): on overflow the byte is dropped (R106). -/
def execRxReportEventLead (s : State) : Host.Outcome State Fault Refusal :=
  let p := push .receivingEvent s
  .next (if p.1 then accumulate s.cfg.val.codes.reportEvent p.2 else p.2)

/-- `MG_CURSOR <- 0; Push(w)`: `MagicLead(w)` (R122). -/
def magicLead (w : LinkState) (s : State) : State :=
  (push w { s with magic := { s.magic with cursor := 0 } }).2

/-- `MagicLead(ReceivingMagicBytes)` (R122). -/
def execRxMagicBytesLead (s : State) : Host.Outcome State Fault Refusal :=
  .next (magicLead .receivingMagicBytes s)

/-- `MagicLead(ReceivingMagicDoubleBytes)` (R122). -/
def execRxMagicDbytesLead (s : State) : Host.Outcome State Fault Refusal :=
  .next (magicLead .receivingMagicDoubleBytes s)

/-- ACK: "an ACK byte pops the stack (success)" (R123). -/
def execRxAck (s : State) : Host.Outcome State Fault Refusal := .next (pop s)

/-- NAK: "a NAK byte pops the stack and records a NAK error" (R123). -/
def execRxNak (s : State) : Host.Outcome State Fault Refusal := .next (setError .nak (pop s))

/-- `ReportLead(b)` with b = `CODES.REPORT_OBJ` (R124). -/
def execRxReportObjLead (s : State) : Host.Outcome State Fault Refusal :=
  .next (accumulate s.cfg.val.codes.reportObj (replaceTop .receivingReport s))

/-- `FramingError()`: the byte is discarded (R125). -/
def execRxFramingError (_b : Byte) (s : State) : Host.Outcome State Fault Refusal :=
  .next (countFatal (setError .framing s))

/-- A frame byte: `Accumulate(b)` (R126). -/
def execRxFrameByte (b : Byte) (s : State) : Host.Outcome State Fault Refusal := .next (accumulate b s)

/-- A magic header byte: `MagicHeaderByte(b)` (R130). -/
def execRxMagicHeaderByte (b : Byte) (s : State) : Host.Outcome State Fault Refusal :=
  .next (magicHeaderByte b s)

end Sys2Proof.Machine
end

