-- ==== Sys2Proof/Machine/Transmit.lean ====
section
/-! DEFINITION. The transmit operations: each latches its frame and its wait state at issue (R182, R183). The pre-wait
and the transmission are the `BLOCK` steps `loopStep` and `txFinish` (R186, R214). -/

namespace Sys2Proof.Machine

/-- `READ_OBJ obj, idx` (R184). -/
def execReadObj (obj idx : Byte) (s : State) : Host.Outcome State Fault Refusal :=
  .next (issueTransmit (bodyReadObj s.cfg.val.codes obj idx) .waitReportHeader s)

/-- `WRITE_OBJ obj, idx, dh, dl` (R185). -/
def execWriteObj (obj idx dh dl : Byte) (s : State) : Host.Outcome State Fault Refusal :=
  .next (issueTransmit (bodyWriteObj s.cfg.val.codes obj idx dh dl) .waitAckOrNak s)

/-- `WRITE_CONTRAST val` (R187). -/
def execWriteContrast (val : Byte) (s : State) : Host.Outcome State Fault Refusal :=
  .next (issueTransmit (bodyWriteContrast s.cfg.val.codes val) .waitAckOrNak s)

/-- `WRITE_STR idx, [u1 .. un]` (R188). -/
def execWriteStr (idx : Byte) (us : List Byte) (s : State) : Host.Outcome State Fault Refusal :=
  .next (issueTransmit (bodyUnits8 s.cfg.val.codes.writeStr idx us) .waitAckOrNak s)

/-- `WRITE_STRU idx, [v1 .. vn]` (R189). -/
def execWriteStrU (idx : Byte) (us : List Unit16) (s : State) : Host.Outcome State Fault Refusal :=
  .next (issueTransmit (bodyUnits16 s.cfg.val.codes.writeStrU idx us) .waitAckOrNak s)

/-- `WRITE_MAGIC_BYTES idx, [u1 .. un]` (R193). -/
def execWriteMagicBytes (idx : Byte) (us : List Byte) (s : State) : Host.Outcome State Fault Refusal :=
  .next (issueTransmit (bodyUnits8 s.cfg.val.codes.writeMagicBytes idx us) .waitAckOrNak s)

/-- `WRITE_MAGIC_DBYTES idx, [v1 .. vn]` (R194). -/
def execWriteMagicDbytes (idx : Byte) (us : List Unit16) (s : State) : Host.Outcome State Fault Refusal :=
  .next (issueTransmit (bodyUnits16 s.cfg.val.codes.writeMagicDbytes idx us) .waitAckOrNak s)

end Sys2Proof.Machine
end

