-- ==== Sys2Proof/Machine/Dispatch.lean ====
section
/-! DEFINITION. One arm per instruction: the meaning it calls. -/

namespace Sys2Proof.Machine

def exec (i : Instr) (s : State) : Host.Outcome State Fault Refusal :=
  match i with
  | .pump => Sys2Proof.Machine.execPump s
  | .waitIdle => Sys2Proof.Machine.execWaitIdle s
  | .resync => Sys2Proof.Machine.execResync s
  | .setHandler en => Sys2Proof.Machine.execSetHandler en s
  | .setBytesSink en => Sys2Proof.Machine.execSetBytesSink en s
  | .setDbytesSink en => Sys2Proof.Machine.execSetDbytesSink en s
  | .readObj obj idx => Sys2Proof.Machine.execReadObj obj idx s
  | .writeObj obj idx dh dl => Sys2Proof.Machine.execWriteObj obj idx dh dl s
  | .writeContrast val => Sys2Proof.Machine.execWriteContrast val s
  | .writeStr idx us => Sys2Proof.Machine.execWriteStr idx us s
  | .writeStrU idx us => Sys2Proof.Machine.execWriteStrU idx us s
  | .writeMagicBytes idx us => Sys2Proof.Machine.execWriteMagicBytes idx us s
  | .writeMagicDbytes idx us => Sys2Proof.Machine.execWriteMagicDbytes idx us s
  | .dequeue => Sys2Proof.Machine.execDequeue s
  | .readStatus => Sys2Proof.Machine.execReadStatus s
  | .rxReportEventLead => Sys2Proof.Machine.execRxReportEventLead s
  | .rxMagicBytesLead => Sys2Proof.Machine.execRxMagicBytesLead s
  | .rxMagicDbytesLead => Sys2Proof.Machine.execRxMagicDbytesLead s
  | .rxAck => Sys2Proof.Machine.execRxAck s
  | .rxNak => Sys2Proof.Machine.execRxNak s
  | .rxReportObjLead => Sys2Proof.Machine.execRxReportObjLead s
  | .rxFramingError b => Sys2Proof.Machine.execRxFramingError b s
  | .rxFrameByte b => Sys2Proof.Machine.execRxFrameByte b s
  | .rxMagicHeaderByte b => Sys2Proof.Machine.execRxMagicHeaderByte b s

end Sys2Proof.Machine
end

