-- ==== Sys2Proof/Machine/Agents.lean ====
section
/-! DEFINITION. The steps of the agents of R6: `BLOCK` (the pump R136, the wait loop R214, the magic phases R132 to
R134), the two host ports (R73 to R76), `PEER`, `CLOCK` and `SINK` (R40, R42, R44). A turn given to an agent that has no
enabled step changes nothing (log entry 2). -/

namespace Sys2Proof.Machine

/-! ### Dispatch and the pump -/

/-- `Dispatch(b)` for a byte already removed from `RX_FIFO` (R120); in `Shutdown` it faults (R129). -/
def dispatchByte (b : Byte) (s : State) : Host.Outcome State Fault Refusal :=
  match decode s.cfg.val.codes (.receive (top s)) [b] with
  | .ok i => exec i s
  | .error _ => .next (raiseFault .shutdownState s)

/-- The magic phases of R132 to R134. -/
def magicPhase : Phase → Bool
  | .start => false
  | .loop => false
  | .mgSink => true
  | .mgDiscard => true
  | .mgCsum => true

/-- After a dispatch: "if PHASE not in {MG_SINK, MG_DISCARD, MG_CSUM}: PumpDone()" (R136, R214); a fault ended the step
(R235). -/
def afterDispatch (o : Host.Outcome State Fault Refusal) : Host.Outcome State Fault Refusal :=
  match o with
  | .next t => if t.fault || magicPhase t.phase then .next t else .next (pumpDone t)
  | .fault r => .fault r
  | .refused r => .refused r

/-- A pump that finds the byte `b`: `RxRead`, `Dispatch`, and the end of the pump (R136, R214). -/
def consumeByte (b : Byte) (rest : List Byte) (s : State) : Host.Outcome State Fault Refusal :=
  afterDispatch (dispatchByte b { s with rxFifo := rest })

/-- `N`: the handler is notified when it is registered and the queue is not empty (R137). -/
def handlerNotified (s : State) : Bool := s.reg.handler && decide (s.queue.count ≠ 0)

/-- The `BLOCK` step of `PUMP` at `PHASE = START` (R136): "the poll itself never waits". -/
def pumpStart (s : State) : Host.Outcome State Fault Refusal :=
  match s.rxFifo with
  | [] =>
    let t := setError .noChar s
    .next (completeCmd [pumpByte false (handlerNotified t), errorByte t.lastError] t)
  | b :: rest => consumeByte b rest s

/-- `LoopStep()`, its cases in the order of R214. -/
def loopStep (s : State) : Host.Outcome State Fault Refusal :=
  if top s = .idle then .next (finishWait s)
  else
    match s.rxFifo with
    | b :: rest => consumeByte b rest s
    | [] => if elapsed s then .next (finishWait (setError .timeout s)) else .next s

/-! ### The magic phases -/

/-- Phase `MG_SINK` (R132). -/
def mgSinkStep (s : State) : State :=
  if s.sink.done then { s with sink := { s.sink with done := false }, phase := .mgCsum } else s

/-- Phase `MG_DISCARD` (R133). -/
def mgDiscardStep (s : State) : State :=
  match s.rxFifo with
  | [] => s
  | _ :: rest =>
    { s with
      rxFifo := rest
      magic := { s.magic with remain := s.magic.remain - 1 }
      phase := if s.magic.remain - 1 = 0 then .mgCsum else .mgDiscard }

/-- Phase `MG_CSUM` (R134): the checksum byte is discarded, never validated. -/
def mgCsumStep (s : State) : State :=
  match s.rxFifo with
  | [] => s
  | _ :: rest => pumpDone (pop { s with rxFifo := rest })

/-! ### The agents -/

/-- The `BLOCK` step of the operation in progress. Where the spec gives no step to a pair (`OP`, `PHASE`) the block
holds (log entry 10). -/
def blockStep (s : State) : Host.Outcome State Fault Refusal :=
  match s.op, s.phase with
  | .none, _ => .next s
  | .pump, .start => pumpStart s
  | .pump, .loop => .next s
  | .wait, .start => .next s
  | .wait, .loop => loopStep s
  | .tx, .start => .next s
  | .tx, .loop => loopStep s
  | .pump, .mgSink => .next (mgSinkStep s)
  | .wait, .mgSink => .next (mgSinkStep s)
  | .tx, .mgSink => .next (mgSinkStep s)
  | .pump, .mgDiscard => .next (mgDiscardStep s)
  | .wait, .mgDiscard => .next (mgDiscardStep s)
  | .tx, .mgDiscard => .next (mgDiscardStep s)
  | .pump, .mgCsum => .next (mgCsumStep s)
  | .wait, .mgCsum => .next (mgCsumStep s)
  | .tx, .mgCsum => .next (mgCsumStep s)

/-- Whether `BLOCK` has an enabled step: otherwise it holds (R6, R136, R214, R132 to R134). -/
def blockEnabled (s : State) : Bool :=
  match s.op, s.phase with
  | .none, _ => false
  | .pump, .start => true
  | .pump, .loop => false
  | .wait, .start => false
  | .tx, .start => false
  | .wait, .loop => decide (top s = .idle) || !s.rxFifo.isEmpty || elapsed s
  | .tx, .loop => decide (top s = .idle) || !s.rxFifo.isEmpty || elapsed s
  | .pump, .mgSink => s.sink.done
  | .wait, .mgSink => s.sink.done
  | .tx, .mgSink => s.sink.done
  | .pump, .mgDiscard => !s.rxFifo.isEmpty
  | .wait, .mgDiscard => !s.rxFifo.isEmpty
  | .tx, .mgDiscard => !s.rxFifo.isEmpty
  | .pump, .mgCsum => !s.rxFifo.isEmpty
  | .wait, .mgCsum => !s.rxFifo.isEmpty
  | .tx, .mgCsum => !s.rxFifo.isEmpty

/-- A command presented to the command port: an illegal one "is answered by Respond(port, [0xFF]) in the issue step and
changes no other state" (R73). -/
def issueCommand (c : List Byte) (s : State) : Host.Outcome State Fault Refusal :=
  match decode s.cfg.val.codes (.host .command) c with
  | .ok i => exec i s
  | .error _ => .next (respondCmd [0xFF] s)

/-- A command presented to the drain port (R73, R76). -/
def issueDrain (c : List Byte) (s : State) : Host.Outcome State Fault Refusal :=
  match decode s.cfg.val.codes (.host .drain) c with
  | .ok i => exec i s
  | .error _ => .next (respondDrain [0xFF] s)

/-- `HOST_CMD` (R74): enabled only while `OP = NONE`; otherwise "the host's next command waits" (R75). -/
def hostCmdStep (s : State) : Host.Outcome State Fault Refusal :=
  if s.op = .none then
    match s.script.cmdIn with
    | [] => .next s
    | c :: cs => issueCommand c { s with script := { s.script with cmdIn := cs } }
  else .next s

/-- `HOST_DRAIN` (R76): enabled whatever `OP` is. -/
def hostDrainStep (s : State) : Host.Outcome State Fault Refusal :=
  match s.script.drainIn with
  | [] => .next s
  | c :: cs => issueDrain c { s with script := { s.script with drainIn := cs } }

/-- `PEER` appends one byte (R40). -/
def peerStep (s : State) : State :=
  match s.script.peerIn with
  | [] => s
  | b :: bs => { s with rxFifo := s.rxFifo ++ [b], script := { s.script with peerIn := bs } }

/-- `CLOCK`: `NOW <- (NOW + 1) mod 2^32` (R42). -/
def clockStep (s : State) : State := { s with now := s.now + 1 }

/-- `SINK` "has steps only while `PHASE = MG_SINK` and `SINK_DONE = 0`" (R44). -/
def sinkActive (s : State) : Bool := decide (s.phase = .mgSink) && !s.sink.done

/-- *sink-read* (R44). -/
def sinkReadStep (s : State) : State :=
  if sinkActive s then
    match s.rxFifo with
    | [] => s
    | b :: rest => { s with rxFifo := rest, sinkData := s.sinkData ++ [b] }
  else s

/-- *sink-done* (R44). -/
def sinkDoneStep (s : State) : State :=
  if sinkActive s then { s with sink := { s.sink with done := true } } else s

/-- The step of the agent whose turn it is. -/
def takeTurn (t : Turn) (s : State) : Host.Outcome State Fault Refusal :=
  match t with
  | .hostCmd => hostCmdStep s
  | .hostDrain => hostDrainStep s
  | .peer => .next (peerStep s)
  | .clock => .next (clockStep s)
  | .sinkRead => .next (sinkReadStep s)
  | .sinkDone => .next (sinkDoneStep s)
  | .block => blockStep s

/-- The next turn of the interleaving: the script's, or `BLOCK`'s when the script gives none (log entry 1). -/
def nextTurn (s : State) : Turn × State :=
  match s.script.turns with
  | [] => (.block, s)
  | t :: ts => (t, { s with script := { s.script with turns := ts } })

/-! ### A table word presented as the next instruction -/

/-- The command port with `c` presented and its turn next. -/
def presentCommand (c : List Byte) (s : State) : State :=
  { s with
    fault := false
    op := .none
    script := { s.script with turns := .hostCmd :: s.script.turns, cmdIn := c :: s.script.cmdIn } }

/-- The drain port with `c` presented and its turn next. -/
def presentDrain (c : List Byte) (s : State) : State :=
  { s with
    fault := false
    script := { s.script with turns := .hostDrain :: s.script.turns, drainIn := c :: s.script.drainIn } }

/-- A `PUMP` in progress at `Idle` that finds the bytes `bs`, with `BLOCK`'s turn next. -/
def presentReceived (bs : List Byte) (s : State) : State :=
  { s with
    fault := false
    op := .pump
    phase := .start
    link := { ls := s.link.ls.set 0 .idle, depth := 1 }
    rxFifo := bs ++ s.rxFifo
    script := { s.script with turns := .block :: s.script.turns } }

/-- The word presented where its place takes it (log entry 9). -/
def presentWord (nbits w : Nat) (s : State) : State :=
  match tablePlace nbits w with
  | .host .command => presentCommand (tableBytes nbits w) s
  | .host .drain => presentDrain (tableBytes nbits w) s
  | .receive _ => presentReceived (tableBytes nbits w) s

end Sys2Proof.Machine
end

