-- ==== Sys2Proof/Machine/Step.lean ====
section
/-! DEFINITION. One step of the machine: the next agent of the interleaving moves (R5, R6). -/

namespace Sys2Proof.Machine

/-- One atomic step (R5). "While `FAULT = 1` no agent has a step" (R36). -/
def step (s : State) : Host.Outcome State Fault Refusal :=
  if s.fault then .fault (.stopped s.faultKind)
  else takeTurn (nextTurn s).1 (nextTurn s).2

/-- `s` with the instruction of a table word presented so that the very next step runs it (log entries 8 and 9). -/
def State.withFetchWord (s : State) (nbits w : Nat) : State := presentWord nbits w s

end Sys2Proof.Machine
end

