-- ==== Sys2Proof/Machine/Assembler.lean ====
section
/-! DEFINITION. The assembler syntax of the host command language (R87), its pseudo-operations and the environment
directives (R88). The block itself sees only the command bytes. -/

namespace Sys2Proof.Machine

/-- The pieces of an assembler line. -/
inductive Token where
  | word (cs : List Char)
  | text (cs : List Char)
  | comma
  | lbracket
  | rbracket
deriving DecidableEq, Repr

/-- Why a line does not assemble. -/
inductive AsmError where
  /-- The mnemonic is none of R72's or R88's. -/
  | unknownMnemonic
  /-- The operands do not have the mnemonic's form. -/
  | badOperands
  /-- A number is not in its operand's range, or is no number. -/
  | badNumber
  /-- R87: a list longer than 255 units is refused. -/
  | listTooLong
  /-- A quoted string that does not end, or holds a character above 0xFF. -/
  | badText
deriving DecidableEq, Repr

/-! ### Tokens -/

/-- A finished word, if it has any character (the characters are held in reverse). -/
def flushWord (w : List Char) (ts : List Token) : List Token :=
  match w with
  | [] => ts
  | c :: cs => .word (c :: cs).reverse :: ts

/-- Splits a line into tokens; `w` is the word being read and `q` the quoted text being read, both reversed. -/
def tokens (w : List Char) (q : Option (List Char)) : List Char → Option (List Token)
  | [] =>
    match q with
    | none => some (flushWord w [])
    | some _ => none
  | c :: cs =>
    match q with
    | some t => if c = '"' then (tokens [] none cs).map (.text t.reverse :: ·) else tokens [] (some (c :: t)) cs
    | none =>
      if c = '"' then (tokens [] (some []) cs).map (flushWord w)
      else if c = ' ' then (tokens [] none cs).map (flushWord w)
      else if c = ',' then (tokens [] none cs).map (fun ts => flushWord w (.comma :: ts))
      else if c = '[' then (tokens [] none cs).map (fun ts => flushWord w (.lbracket :: ts))
      else if c = ']' then (tokens [] none cs).map (fun ts => flushWord w (.rbracket :: ts))
      else tokens (c :: w) none cs

/-! ### Numbers -/

/-- The value of a digit in a base up to 16. -/
def digitValue (base : Nat) (c : Char) : Option Nat :=
  let v :=
    if '0'.toNat ≤ c.toNat ∧ c.toNat ≤ '9'.toNat then c.toNat - '0'.toNat
    else if 'a'.toNat ≤ c.toNat ∧ c.toNat ≤ 'f'.toNat then c.toNat - 'a'.toNat + 10
    else if 'A'.toNat ≤ c.toNat ∧ c.toNat ≤ 'F'.toNat then c.toNat - 'A'.toNat + 10
    else base
  if v < base then some v else none

/-- The value of a digit string, most significant digit first. -/
def digits (base acc : Nat) : List Char → Option Nat
  | [] => some acc
  | c :: cs =>
    match digitValue base c with
    | some v => digits base (base * acc + v) cs
    | none => none

/-- "a decimal number 0..255 or `0x` followed by hexadecimal digits" (R87). -/
def number : List Char → Option Nat
  | '0' :: 'x' :: c :: cs => digits 16 0 (c :: cs)
  | c :: cs => digits 10 0 (c :: cs)
  | [] => none

/-- A number that fits `n` bits. -/
def wordNumber (n : Nat) (cs : List Char) : Except AsmError (BitVec n) :=
  match number cs with
  | some v => if v < 2 ^ n then .ok (BitVec.ofNat n v) else .error .badNumber
  | none => .error .badNumber

/-! ### Operands -/

/-- The numbers of a comma-separated operand list (R87). A comma stands between two operands, so a line that ends in a
comma is refused: R87 says only "comma-separated", and this is the model's choice (log entry 18). -/
def operandWords : List Token → Option (List (List Char))
  | [.word w] => some [w]
  | .word w :: .comma :: ts => (operandWords ts).map (w :: ·)
  | _ => none

/-- The numbers of a unit list that has one, up to its closing bracket, which ends the line. A comma before the bracket
is refused, as in `operandWords` (log entry 18). -/
def unitWords : List Token → Option (List (List Char))
  | [.word w, .rbracket] => some [w]
  | .word w :: .comma :: ts => (unitWords ts).map (w :: ·)
  | _ => none

/-- The numbers of a bracketed list after its opening bracket; `[]` has none (R87, R188). -/
def listWords (ts : List Token) : Option (List (List Char)) :=
  if ts = [.rbracket] then some [] else unitWords ts

/-- Every word as a number of `n` bits. -/
def wordNumbers (n : Nat) : List (List Char) → Except AsmError (List (BitVec n))
  | [] => .ok []
  | w :: ws =>
    match wordNumber n w with
    | .error e => .error e
    | .ok v =>
      match wordNumbers n ws with
      | .error e => .error e
      | .ok vs => .ok (v :: vs)

/-- "with each character's code" (R88). -/
def textUnits : List Char → Except AsmError (List Byte)
  | [] => .ok []
  | c :: cs =>
    if c.toNat < 256 then
      match textUnits cs with
      | .error e => .error e
      | .ok vs => .ok (BitVec.ofNat 8 c.toNat :: vs)
    else .error .badText

/-- A list of at most 255 units (R87, R195). -/
def cappedUnits {α : Type} (f : List α → Instr) (us : List α) : Except AsmError Instr :=
  if us.length ≤ 255 then .ok (f us) else .error .listTooLong

/-- `idx, [u1, u2, ...]`, or `idx, "text"` where `text` allows it (R87, R88). -/
def asmUnits (n : Nat) (f : Byte → List (BitVec n) → Instr) (text : List Char → Except AsmError (List (BitVec n)))
    (ts : List Token) : Except AsmError Instr :=
  match ts with
  | .word i :: .comma :: .lbracket :: rest =>
    match wordNumber 8 i, listWords rest with
    | .ok idx, some ws =>
      match wordNumbers n ws with
      | .ok us => cappedUnits (f idx) us
      | .error e => .error e
    | .error e, _ => .error e
    | .ok _, none => .error .badOperands
  | [.word i, .comma, .text t] =>
    match wordNumber 8 i, text t with
    | .ok idx, .ok us => cappedUnits (f idx) us
    | .error e, _ => .error e
    | .ok _, .error e => .error e
  | _ => .error .badOperands

/-- No quoted text for this mnemonic. -/
def noText (n : Nat) (_ : List Char) : Except AsmError (List (BitVec n)) := .error .badOperands

/-- No operands. -/
def asmPlain (i : Instr) : List Token → Except AsmError Instr
  | [] => .ok i
  | _ :: _ => .error .badOperands

/-- `en`, written `on` or `off` (R87). -/
def asmEnable (f : Bool → Instr) (ts : List Token) : Except AsmError Instr :=
  match ts with
  | [.word w] =>
    if w = ['o', 'n'] then .ok (f true)
    else if w = ['o', 'f', 'f'] then .ok (f false)
    else .error .badOperands
  | _ => .error .badOperands

/-- Comma-separated byte operands. -/
def asmBytes (f : List Byte → Option Instr) (ts : List Token) : Except AsmError Instr :=
  match operandWords ts with
  | none => .error .badOperands
  | some ws =>
    match wordNumbers 8 ws with
    | .error e => .error e
    | .ok bs =>
      match f bs with
      | some i => .ok i
      | none => .error .badOperands

/-- `WRITE_OBJ16 obj, idx, v` "expands to `WRITE_OBJ obj, idx, hi(v), lo(v)`" (R88). -/
def expandWriteObj16 (obj idx : Byte) (v : Unit16) : Instr := .writeObj obj idx (hiByte v) (loByte v)

/-- The operands of `WRITE_OBJ16`. -/
def asmWriteObj16 (ts : List Token) : Except AsmError Instr :=
  match operandWords ts with
  | some [o, x, v] =>
    match wordNumber 8 o, wordNumber 8 x, wordNumber 16 v with
    | .ok obj, .ok idx, .ok val => .ok (expandWriteObj16 obj idx val)
    | _, _, _ => .error .badNumber
  | _ => .error .badOperands

/-! ### Mnemonics -/

/-- The mnemonics of R72 and the one-operation pseudo-operation of R88, with the operands each takes. -/
def asmOperation (m : List Char) (ts : List Token) : Except AsmError Instr :=
  if m = "PUMP".toList then asmPlain .pump ts
  else if m = "WAIT_IDLE".toList then asmPlain .waitIdle ts
  else if m = "RESYNC".toList then asmPlain .resync ts
  else if m = "SET_HANDLER".toList then asmEnable .setHandler ts
  else if m = "SET_BYTES_SINK".toList then asmEnable .setBytesSink ts
  else if m = "SET_DBYTES_SINK".toList then asmEnable .setDbytesSink ts
  else if m = "READ_OBJ".toList then
    asmBytes (fun bs => match bs with | [o, x] => some (.readObj o x) | _ => none) ts
  else if m = "WRITE_OBJ".toList then
    asmBytes (fun bs => match bs with | [o, x, h, l] => some (.writeObj o x h l) | _ => none) ts
  else if m = "WRITE_OBJ16".toList then asmWriteObj16 ts
  else if m = "WRITE_CONTRAST".toList then
    asmBytes (fun bs => match bs with | [v] => some (.writeContrast v) | _ => none) ts
  else if m = "WRITE_STR".toList then asmUnits 8 .writeStr textUnits ts
  else if m = "WRITE_STRU".toList then asmUnits 16 .writeStrU (noText 16) ts
  else if m = "WRITE_MAGIC_BYTES".toList then asmUnits 8 .writeMagicBytes (noText 8) ts
  else if m = "WRITE_MAGIC_DBYTES".toList then asmUnits 16 .writeMagicDbytes (noText 16) ts
  else if m = "DEQUEUE".toList then asmPlain .dequeue ts
  else if m = "READ_STATUS".toList then asmPlain .readStatus ts
  else .error .unknownMnemonic

/-- One assembler line to its operation (R87). -/
def assembleLine (line : List Char) : Except AsmError Instr :=
  match tokens [] none line with
  | none => .error .badText
  | some (.word m :: ts) => asmOperation m ts
  | some _ => .error .unknownMnemonic

/-! ### Host loops and environment directives (R88) -/

/-- One command of a host loop on the drain port: it is issued and answered at once, whatever `OP` is (R76), and a faulted
state has no step for it (R36). -/
def drainCall (c : List Byte) (s : State) : Host.Outcome State Fault Refusal :=
  if s.fault then .fault (.stopped s.faultKind) else issueDrain c s

/-- `DRAIN`: "`DEQUEUE` repeated until a response `[0x00]`" (R88), at most `fuel` times. No other agent has a turn between
two of them: R5 would let one step there, and this is the model's choice, as is the bound (log entry 18). -/
def drainLoop : Nat → State → Host.Outcome State Fault Refusal
  | 0, s => .next s
  | fuel + 1, s =>
    match drainCall (encode s.cfg.val.codes .dequeue) s with
    | .next t => if t.respDrain.getLast? = some [0x00] then .next t else drainLoop fuel t
    | .fault r => .fault r
    | .refused r => .refused r

/-- The machine's steps until the command port is free: the operation in progress runs to its response, through the magic
phases too, with the turns the script gives and `BLOCK`'s when it gives none. At most `steps` of them (log entry 18); a run
that needs more, such as a held one, is left where it is, and a fault stops it. -/
def awaitPort : Nat → State → Host.Outcome State Fault Refusal
  | 0, s => .next s
  | steps + 1, s =>
    if s.op = .none then .next s
    else
      match step s with
      | .next t => awaitPort steps t
      | .fault r => .fault r
      | .refused r => .refused r

/-- One command of a host loop on the command port: it is issued once the port is free (R75) and run to its response
(R77). It is issued without a turn of the script and without another agent's turn before it (log entry 18). -/
def hostCall (steps : Nat) (c : List Byte) (s : State) : Host.Outcome State Fault Refusal :=
  match awaitPort steps s with
  | .next t =>
    if t.fault then .fault (.stopped t.faultKind)
    else if t.op = .none then
      match issueCommand c t with
      | .next u => awaitPort steps u
      | .fault r => .fault r
      | .refused r => .refused r
    else .next t
  | .fault r => .fault r
  | .refused r => .refused r

/-- Whether the command port is free and its last response is a `PUMP`'s with `P[0] = 1`: "a byte was processed" (R77). -/
def pumpedByte (s : State) : Bool :=
  match s.op, s.respCmd.getLast? with
  | .none, some (p :: _) => p.getLsbD 0
  | .none, some [] => false
  | .none, none => false
  | .pump, _ => false
  | .wait, _ => false
  | .tx, _ => false

/-- `POLL`: "`PUMP` repeated until a response whose `P[0]` is 0" (R88), at most `fuel` times and with at most `steps` steps
to each response (log entry 18). -/
def pollLoop (steps : Nat) : Nat → State → Host.Outcome State Fault Refusal
  | 0, s => .next s
  | fuel + 1, s =>
    match hostCall steps (encode s.cfg.val.codes .pump) s with
    | .next t => if pumpedByte t then pollLoop steps fuel t else .next t
    | .fault r => .fault r
    | .refused r => .refused r

/-- The lines of a test program: commands on the two ports, and the environment directives of R88. -/
inductive Directive where
  | command (bs : List Byte)
  | drain (bs : List Byte)
  | peer (bs : List Byte)
  | clock (t : Nat)
  | sink (k : Nat)
  | block (n : Nat)
deriving DecidableEq, Repr

/-- One line in front of an input script. -/
def Directive.onto (d : Directive) (s : Script) : Script :=
  match d with
  | .command bs => { s with turns := .hostCmd :: s.turns, cmdIn := bs :: s.cmdIn }
  | .drain bs => { s with turns := .hostDrain :: s.turns, drainIn := bs :: s.drainIn }
  | .peer bs => { s with turns := List.replicate bs.length .peer ++ s.turns, peerIn := bs ++ s.peerIn }
  | .clock t => { s with turns := List.replicate t .clock ++ s.turns }
  | .sink k => { s with turns := List.replicate k .sinkRead ++ .sinkDone :: s.turns }
  | .block n => { s with turns := List.replicate n .block ++ s.turns }

/-- The input script of a list of lines, each `BLOCK` step written out as a turn. -/
def scriptOf (ds : List Directive) : Script := ds.foldr Directive.onto Script.empty

end Sys2Proof.Machine
end

