-- ==== Sys2Proof/Safety.lean ====
section
/-! DEFINITION. The invariants the spec gives the state (R22, R24, R25, R27, R28, R36, R37), how a run may end (R264), and
the well-behaved sink (R44). -/

namespace Sys2Proof.Machine

/-- A link state a stack entry above the baseline may hold: one of the codes 1 to 6 (R22). -/
def pushable : LinkState → Bool
  | .idle => false
  | .waitAckOrNak => true
  | .waitReportHeader => true
  | .receivingReport => true
  | .receivingEvent => true
  | .receivingMagicBytes => true
  | .receivingMagicDoubleBytes => true
  | .shutdown => false

/-- The two states that accumulate a frame (R24). -/
def receivingFrame : LinkState → Bool
  | .idle => false
  | .waitAckOrNak => false
  | .waitReportHeader => false
  | .receivingReport => true
  | .receivingEvent => true
  | .receivingMagicBytes => false
  | .receivingMagicDoubleBytes => false
  | .shutdown => false

/-- The two states that parse a magic header (R25). -/
def receivingMagic : LinkState → Bool
  | .idle => false
  | .waitAckOrNak => false
  | .waitReportHeader => false
  | .receivingReport => false
  | .receivingEvent => false
  | .receivingMagicBytes => true
  | .receivingMagicDoubleBytes => true
  | .shutdown => false

/-- The stack invariant of R21 and R22. -/
structure LinkInv (s : State) : Prop where
  length   : s.link.ls.length = s.cfg.val.stackDepth
  depthLow : 1 ≤ s.link.depth.toNat
  depthTop : s.link.depth.toNat ≤ s.cfg.val.stackDepth
  base     : s.link.ls.getD 0 .shutdown = .idle
  entries  : ∀ i, 1 ≤ i → i < s.link.depth.toNat → pushable (s.link.ls.getD i .shutdown) = true

/-- The accumulator invariant of R24; it holds whatever `TOP` is, since the three registers are written together. -/
def AccInv (s : State) : Prop :=
  s.acc.cs = xorBytes ((frameBytes s.acc.buf).take s.acc.count.val)

/-- The `i`-th live entry of the queue, oldest first (R28). -/
def liveEntry (s : State) (i : Nat) : Frame :=
  s.queue.buf.getD ((s.queue.rd + i) % s.cfg.val.qCap) Frame.zero

/-- The live entries, oldest first (R28). -/
def liveEntries (s : State) : List Frame := (List.range s.queue.count.toNat).map (liveEntry s)

/-- The queue invariants of R27 and R28. -/
structure QueueInv (s : State) : Prop where
  length   : s.queue.buf.length = s.cfg.val.qCap
  margin   : s.queue.count.toNat ≤ s.cfg.val.qCap - qMargin
  readIdx  : s.queue.rd < s.cfg.val.qCap
  writeIdx : s.queue.wr = (s.queue.rd + s.queue.count.toNat) % s.cfg.val.qCap
  distinct : ∀ i j, i < j → j < s.queue.count.toNat → sameIdentity (liveEntry s i) (liveEntry s j) = false

/-- The sequencing invariant: `OP` with its phases (R37, R132 to R136, R214), and the transmit latch (R29, R183). -/
structure OpInv (s : State) : Prop where
  pumpPhase  : s.op = .pump → s.phase ≠ .loop
  loopPhase  : s.op = .wait ∨ s.op = .tx → s.phase ≠ .start
  idlePhase  : s.op = .none → s.phase ≠ .mgSink ∧ s.phase ≠ .mgDiscard
  magicTop   : s.op ≠ .none → magicPhase s.phase = true → receivingMagic (top s) = true
  remaining  : s.magic.remain.toNat ≤ 508
  discarding : s.phase = .mgDiscard → s.magic.remain ≠ 0
  sinkDone   : s.sink.done = true → s.phase = .mgSink
  txPush     : s.op = .tx → s.tx.push = .waitAckOrNak ∨ s.tx.push = .waitReportHeader
  txLength   : s.tx.frame.length ≤ 514
  txChecksum : xorBytes s.tx.frame = 0

/-- The status invariant: reserved error codes are never written (R30), and a fault has its kind (R29, R34, R36). -/
structure StatusInv (s : State) : Prop where
  noHandler : s.lastError ≠ .noHandler
  faultKind : s.fault = true ↔ s.faultKind ≠ .none
  noShutdown : s.faultKind ≠ .shutdownState

/-- What every reachable state satisfies. -/
structure Inv (s : State) : Prop where
  link   : LinkInv s
  acc    : AccInv s
  queue  : QueueInv s
  op     : OpInv s
  status : StatusInv s

/-! ### The ends of a run (R264) -/

/-- *Quiescent*: `OP = NONE` and `FAULT = 0`. -/
def quiescent (s : State) : Bool := decide (s.op = .none) && !s.fault

/-- *Faulted*: `FAULT = 1`. -/
def faulted (s : State) : Bool := s.fault

/-- A *hold* (R6): an operation is in progress and `BLOCK` has no enabled step until another agent acts. -/
def holding (s : State) : Bool := decide (s.op ≠ .none) && !s.fault && !blockEnabled s

/-- Whether the turn `t` is a step of an agent that could lift the hold of the phase: a byte of `PEER` or a tick of
`CLOCK` for a loop (R214, R218), the sink's done for `MG_SINK` (R132), a byte of `PEER` for the other magic phases (R133,
R134). `PEER` has a step only while it has a byte to append. -/
def couldLift (t : Turn) (s : State) : Bool :=
  let peerStep := decide (t = .peer) && !s.script.peerIn.isEmpty
  match s.phase with
  | .start => false
  | .loop => decide (t = .clock) || peerStep
  | .mgSink => decide (t = .sinkDone)
  | .mgDiscard => peerStep
  | .mgCsum => peerStep

/-- *Held*: "`OP != NONE` and no agent that could lift the block's hold takes a step" in what is left of the run (log
entry 21). The state is stuck with the command port busy: `held_step` of Laws/Ends.lean. -/
def held (s : State) : Bool := holding s && s.script.turns.all (fun t => !couldLift t s)

/-- Whether a turn is one of a `CLOCK` or `SINK` directive of R88. `PEER`'s directives last as long as its bytes do. -/
def directiveTurn : Turn → Bool
  | .hostCmd => false
  | .hostDrain => false
  | .peer => false
  | .clock => true
  | .sinkRead => true
  | .sinkDone => true
  | .block => false

/-- Every command of the program has been presented and every environment directive carried out (R264; log entry 21). -/
def programPlayed (s : State) : Bool :=
  s.script.cmdIn.isEmpty && s.script.drainIn.isEmpty && s.script.peerIn.isEmpty
    && s.script.turns.all (fun t => !directiveTurn t)

/-- A quiescent state after the program's last command and directive (R264). `RX_FIFO` "may still hold bytes". -/
def programEnded (s : State) : Bool := quiescent s && programPlayed s

/-- "The end state of a test program", the first such state of the run from `s` (R264), if there is one within `fuel`
steps. A faulted or a held run has none. -/
def endState : Nat → State → Option State
  | 0, s => if programEnded s then some s else none
  | fuel + 1, s =>
    if programEnded s then some s
    else
      match step s with
      | .next t => endState fuel t
      | .fault _ => none
      | .refused _ => none

/-- The number of bytes a well-behaved sink reads before it signals done (R44). -/
def sinkBytes (p : SinkPort) : Nat :=
  match p.kind with
  | .bytes => p.length.toNat
  | .dbytes => 2 * p.length.toNat

/-- The turns of a well-behaved sink: it "reads exactly `SINK_LENGTH` units ... and then signals sink-done" (R44). -/
def wellBehavedSink (p : SinkPort) : List Turn := List.replicate (sinkBytes p) .sinkRead ++ [.sinkDone]

/-! ### Runs -/

/-- A byte string dispatched byte by byte, each pump consuming one (R138): the state after the last, or the first stop. -/
def dispatchAll : List Byte → State → Host.Outcome State Fault Refusal
  | [], s => .next s
  | b :: bs, s =>
    match dispatchByte b s with
    | .next t => dispatchAll bs t
    | .fault r => .fault r
    | .refused r => .refused r

/-- The states a run from reset can be in, for any configuration, any draw of `NOW` and any input. -/
inductive Reachable : State → Prop where
  | reset (cfg : Config) (now : Millis) (script : Script) : Reachable (State.resetWith cfg now script)
  | step {s t : State} : Reachable s → step s = .next t → Reachable t

end Sys2Proof.Machine
end

