-- ==== Sys2Proof/Certificates/Slice0/Obligations.lean ====
section
/-! DEFINITION. The statements for the provers, one `def Obligations.<Name> : Prop` each, listed in OBLIGATIONS.json. -/

open Sys2Proof Sys2Proof.Machine

/-! ### Encodings -/

/-- R72, R79, R81, R84: the words written out from the tables of R72 and R81 decode to the operations they stand for. -/
def Obligations.TableWordsDecode : Prop :=
  decode Codes.src (.host .command) [0x01] = .ok .pump
  ∧ decode Codes.src (.host .command) [0x04, 0x01] = .ok (.setHandler true)
  ∧ decode Codes.src (.host .command) [0x10, 0x03, 0x01] = .ok (.readObj 3 1)
  ∧ decode Codes.src (.host .command) [0x11, 0x03, 0x01, 0x01, 0xF4] = .ok (.writeObj 3 1 0x01 0xF4)
  ∧ decode Codes.src (.host .command) [0x13, 0x02, 0x02, 0x48, 0x69] = .ok (.writeStr 2 [0x48, 0x69])
  ∧ decode Codes.src (.host .command) [0x14, 0x00, 0x02, 0x00, 0x41, 0x00, 0xE9] = .ok (.writeStrU 0 [0x0041, 0x00E9])
  ∧ decode Codes.src (.host .drain) [0x20] = .ok .dequeue
  ∧ decode Codes.src (.receive .idle) [0x01] = .ok .rxReportEventLead
  ∧ decode Codes.src (.receive .waitAckOrNak) [0x15] = .ok .rxNak
  ∧ decode Codes.src (.receive .idle) [0x06] = .ok (.rxFramingError 0x06)

/-- Every instruction, with every operand the encoding admits, is what the decoder reads from its encoding, at every
place that admits it and for every code table of R82. -/
def Obligations.DecodeOfEncode : Prop :=
  ∀ (c : Codes) (p : Place) (i : Instr),
    c.distinct = true → i.wellFormed = true → i.admittedAt c p = true →
      decode c p (encode c i) = .ok i

/-- The other direction: a byte list that decodes is the encoding of the one instruction it decodes to, which is well
formed and admitted there. -/
def Obligations.EncodeOfDecode : Prop :=
  ∀ (c : Codes) (p : Place) (bs : List Byte) (i : Instr),
    decode c p bs = .ok i →
      encode c i = bs ∧ i.wellFormed = true ∧ i.admittedAt c p = true

/-- R73: a command is illegal exactly when one of (a) to (e) holds, and is then answered `[0xFF]` on its port with nothing
else changed. -/
def Obligations.IllegalCommands : Prop :=
  (∀ (c : Codes) (port : Port) (bs : List Byte),
    (∀ i, decode c (.host port) bs ≠ .ok i) ↔
      bs = []
      ∨ ∃ op args, bs = op :: args ∧
          (op ∉ ([0x01, 0x02, 0x03, 0x04, 0x05, 0x06, 0x10, 0x11, 0x12, 0x13, 0x14, 0x15, 0x16, 0x20, 0x21] : List Byte)
          ∨ (port = .command ∧ op ∈ ([0x20, 0x21] : List Byte))
          ∨ (port = .drain ∧ op ∉ ([0x20, 0x21] : List Byte))
          ∨ (op ∈ ([0x01, 0x02, 0x03, 0x20, 0x21] : List Byte) ∧ bs.length ≠ 1)
          ∨ (op ∈ ([0x04, 0x05, 0x06, 0x12] : List Byte) ∧ bs.length ≠ 2)
          ∨ (op = 0x10 ∧ bs.length ≠ 3)
          ∨ (op = 0x11 ∧ bs.length ≠ 5)
          ∨ (op ∈ ([0x13, 0x15] : List Byte) ∧ bs.length ≠ 3 + (bs.getD 2 0).toNat)
          ∨ (op ∈ ([0x14, 0x16] : List Byte) ∧ bs.length ≠ 3 + 2 * (bs.getD 2 0).toNat)
          ∨ (op ∈ ([0x04, 0x05, 0x06] : List Byte) ∧ ∃ en, args = [en] ∧ en ≠ 0x00 ∧ en ≠ 0x01)))
  ∧ (∀ (s : State) (bs : List Byte) (r : Reject), decode s.cfg.val.codes (.host .command) bs = .error r →
      issueCommand bs s = .next { s with respCmd := s.respCmd ++ [[0xFF]] })
  ∧ (∀ (s : State) (bs : List Byte) (r : Reject), decode s.cfg.val.codes (.host .drain) bs = .error r →
      issueDrain bs s = .next { s with respDrain := s.respDrain ++ [[0xFF]] })

/-- R84: the class of a byte, by the state and the configured codes, in the order of the table; in the receiving states
every byte value is data. -/
def Obligations.ReceiveClassification : Prop :=
  ∀ (c : Codes) (t : LinkState) (b : Byte), c.distinct = true →
    (t = .idle ∨ t = .waitAckOrNak ∨ t = .waitReportHeader →
      (decode c (.receive t) [b] = .ok .rxReportEventLead ↔ b = c.reportEvent)
      ∧ (decode c (.receive t) [b] = .ok .rxMagicBytesLead ↔ b = c.reportMagicBytes)
      ∧ (decode c (.receive t) [b] = .ok .rxMagicDbytesLead ↔ b = c.reportMagicDbytes)
      ∧ (decode c (.receive t) [b] = .ok .rxAck ↔ t = .waitAckOrNak ∧ b = c.ack)
      ∧ (decode c (.receive t) [b] = .ok .rxNak ↔ t = .waitAckOrNak ∧ b = c.nak)
      ∧ (decode c (.receive t) [b] = .ok .rxReportObjLead ↔ t = .waitReportHeader ∧ b = c.reportObj)
      ∧ (decode c (.receive t) [b] = .ok (.rxFramingError b) ↔
          b ≠ c.reportEvent ∧ b ≠ c.reportMagicBytes ∧ b ≠ c.reportMagicDbytes
          ∧ (t = .waitAckOrNak → b ≠ c.ack ∧ b ≠ c.nak) ∧ (t = .waitReportHeader → b ≠ c.reportObj)))
    ∧ (t = .receivingReport ∨ t = .receivingEvent → decode c (.receive t) [b] = .ok (.rxFrameByte b))
    ∧ (t = .receivingMagicBytes ∨ t = .receivingMagicDoubleBytes →
        decode c (.receive t) [b] = .ok (.rxMagicHeaderByte b))

/-! ### A step runs the decoded instruction -/

/-- A command that the command port takes and that decodes is run by that step, with the command and the turn used up; an
illegal one is answered in that step. The turn and the pending input are the model's (log entries 1 and 3). -/
def Obligations.StepRunsIssuedCommand : Prop :=
  ∀ (s : State) (ts : List Turn) (b : List Byte) (bs : List (List Byte)),
    s.fault = false → s.script.turns = .hostCmd :: ts → s.op = .none → s.script.cmdIn = b :: bs →
      (∀ i, decode s.cfg.val.codes (.host .command) b = .ok i →
        step s = exec i { s with script := { s.script with turns := ts, cmdIn := bs } })
      ∧ (∀ r, decode s.cfg.val.codes (.host .command) b = .error r →
        step s = .next { s with
          respCmd := s.respCmd ++ [[0xFF]], script := { s.script with turns := ts, cmdIn := bs } })

/-- R76: a legal drain command executes entirely within its step, whatever `OP` is, and an illegal one is answered in it
(the turn and the pending input are the model's, log entries 1 and 3). -/
def Obligations.StepRunsDrainCommand : Prop :=
  ∀ (s : State) (ts : List Turn) (b : List Byte) (bs : List (List Byte)),
    s.fault = false → s.script.turns = .hostDrain :: ts → s.script.drainIn = b :: bs →
      (∀ i, decode s.cfg.val.codes (.host .drain) b = .ok i →
        step s = exec i { s with script := { s.script with turns := ts, drainIn := bs } })
      ∧ (∀ r, decode s.cfg.val.codes (.host .drain) b = .error r →
        step s = .next { s with
          respDrain := s.respDrain ++ [[0xFF]], script := { s.script with turns := ts, drainIn := bs } })

/-- A pump that finds a byte runs its receive class on the state with the byte taken; then, unless the class raised a
fault or entered a magic phase, the pump is done. A `PUMP` at `START` and a wait loop not at `Idle` both pump. The turn is
the model's (log entry 1). -/
def Obligations.StepRunsReceivedByte : Prop :=
  ∀ (s : State) (ts : List Turn) (b : Byte) (rest : List Byte) (i : Instr) (t : State),
    s.fault = false → s.script.turns = .block :: ts → s.rxFifo = b :: rest →
    (s.op = .pump ∧ s.phase = .start) ∨ ((s.op = .wait ∨ s.op = .tx) ∧ s.phase = .loop ∧ top s ≠ .idle) →
    decode s.cfg.val.codes (.receive (top s)) [b] = .ok i →
    exec i { s with rxFifo := rest, script := { s.script with turns := ts } } = .next t →
      step s = .next (if t.fault = true ∨ t.phase = .mgSink ∨ t.phase = .mgDiscard ∨ t.phase = .mgCsum then t
        else pumpDone t)

/-! ### Reset and the invariant -/

/-- R45: the value of every piece of state whose reset value the spec gives, for every configuration and draw of `NOW`. -/
def Obligations.ResetValues : Prop :=
  ∀ (cfg : Config) (now : Millis) (script : Script),
    let s := State.resetWith cfg now script
    s.link.ls.getD 0 .shutdown = .idle ∧ s.link.depth = 1 ∧ s.acc.count = 0 ∧ s.acc.cs = 0
    ∧ s.magic.cursor = 0 ∧ s.magic.remain = 0 ∧ s.sink.done = false
    ∧ s.queue.rd = 0 ∧ s.queue.wr = 0 ∧ s.queue.count = 0
    ∧ s.lastError = .none ∧ s.fatalCount = 0 ∧ s.reg = ⟨false, false, false⟩ ∧ s.deadline = 0
    ∧ s.op = .none ∧ s.phase = .start ∧ s.tx = ⟨[], .idle⟩ ∧ s.fault = false ∧ s.faultKind = .none
    ∧ s.rxFifo = [] ∧ s.txLog = [] ∧ s.respCmd = [] ∧ s.respDrain = [] ∧ s.sinkData = [] ∧ s.now = now

/-- The invariant holds after reset, for every configuration, draw of `NOW` and input. -/
def Obligations.ResetSatisfiesInvariant : Prop :=
  ∀ (cfg : Config) (now : Millis) (script : Script), Inv (State.resetWith cfg now script)

/-- Every step of every agent keeps the invariant: the stack rules of R21 and R22, the accumulator rule of R24, the
queue rules of R27 and R28, the sequencing of `OP` and `PHASE`, the reserved error code and the fault kinds. -/
def Obligations.StepKeepsInvariant : Prop :=
  ∀ (s t : State), Inv s → step s = .next t → Inv t

/-- R260: the configuration parameters "are fixed before reset and do not change afterwards". -/
def Obligations.StepKeepsConfiguration : Prop :=
  ∀ (s t : State), step s = .next t → t.cfg = s.cfg

/-! ### Control operations -/

/-- `PUMP` (R136): its issue, and its `BLOCK` step with `RX_FIFO` empty, with the notification of R137. -/
def Obligations.PumpIssueAndEmptyPoll : Prop :=
  (∀ s : State, exec .pump s = .next { s with lastError := .none, op := .pump, phase := .start })
  ∧ (∀ s : State, s.op = .pump → s.phase = .start → s.rxFifo = [] →
      blockStep s = .next { s with
        lastError := .noChar
        op := .none
        respCmd := s.respCmd ++
          [[if s.reg.handler = true ∧ s.queue.count ≠ 0 then 0x02 else 0x00, 0x01]] })

/-- R135: `PumpDone` answers a `PUMP` with `[0x01, LAST_ERROR]`, and in a wait extends the deadline. -/
def Obligations.PumpDoneAnswersOrExtends : Prop :=
  ∀ s : State,
    (s.op = .pump →
      pumpDone s = { s with op := .none, respCmd := s.respCmd ++ [[0x01, 0#4 ++ errorCode s.lastError]] })
    ∧ (s.op = .wait ∨ s.op = .tx →
      pumpDone s = { s with phase := .loop, deadline := s.now + BitVec.ofNat 32 s.cfg.val.timeoutMs })

/-- R211: `WAIT_IDLE` and every transmit operation set the deadline at issue; `WAIT_IDLE` then waits in `LOOP`. -/
def Obligations.WaitIssueSetsDeadline : Prop :=
  ∀ s : State,
    exec .waitIdle s = .next { s with
      lastError := .none
      deadline := s.now + BitVec.ofNat 32 s.cfg.val.timeoutMs
      op := .wait
      phase := .loop }
    ∧ ∀ (i : Instr) (t : State),
      (∃ o x, i = .readObj o x) ∨ (∃ o x h l, i = .writeObj o x h l) ∨ (∃ v, i = .writeContrast v)
        ∨ (∃ x us, i = .writeStr x us) ∨ (∃ x us, i = .writeStrU x us)
        ∨ (∃ x us, i = .writeMagicBytes x us) ∨ (∃ x us, i = .writeMagicDbytes x us) →
      exec i s = .next t → t.deadline = s.now + BitVec.ofNat 32 s.cfg.val.timeoutMs

/-- R217 and R105: `RESYNC` flushes the input, clears the queue, the stack, the accumulator and the magic cursor,
answers `[0x00]`, and leaves everything else, `FATAL_COUNT` and the registrations among it. -/
def Obligations.ResyncClearsToBaseline : Prop :=
  ∀ s : State, exec .resync s = .next { s with
    lastError := .none
    rxFifo := []
    queue := { s.queue with rd := 0, wr := 0, count := 0 }
    link := { ls := s.link.ls.set 0 .idle, depth := 1 }
    acc := { s.acc with count := 0, cs := 0 }
    magic := { s.magic with cursor := 0, remain := 0 }
    respCmd := s.respCmd ++ [[0x00]] }

/-- R190, R191, R192: each `SET_*` writes its one registration bit and answers `[0x00]` in its issue step. -/
def Obligations.SetOperationsRegister : Prop :=
  ∀ (s : State) (en : Bool),
    exec (.setHandler en) s = .next { s with
      lastError := .none, reg := { s.reg with handler := en }, respCmd := s.respCmd ++ [[0x00]] }
    ∧ exec (.setBytesSink en) s = .next { s with
      lastError := .none, reg := { s.reg with bsink := en }, respCmd := s.respCmd ++ [[0x00]] }
    ∧ exec (.setDbytesSink en) s = .next { s with
      lastError := .none, reg := { s.reg with dsink := en }, respCmd := s.respCmd ++ [[0x00]] }

/-! ### Transmission -/

/-- R183 with R85 and R182: the issue of each transmit operation latches the frame and the wait state and starts the
pre-wait; nothing is transmitted. -/
def Obligations.TransmitIssueLatchesFrame : Prop :=
  ∀ s : State,
    let c := s.cfg.val.codes
    let latched := fun (f : List Byte) (w : LinkState) =>
      (Host.Outcome.next { s with
        lastError := .none
        tx := { frame := f, push := w }
        deadline := s.now + BitVec.ofNat 32 s.cfg.val.timeoutMs
        op := .tx
        phase := .loop } : Host.Outcome State Fault Refusal)
    (∀ obj idx, exec (.readObj obj idx) s
      = latched [c.readObj, obj, idx, c.readObj ^^^ obj ^^^ idx] .waitReportHeader)
    ∧ (∀ obj idx dh dl, exec (.writeObj obj idx dh dl) s
      = latched [c.writeObj, obj, idx, dh, dl, c.writeObj ^^^ obj ^^^ idx ^^^ dh ^^^ dl] .waitAckOrNak)
    ∧ (∀ val, exec (.writeContrast val) s
      = latched [c.writeContrast, val, c.writeContrast ^^^ val] .waitAckOrNak)
    ∧ (∀ idx us, exec (.writeStr idx us) s
      = latched ([c.writeStr, idx, BitVec.ofNat 8 us.length] ++ us
          ++ [c.writeStr ^^^ idx ^^^ BitVec.ofNat 8 us.length ^^^ us.foldl (· ^^^ ·) 0]) .waitAckOrNak)
    ∧ (∀ idx us, exec (.writeMagicBytes idx us) s
      = latched ([c.writeMagicBytes, idx, BitVec.ofNat 8 us.length] ++ us
          ++ [c.writeMagicBytes ^^^ idx ^^^ BitVec.ofNat 8 us.length ^^^ us.foldl (· ^^^ ·) 0]) .waitAckOrNak)
    ∧ (∀ idx us, exec (.writeStrU idx us) s
      = latched ([c.writeStrU, idx, BitVec.ofNat 8 us.length]
          ++ us.flatMap (fun u => [u.extractLsb' 8 8, u.extractLsb' 0 8])
          ++ [c.writeStrU ^^^ idx ^^^ BitVec.ofNat 8 us.length
              ^^^ (us.flatMap (fun u => [u.extractLsb' 8 8, u.extractLsb' 0 8])).foldl (· ^^^ ·) 0]) .waitAckOrNak)
    ∧ (∀ idx us, exec (.writeMagicDbytes idx us) s
      = latched ([c.writeMagicDbytes, idx, BitVec.ofNat 8 us.length]
          ++ us.flatMap (fun u => [u.extractLsb' 8 8, u.extractLsb' 0 8])
          ++ [c.writeMagicDbytes ^^^ idx ^^^ BitVec.ofNat 8 us.length
              ^^^ (us.flatMap (fun u => [u.extractLsb' 8 8, u.extractLsb' 0 8])).foldl (· ^^^ ·) 0]) .waitAckOrNak)

/-- R181: a transmitted frame is its body and one checksum byte, and the XOR of all its bytes is 0x00. -/
def Obligations.TransmittedFramesXorToZero : Prop :=
  ∀ body : List Byte,
    txFrame body = body ++ [body.foldl (· ^^^ ·) 0] ∧ (txFrame body).foldl (· ^^^ ·) 0 = 0

/-- R186: the end of a transmit operation's wait writes the whole latched frame, pushes the wait state (or resyncs at a
full stack), and answers with the error the operation had. -/
def Obligations.TransmitFinish : Prop :=
  ∀ s : State, LinkInv s → s.op = .tx → s.tx.push = .waitAckOrNak ∨ s.tx.push = .waitReportHeader →
    (s.link.depth.toNat ≠ s.cfg.val.stackDepth →
      finishWait s = { s with
        txLog := s.txLog ++ s.tx.frame
        link := { ls := s.link.ls.set s.link.depth.toNat s.tx.push, depth := s.link.depth + 1 }
        respCmd := s.respCmd ++ [[0#4 ++ errorCode s.lastError]]
        op := .none })
    ∧ (s.link.depth.toNat = s.cfg.val.stackDepth →
      finishWait s = { s with
        txLog := s.txLog ++ s.tx.frame
        rxFifo := []
        queue := { s.queue with rd := 0, wr := 0, count := 0 }
        link := { ls := s.link.ls.set 0 .idle, depth := 1 }
        acc := { s.acc with count := 0, cs := 0 }
        magic := { s.magic with cursor := 0, remain := 0 }
        fatalCount := if s.fatalCount = 0xFF then 0xFF else s.fatalCount + 1
        respCmd := s.respCmd ++ [[0#4 ++ errorCode s.lastError]]
        op := .none })

/-- R219 (c), R275: from a transmit operation's latched state with `TOP = Idle` and room on the stack, the first `BLOCK`
step transmits the whole frame and leaves the link in the wait state, whatever bytes are waiting. -/
def Obligations.TransmitFromIdleLeavesWaitState : Prop :=
  ∀ (s : State) (ts : List Turn), Inv s → s.fault = false → s.script.turns = .block :: ts →
    s.op = .tx → s.phase = .loop → top s = .idle → 2 ≤ s.cfg.val.stackDepth →
      ∃ t, step s = .next t ∧ t.txLog = s.txLog ++ s.tx.frame ∧ top t = s.tx.push ∧ t.link.depth = s.link.depth + 1
        ∧ t.rxFifo = s.rxFifo ∧ t.queue = s.queue ∧ t.lastError = s.lastError ∧ t.op = .none
        ∧ t.respCmd = s.respCmd ++ [[0#4 ++ errorCode s.lastError]]

/-! ### The drain port -/

/-- R166: `DEQUEUE` answers `[0x00]` from an empty queue, else `0x01` and the six bytes of the oldest frame, and writes
only `Q_RD`, `Q_COUNT` and its response. -/
def Obligations.DequeueAnswersOldest : Prop :=
  ∀ s : State, QueueInv s →
    (s.queue.count = 0 → exec .dequeue s = .next { s with respDrain := s.respDrain ++ [[0x00]] })
    ∧ (s.queue.count ≠ 0 → exec .dequeue s = .next { s with
        queue := { s.queue with rd := (s.queue.rd + 1) % s.cfg.val.qCap, count := s.queue.count - 1 }
        respDrain := s.respDrain ++
          [let f := s.queue.buf.getD s.queue.rd Frame.zero
           [0x01, f.cmd, f.obj, f.idx, f.dataHi, f.dataLo, f.csum]] })

/-- R168 with R20, R30 and R33: `READ_STATUS` answers six bytes with every field of the table at its bits, and writes
nothing else. -/
def Obligations.ReadStatusFields : Prop :=
  ∀ s : State, LinkInv s → ∃ s0 s1 s2 s3 s4 s5 : Byte,
    exec .readStatus s = .next { s with respDrain := s.respDrain ++ [[s0, s1, s2, s3, s4, s5]] }
    ∧ (s0.extractLsb' 0 3).toNat =
        (match s.link.ls.getD (s.link.depth.toNat - 1) .shutdown with
          | .idle => 0
          | .waitAckOrNak => 1
          | .waitReportHeader => 2
          | .receivingReport => 3
          | .receivingEvent => 4
          | .receivingMagicBytes => 5
          | .receivingMagicDoubleBytes => 6
          | .shutdown => 7)
    ∧ (s0.getLsbD 3 = true ↔ s.op ≠ .none) ∧ s0.extractLsb' 4 4 = 0
    ∧ s1 = s.link.depth ∧ s2 = s.queue.count
    ∧ (s3.extractLsb' 0 4).toNat =
        (match s.lastError with
          | .none => 0
          | .noChar => 1
          | .badChecksum => 2
          | .nak => 3
          | .timeout => 4
          | .queueOverflow => 5
          | .noHandler => 6
          | .framing => 7)
    ∧ s3.extractLsb' 4 4 = 0
    ∧ s4.getLsbD 0 = s.reg.handler ∧ s4.getLsbD 1 = s.reg.bsink ∧ s4.getLsbD 2 = s.reg.dsink
    ∧ (s4.getLsbD 3 = true ↔ s.cfg.val.fatalThreshold ≤ s.fatalCount.toNat)
    ∧ s4.getLsbD 4 = s.fault ∧ s4.extractLsb' 5 3 = 0
    ∧ s5 = s.fatalCount

/-- R76, R31, R59: whatever a drain command is, its step writes only the queue, the drain log and its own input. -/
def Obligations.DrainPortFrame : Prop :=
  ∀ (s t : State) (ts : List Turn), s.script.turns = .hostDrain :: ts → step s = .next t →
    ∃ q r d, t = { s with
      queue := q, respDrain := r, script := { s.script with turns := ts, drainIn := d } }
      ∧ q.buf = s.queue.buf ∧ q.wr = s.queue.wr

/-! ### The link-state stack and the lead classes -/

/-- R121 (and R106 on overflow): an event lead is pushed and accumulated as frame byte 0; at a full stack the block
resyncs and the byte is dropped. -/
def Obligations.EventLeadPushes : Prop :=
  ∀ s : State, LinkInv s →
    (s.link.depth.toNat ≠ s.cfg.val.stackDepth →
      exec .rxReportEventLead s = .next { s with
        link := { ls := s.link.ls.set s.link.depth.toNat .receivingEvent, depth := s.link.depth + 1 }
        acc := { buf := { s.acc.buf with cmd := s.cfg.val.codes.reportEvent }
                 count := 1
                 cs := s.cfg.val.codes.reportEvent } })
    ∧ (s.link.depth.toNat = s.cfg.val.stackDepth →
      exec .rxReportEventLead s = .next { s with
        rxFifo := []
        queue := { s.queue with rd := 0, wr := 0, count := 0 }
        link := { ls := s.link.ls.set 0 .idle, depth := 1 }
        acc := { s.acc with count := 0, cs := 0 }
        magic := { s.magic with cursor := 0, remain := 0 }
        fatalCount := if s.fatalCount = 0xFF then 0xFF else s.fatalCount + 1 })

/-- R122: a magic lead resets the cursor and pushes its magic state; at a full stack the block resyncs. -/
def Obligations.MagicLeadPushes : Prop :=
  ∀ s : State, LinkInv s →
    (s.link.depth.toNat ≠ s.cfg.val.stackDepth →
      exec .rxMagicBytesLead s = .next { s with
        link := { ls := s.link.ls.set s.link.depth.toNat .receivingMagicBytes, depth := s.link.depth + 1 }
        magic := { s.magic with cursor := 0 } }
      ∧ exec .rxMagicDbytesLead s = .next { s with
        link := { ls := s.link.ls.set s.link.depth.toNat .receivingMagicDoubleBytes, depth := s.link.depth + 1 }
        magic := { s.magic with cursor := 0 } })
    ∧ (s.link.depth.toNat = s.cfg.val.stackDepth →
      ∀ i : Instr, i = .rxMagicBytesLead ∨ i = .rxMagicDbytesLead →
      exec i s = .next { s with
        rxFifo := []
        queue := { s.queue with rd := 0, wr := 0, count := 0 }
        link := { ls := s.link.ls.set 0 .idle, depth := 1 }
        acc := { s.acc with count := 0, cs := 0 }
        magic := { s.magic with cursor := 0, remain := 0 }
        fatalCount := if s.fatalCount = 0xFF then 0xFF else s.fatalCount + 1 })

/-- R100: `Push(w)` with room makes `w` the active state, leaves every state below it, and resets the accumulator's
count and checksum for `ReceivingEvent` alone; at a full stack it resyncs (R105), counts a fatal event and pushes
nothing. -/
def Obligations.PushMakesTopOrResyncs : Prop :=
  ∀ (s : State) (w : LinkState), LinkInv s →
    (s.link.depth.toNat < s.cfg.val.stackDepth →
      ∃ l a, push w s = (true, { s with link := l, acc := a })
        ∧ top { s with link := l } = w ∧ l.depth.toNat = s.link.depth.toNat + 1
        ∧ (∀ i, i < s.link.depth.toNat → l.ls.getD i .shutdown = s.link.ls.getD i .shutdown)
        ∧ a = if w = .receivingEvent then { s.acc with count := 0, cs := 0 } else s.acc)
    ∧ (s.link.depth.toNat = s.cfg.val.stackDepth →
      ∃ l n, push w s = (false, { s with
          rxFifo := []
          queue := { s.queue with rd := 0, wr := 0, count := 0 }
          link := l
          acc := { s.acc with count := 0, cs := 0 }
          magic := { s.magic with cursor := 0, remain := 0 }
          fatalCount := n })
        ∧ top { s with link := l } = .idle ∧ l.depth = 1
        ∧ n.toNat = min (s.fatalCount.toNat + 1) 255)

/-- R101 with R107: popping what a push put on the stack makes the suspended state active again, and the baseline is
never removed. -/
def Obligations.PopResumesSuspendedState : Prop :=
  (∀ (s : State) (w : LinkState), LinkInv s → s.link.depth.toNat < s.cfg.val.stackDepth →
    top (pop (push w s).2) = top s ∧ (pop (push w s).2).link.depth = s.link.depth)
  ∧ (∀ s : State, s.link.depth.toNat ≤ 1 → pop s = s)
  ∧ (∀ s : State, 1 < s.link.depth.toNat →
      pop s = { s with link := { s.link with depth := s.link.depth - 1 } })

/-- R123 with R101: ACK pops; NAK pops and records `NAK`; at the baseline nothing is popped. -/
def Obligations.AckAndNakPop : Prop :=
  ∀ s : State,
    let l : LinkStack :=
      if 1 < s.link.depth.toNat then { s.link with depth := s.link.depth - 1 } else s.link
    exec .rxAck s = .next { s with link := l }
    ∧ exec .rxNak s = .next { s with link := l, lastError := .nak }

/-- R124, R103: a report-object lead replaces the active wait state and is accumulated as frame byte 0. -/
def Obligations.ReportLeadReplacesTop : Prop :=
  ∀ s : State, LinkInv s → exec .rxReportObjLead s = .next { s with
    link := { s.link with ls := s.link.ls.set (s.link.depth.toNat - 1) .receivingReport }
    acc := { buf := { s.acc.buf with cmd := s.cfg.val.codes.reportObj }
             count := 1
             cs := s.cfg.val.codes.reportObj } }

/-- R125: a framing error records `FRAMING`, counts once, and discards the byte; nothing else changes. -/
def Obligations.FramingErrorCounts : Prop :=
  ∀ (s : State) (b : Byte), exec (.rxFramingError b) s = .next { s with
    lastError := .framing
    fatalCount := if s.fatalCount = 0xFF then 0xFF else s.fatalCount + 1 }

/-! ### The accumulator and the checksum -/

/-- R126: a frame byte before the sixth is stored at `RX_COUNT` and folded into `RX_CS`; a byte at a full accumulator
raises `STALE_ACCUMULATOR` and leaves every other register. -/
def Obligations.FrameByteAccumulates : Prop :=
  ∀ (s : State) (b : Byte),
    (s.acc.count.val < 5 → ∃ f : Frame,
      exec (.rxFrameByte b) s = .next { s with
        acc := { buf := f, count := s.acc.count + 1, cs := s.acc.cs ^^^ b } }
      ∧ (s.acc.count + 1).val = s.acc.count.val + 1
      ∧ [f.cmd, f.obj, f.idx, f.dataHi, f.dataLo, f.csum]
          = [s.acc.buf.cmd, s.acc.buf.obj, s.acc.buf.idx, s.acc.buf.dataHi, s.acc.buf.dataLo, s.acc.buf.csum].set
              s.acc.count.val b)
    ∧ (s.acc.count.val = 6 →
      exec (.rxFrameByte b) s = .next { s with fault := true, faultKind := .staleAccumulator })

/-- R127: the sixth byte. A frame whose XOR is zero is enqueued and its state popped; a bad one records `BAD_CHECKSUM`,
enqueues nothing, and does to accumulator and stack what `BAD_CS_POLICY` says. -/
def Obligations.SixthByteChecksFrame : Prop :=
  ∀ (s : State) (b : Byte), s.acc.count.val = 5 →
    let t := { s with acc := { buf := { s.acc.buf with csum := b }, count := 6, cs := s.acc.cs ^^^ b } }
    let u := { t with lastError := .badChecksum }
    let v := { u with acc := { t.acc with count := 0, cs := 0 } }
    (s.acc.cs = b → exec (.rxFrameByte b) s = .next (pop (enqueue { s.acc.buf with csum := b } t)))
    ∧ (s.acc.cs ≠ b →
      (s.cfg.val.badCsPolicy = .restart → exec (.rxFrameByte b) s = .next v)
      ∧ (s.cfg.val.badCsPolicy = .restartPop → exec (.rxFrameByte b) s = .next (pop v))
      ∧ (s.cfg.val.badCsPolicy = .staleFault → exec (.rxFrameByte b) s = .next u))

/-- R128: an error pattern on a valid frame goes unnoticed exactly when its own XOR is zero, so a frame with one bit
flipped is never accepted and two flips of one bit position in different bytes always are. -/
def Obligations.ChecksumDetectsOddFlips : Prop :=
  (∀ f e : Frame, frameValid f = true →
    (frameValid ⟨f.cmd ^^^ e.cmd, f.obj ^^^ e.obj, f.idx ^^^ e.idx, f.dataHi ^^^ e.dataHi, f.dataLo ^^^ e.dataLo,
        f.csum ^^^ e.csum⟩ = true
      ↔ e.cmd ^^^ e.obj ^^^ e.idx ^^^ e.dataHi ^^^ e.dataLo ^^^ e.csum = 0))
  ∧ (∀ f : Frame, frameValid f = true ↔ f.csum = f.cmd ^^^ f.obj ^^^ f.idx ^^^ f.dataHi ^^^ f.dataLo)
  ∧ (∀ f : Frame, frameValue f = BitVec.ofNat 16 (f.dataHi.toNat * 256 + f.dataLo.toNat))

/-- R138. (a) Six bytes led by `REPORT_EVENT`, dispatched from a state that classifies with room on the stack, perform
exactly one `Enqueue` of those bytes and leave `TOP` as it was if their XOR is zero; (b) otherwise they enqueue nothing
and leave `BAD_CHECKSUM`; (c) in `WaitReportHeader` a valid reply is enqueued and the state below resumes. -/
def Obligations.SixByteFramesDelivered : Prop :=
  ∀ (s : State) (x1 x2 x3 x4 x5 : Byte), Inv s → s.fault = false →
    let e := s.cfg.val.codes.reportEvent
    let r := s.cfg.val.codes.reportObj
    (top s = .idle ∨ top s = .waitAckOrNak ∨ top s = .waitReportHeader →
      s.link.depth.toNat < s.cfg.val.stackDepth →
      ∃ t, dispatchAll [e, x1, x2, x3, x4, x5] s = .next t ∧ t.fault = false
        ∧ (e ^^^ x1 ^^^ x2 ^^^ x3 ^^^ x4 ^^^ x5 = 0 →
            top t = top s ∧ t.link.depth = s.link.depth
            ∧ t.queue = (enqueue ⟨e, x1, x2, x3, x4, x5⟩ s).queue
            ∧ t.lastError = (enqueue ⟨e, x1, x2, x3, x4, x5⟩ s).lastError)
        ∧ (e ^^^ x1 ^^^ x2 ^^^ x3 ^^^ x4 ^^^ x5 ≠ 0 →
            t.queue = s.queue ∧ t.lastError = .badChecksum))
    ∧ (top s = .waitReportHeader → r ^^^ x1 ^^^ x2 ^^^ x3 ^^^ x4 ^^^ x5 = 0 →
      ∃ t, dispatchAll [r, x1, x2, x3, x4, x5] s = .next t ∧ t.fault = false
        ∧ t.link.depth = s.link.depth - 1
        ∧ top t = s.link.ls.getD (s.link.depth.toNat - 2) .shutdown
        ∧ t.queue = (enqueue ⟨r, x1, x2, x3, x4, x5⟩ s).queue
        ∧ t.lastError = (enqueue ⟨r, x1, x2, x3, x4, x5⟩ s).lastError)

/-! ### The event queue -/

/-- R160, R161, R163: the circular buffer refines the list of its live entries. At `Q_CAP - 2` entries a frame is
rejected with `QUEUE_OVERFLOW`, coalescing or not; else it updates bytes 3 and 4 of the one live entry with its identity
in place; else it is appended at the end. -/
def Obligations.EnqueueRefinesList : Prop :=
  ∀ (s : State) (f : Frame), QueueInv s →
    (s.queue.count.toNat = s.cfg.val.qCap - 2 → enqueue f s = { s with lastError := .queueOverflow })
    ∧ (s.queue.count.toNat < s.cfg.val.qCap - 2 →
      enqueue f s = { s with queue := (enqueue f s).queue }
      ∧ (∀ k, k < (liveEntries s).length → sameIdentity ((liveEntries s).getD k Frame.zero) f = true →
          liveEntries (enqueue f s) = (liveEntries s).set k
            { (liveEntries s).getD k Frame.zero with dataHi := f.dataHi, dataLo := f.dataLo })
      ∧ ((∀ g ∈ liveEntries s, sameIdentity g f = false) → liveEntries (enqueue f s) = liveEntries s ++ [f]))

/-- R164, R166: `DEQUEUE` answers with the head of the list of live entries and leaves its tail. -/
def Obligations.DequeueRefinesList : Prop :=
  ∀ (s : State) (f : Frame) (fs : List Frame), QueueInv s → liveEntries s = f :: fs →
    ∃ t, exec .dequeue s = .next t ∧ liveEntries t = fs
      ∧ t.respDrain = s.respDrain ++ [[0x01, f.cmd, f.obj, f.idx, f.dataHi, f.dataLo, f.csum]]

/-! ### The magic sub-protocol -/

/-- R130: the three header bytes populate command, index and length in order; a fourth at a complete header raises
`STALE_MAGIC_CURSOR`. -/
def Obligations.MagicHeaderBytes : Prop :=
  ∀ (s : State) (b : Byte),
    (s.magic.cursor = 0 →
      exec (.rxMagicHeaderByte b) s = .next { s with magic := { s.magic with cmd := b, cursor := 1 } })
    ∧ (s.magic.cursor = 1 →
      exec (.rxMagicHeaderByte b) s = .next { s with magic := { s.magic with idx := b, cursor := 2 } })
    ∧ (s.magic.cursor = 2 →
      exec (.rxMagicHeaderByte b) s
        = .next (magicDispatch { s with magic := { s.magic with len := b, cursor := 3 } }))
    ∧ (s.magic.cursor = 3 →
      exec (.rxMagicHeaderByte b) s = .next { s with fault := true, faultKind := .staleMagicCursor })

/-- R131: with the sink of the report's unit width registered the header is handed off; without it the block discards
`length - 1` units itself, of one or two bytes, and goes straight to the checksum when there are none. -/
def Obligations.MagicDispatchHandsOffOrDiscards : Prop :=
  ∀ s : State,
    (top s = .receivingMagicBytes → s.reg.bsink = true →
      magicDispatch s = { s with
        sink := { kind := .bytes, index := s.magic.idx, length := s.magic.len, done := false }, phase := .mgSink })
    ∧ (top s = .receivingMagicDoubleBytes → s.reg.dsink = true →
      magicDispatch s = { s with
        sink := { kind := .dbytes, index := s.magic.idx, length := s.magic.len, done := false }, phase := .mgSink })
    ∧ (top s = .receivingMagicBytes ∧ s.reg.bsink = false ∨ top s = .receivingMagicDoubleBytes ∧ s.reg.dsink = false →
      ∃ r : BitVec 16,
        r.toNat = (if top s = .receivingMagicBytes then 1 else 2) * (s.magic.len.toNat - 1)
        ∧ magicDispatch s = { s with
            magic := { s.magic with remain := r }
            phase := if r.toNat = 0 then .mgCsum else .mgDiscard })

/-- R132, R133, R134: the magic phases. Each holds until its agent acts; the sink's end and the discarded bytes lead to
the checksum, whose byte is dropped unread before the magic state is popped and the pump is done. -/
def Obligations.MagicPhasesAdvance : Prop :=
  ∀ s : State, s.op ≠ .none →
    (s.phase = .mgSink → s.sink.done = false → blockStep s = .next s)
    ∧ (s.phase = .mgSink → s.sink.done = true →
      blockStep s = .next { s with sink := { s.sink with done := false }, phase := .mgCsum })
    ∧ (s.phase = .mgDiscard ∨ s.phase = .mgCsum → s.rxFifo = [] → blockStep s = .next s)
    ∧ (∀ b r, s.phase = .mgDiscard → s.rxFifo = b :: r →
      blockStep s = .next { s with
        rxFifo := r
        magic := { s.magic with remain := s.magic.remain - 1 }
        phase := if s.magic.remain = 1 then .mgCsum else .mgDiscard })
    ∧ (∀ b r, s.phase = .mgCsum → s.rxFifo = b :: r →
      blockStep s = .next (pumpDone (pop { s with rxFifo := r })))

/-- R133 over a whole discard: with `MG_REMAIN = n > 0` and at least `n` bytes waiting, `n` block steps drop exactly
those `n` bytes and reach the checksum phase, changing nothing else. -/
def Obligations.DiscardDropsExactlyRemaining : Prop :=
  ∀ (n : Nat) (s : State), s.fault = false → s.op ≠ .none → s.phase = .mgDiscard →
    s.magic.remain.toNat = n → 0 < n → n ≤ s.rxFifo.length → s.script.turns = [] →
      Host.Core.run core n s = .next { s with
        rxFifo := s.rxFifo.drop n
        magic := { s.magic with remain := 0 }
        phase := .mgCsum }

/-! ### The supervisor -/

/-- R213: with the deadline just set, `Elapsed` first becomes true after exactly `TIMEOUT_MS` clock steps, across the
wrap of `NOW`; it stays true for 2^31 values of `NOW`, and is false again at the next. -/
def Obligations.ElapsedAfterTimeout : Prop :=
  ∀ s : State, s.deadline = s.now + BitVec.ofNat 32 s.cfg.val.timeoutMs →
    (∀ k, k < s.cfg.val.timeoutMs → elapsed { s with now := s.now + BitVec.ofNat 32 k } = false)
    ∧ (∀ k, k < 2 ^ 31 → elapsed { s with now := s.now + BitVec.ofNat 32 (s.cfg.val.timeoutMs + k) } = true)
    ∧ elapsed { s with now := s.now + BitVec.ofNat 32 (s.cfg.val.timeoutMs + 2 ^ 31) } = false

/-- R214, R215: the cases of a loop step in their order: `Idle` ends the wait before any byte is read, a waiting byte is
pumped before the clock is tested, an elapsed deadline records `TIMEOUT` and ends the wait, else the block holds. -/
def Obligations.LoopStepPriority : Prop :=
  ∀ s : State, s.op = .wait ∨ s.op = .tx → s.phase = .loop →
    (top s = .idle → blockStep s = .next (finishWait s))
    ∧ (top s ≠ .idle → ∀ b r, s.rxFifo = b :: r → blockStep s = consumeByte b r s)
    ∧ (top s ≠ .idle → s.rxFifo = [] → elapsed s = true →
        blockStep s = .next (finishWait { s with lastError := .timeout }))
    ∧ (top s ≠ .idle → s.rxFifo = [] → elapsed s = false → blockStep s = .next s)
    ∧ (s.op = .wait → finishWait s = { s with
        respCmd := s.respCmd ++ [[0#4 ++ errorCode s.lastError]], op := .none })

/-- R219 (a): a `WAIT_IDLE` issued at `Idle` completes at the next `BLOCK` step with `[0x00]`, whatever waits in
`RX_FIFO`, and the two steps change nothing but the operation's own registers and response. -/
def Obligations.WaitAtIdleReturnsAtOnce : Prop :=
  ∀ (s : State) (ts : List Turn) (cs : List (List Byte)),
    s.fault = false → s.op = .none → top s = .idle →
    s.script.turns = .hostCmd :: .block :: ts → s.script.cmdIn = [0x02] :: cs →
      Host.Core.run core 2 s = .next { s with
        lastError := .none
        deadline := s.now + BitVec.ofNat 32 s.cfg.val.timeoutMs
        phase := .loop
        respCmd := s.respCmd ++ [[0x00]]
        script := { s.script with turns := ts, cmdIn := cs } }

/-- R219 (b), R216: a wait not at `Idle` during which no byte arrives and the clock steps `TIMEOUT_MS` times, with the
block scheduled before and after each, answers `[0x04]` and leaves the stack, the accumulator, the magic registers and the
queue as they were. The turns are the model's (log entry 1). -/
def Obligations.WaitTimesOut : Prop :=
  ∀ (s : State) (ts : List Turn),
    s.fault = false → s.op = .wait → s.phase = .loop → top s ≠ .idle → s.rxFifo = [] →
    s.deadline = s.now + BitVec.ofNat 32 s.cfg.val.timeoutMs →
    s.script.turns = .block :: (List.replicate s.cfg.val.timeoutMs [Turn.clock, .block]).flatten ++ ts →
      Host.Core.run core (2 * s.cfg.val.timeoutMs + 1) s = .next { s with
        now := s.deadline
        lastError := .timeout
        respCmd := s.respCmd ++ [[0x04]]
        op := .none
        script := { s.script with turns := ts } }

/-! ### Rules of the whole machine -/

/-- R36: a faulted state is final; that `step` answers the fault `stopped` in it is the model's form (log entry 12). That
in every other state the turn answers a next state is the model's choice too: an agent with no enabled step uses its turn up
(log entry 2). -/
def Obligations.FaultIsFinal : Prop :=
  ∀ s : State, (s.fault = true → step s = .fault (.stopped s.faultKind))
    ∧ (s.fault = false → ∃ t, step s = .next t)

/-- R235 with R126, R129 and R130: a step raises a fault only by dispatching a byte the spec gives no meaning: the byte
stays taken, no response is written, `OP` stays, and `FAULT` and `FAULT_KIND` are all that changes besides. -/
def Obligations.FaultRaisedOnlyByStaleDispatch : Prop :=
  ∀ s t : State, step s = .next t → t.fault = true →
    (nextTurn s).1 = .block ∧ ∃ (b : Byte) (r : List Byte) (k : FaultKind),
      s.rxFifo = b :: r
      ∧ t = { (nextTurn s).2 with rxFifo := r, fault := true, faultKind := k }
      ∧ ((k = .staleAccumulator ∧ s.acc.count = 6 ∧ (top s = .receivingReport ∨ top s = .receivingEvent))
        ∨ (k = .staleMagicCursor ∧ s.magic.cursor = 3
            ∧ (top s = .receivingMagicBytes ∨ top s = .receivingMagicDoubleBytes))
        ∨ (k = .shutdownState ∧ top s = .shutdown))

/-- R129, R34: a pump that finds a byte with `TOP = Shutdown` takes the byte and raises `SHUTDOWN_STATE`; nothing else
changes. -/
def Obligations.ShutdownDispatchFaults : Prop :=
  ∀ (s : State) (ts : List Turn) (b : Byte) (rest : List Byte),
    s.fault = false → s.script.turns = .block :: ts → s.rxFifo = b :: rest → top s = .shutdown →
    (s.op = .pump ∧ s.phase = .start) ∨ ((s.op = .wait ∨ s.op = .tx) ∧ s.phase = .loop) →
      step s = .next { s with
        rxFifo := rest
        fault := true
        faultKind := .shutdownState
        script := { s.script with turns := ts } }

/-- R6, R40, R44, R75, R218: an agent with no enabled step changes nothing, and only its turn is used up. `BLOCK` with no
enabled condition holds; the command port accepts nothing while an operation is in progress, so the host's command waits; a
port with no command presented and a peer with no byte to append do nothing; the sink has no step outside `MG_SINK` or once
it is done, and no sink-read with `RX_FIFO` empty. That a turn can go to an agent with no step is the model's choice (log
entry 2), and so is the pending input (log entry 3). -/
def Obligations.DisabledAgentsChangeNothing : Prop :=
  ∀ s : State, s.fault = false →
    ((nextTurn s).1 = .block ∧ blockEnabled s = false)
    ∨ ((nextTurn s).1 = .hostCmd ∧ (s.op ≠ .none ∨ s.script.cmdIn = []))
    ∨ ((nextTurn s).1 = .hostDrain ∧ s.script.drainIn = [])
    ∨ ((nextTurn s).1 = .peer ∧ s.script.peerIn = [])
    ∨ ((nextTurn s).1 = .sinkRead ∧ (s.phase ≠ .mgSink ∨ s.sink.done = true ∨ s.rxFifo = []))
    ∨ ((nextTurn s).1 = .sinkDone ∧ (s.phase ≠ .mgSink ∨ s.sink.done = true)) →
      step s = .next (nextTurn s).2 ∧ (nextTurn s).2 = { s with script := { s.script with turns := s.script.turns.tail } }

/-- R40, R42, R44: the steps of the environment's agents; the turns and the pending bytes are the model's (log entries 1 to
3). -/
def Obligations.EnvironmentSteps : Prop :=
  ∀ (s : State) (ts : List Turn), s.fault = false →
    (s.script.turns = .clock :: ts →
      step s = .next { s with now := s.now + 1, script := { s.script with turns := ts } })
    ∧ (∀ b bs, s.script.turns = .peer :: ts → s.script.peerIn = b :: bs →
      step s = .next { s with
        rxFifo := s.rxFifo ++ [b], script := { s.script with turns := ts, peerIn := bs } })
    ∧ (∀ b r, s.script.turns = .sinkRead :: ts → s.phase = .mgSink → s.sink.done = false → s.rxFifo = b :: r →
      step s = .next { s with
        rxFifo := r, sinkData := s.sinkData ++ [b], script := { s.script with turns := ts } })
    ∧ (s.script.turns = .sinkDone :: ts → s.phase = .mgSink → s.sink.done = false →
      step s = .next { s with sink := { s.sink with done := true }, script := { s.script with turns := ts } })
    ∧ (s.script.turns = .sinkRead :: ts ∨ s.script.turns = .sinkDone :: ts →
        s.phase ≠ .mgSink ∨ s.sink.done = true →
      step s = .next { s with script := { s.script with turns := ts } })

/-- R40, R59 (d): no byte is lost or reordered: a step leaves `RX_FIFO`, takes its oldest byte, appends the peer's byte,
or flushes it whole in a resync, and only the clock's turn advances `NOW`. -/
def Obligations.InputLeavesInOrder : Prop :=
  ∀ s t : State, step s = .next t →
    (t.rxFifo = s.rxFifo
      ∨ (∃ b, s.rxFifo = b :: t.rxFifo ∧ ((nextTurn s).1 = .block ∨ (nextTurn s).1 = .sinkRead))
      ∨ (∃ b, t.rxFifo = s.rxFifo ++ [b] ∧ (nextTurn s).1 = .peer)
      ∨ (t.rxFifo = [] ∧ t.link.depth = 1 ∧ t.queue.count = 0
          ∧ ((nextTurn s).1 = .block ∨ (nextTurn s).1 = .hostCmd)))
    ∧ (t.now = if (nextTurn s).1 = .clock then s.now + 1 else s.now)

/-- R41, R56, R59 (c): `TX_LOG` grows only by one whole latched frame, in the `BLOCK` step that completes its transmit
operation. -/
def Obligations.FramesAreSentWhole : Prop :=
  ∀ s t : State, step s = .next t →
    t.txLog = s.txLog
    ∨ (t.txLog = s.txLog ++ s.tx.frame ∧ (nextTurn s).1 = .block ∧ s.op = .tx ∧ s.phase = .loop ∧ t.op = .none)

/-- R77: an operation ends with exactly one response: a step of a busy block either writes none and keeps `OP`, or writes
one and frees the port; an idle port that becomes busy has written none; the log never loses an entry. -/
def Obligations.OneResponsePerOperation : Prop :=
  ∀ s t : State, step s = .next t →
    (s.op ≠ .none → (t.respCmd = s.respCmd ∧ t.op = s.op) ∨ (∃ r, t.respCmd = s.respCmd ++ [r] ∧ t.op = .none))
    ∧ (s.op = .none → (t.respCmd = s.respCmd) ∨ (∃ r, t.respCmd = s.respCmd ++ [r] ∧ t.op = .none))
    ∧ (t.respDrain = s.respDrain ∨ (∃ r, t.respDrain = s.respDrain ++ [r] ∧ (nextTurn s).1 = .hostDrain))

/-- R32, R234: `FATAL_COUNT` is written only by a framing error and by an overflow resync, each adding one and
saturating. -/
def Obligations.FatalCountCauses : Prop :=
  ∀ s t : State, step s = .next t → t.fatalCount ≠ s.fatalCount →
    t.fatalCount.toNat = s.fatalCount.toNat + 1 ∧ (nextTurn s).1 = .block
    ∧ (t.lastError = .framing
      ∨ (s.link.depth.toNat = s.cfg.val.stackDepth ∧ t.link.depth = 1 ∧ t.queue.count = 0 ∧ t.rxFifo = []))

/-- R231, R236: each error kind is recorded only by its cause, and the reserved kind by none. -/
def Obligations.ErrorKindCauses : Prop :=
  ∀ s t : State, step s = .next t → t.lastError ≠ s.lastError →
    (t.lastError = .none → (nextTurn s).1 = .hostCmd)
    ∧ (t.lastError ≠ .none → (nextTurn s).1 = .block)
    ∧ (t.lastError = .noChar → s.op = .pump ∧ s.phase = .start ∧ s.rxFifo = [])
    ∧ (t.lastError = .badChecksum →
        (top s = .receivingReport ∨ top s = .receivingEvent) ∧ s.acc.count = 5
        ∧ ∃ b r, s.rxFifo = b :: r ∧ s.acc.cs ^^^ b ≠ 0)
    ∧ (t.lastError = .nak → top s = .waitAckOrNak ∧ ∃ r, s.rxFifo = s.cfg.val.codes.nak :: r)
    ∧ (t.lastError = .timeout →
        (s.op = .wait ∨ s.op = .tx) ∧ s.phase = .loop ∧ top s ≠ .idle ∧ s.rxFifo = [] ∧ elapsed s = true)
    ∧ (t.lastError = .queueOverflow →
        (top s = .receivingReport ∨ top s = .receivingEvent) ∧ s.acc.count = 5
        ∧ s.queue.count.toNat = s.cfg.val.qCap - 2)
    ∧ t.lastError ≠ .noHandler
    ∧ (t.lastError = .framing →
        (top s = .idle ∨ top s = .waitAckOrNak ∨ top s = .waitReportHeader)
        ∧ ∃ b r, s.rxFifo = b :: r ∧ b ∉ s.cfg.val.codes.acceptedIn (top s))

/-- R29: the registrations are written only by a legal `SET_*` command that the command port takes. -/
def Obligations.RegistrationsWrittenBySetOnly : Prop :=
  ∀ s t : State, step s = .next t → t.reg ≠ s.reg →
    (nextTurn s).1 = .hostCmd ∧ s.op = .none ∧ ∃ (op : Byte) (en : Byte) (cs : List (List Byte)),
      s.script.cmdIn = [op, en] :: cs ∧ op ∈ ([0x04, 0x05, 0x06] : List Byte)
      ∧ t.reg = { handler := if op = 0x04 then decide (en = 0x01) else s.reg.handler
                  bsink := if op = 0x05 then decide (en = 0x01) else s.reg.bsink
                  dsink := if op = 0x06 then decide (en = 0x01) else s.reg.dsink }

/-- R22, R34 along every run: from reset, with any configuration, clock and input, `Shutdown` is never on the stack, so
`SHUTDOWN_STATE` is never raised, and the queue never holds more than `Q_CAP - 2` frames. -/
def Obligations.ReachableStatesAreSafe : Prop :=
  ∀ s : State, Reachable s →
    top s ≠ .shutdown ∧ s.faultKind ≠ .shutdownState ∧ s.lastError ≠ .noHandler
    ∧ s.queue.count.toNat ≤ s.cfg.val.qCap - 2 ∧ 1 ≤ s.link.depth.toNat
    ∧ s.link.depth.toNat ≤ s.cfg.val.stackDepth

/-- R130, I22: `MG_CMD` "is stored but no rule reads it": two states that differ in it alone step to states that differ
in it alone, and give every response, transmitted byte and fault alike. -/
def Obligations.MagicCommandByteIsNeverRead : Prop :=
  ∀ (s t : State) (x : Byte), step s = .next t →
    ∃ y : Byte, step { s with magic := { s.magic with cmd := x } } = .next { t with magic := { t.magic with cmd := y } }

/-! ### The assembler -/

/-- R87, R88: the spec's assembler examples, and the expansion of `WRITE_OBJ16` for every 16-bit value. -/
def Obligations.AssemblerExamples : Prop :=
  assembleLine "WRITE_OBJ 3, 1, 0x01, 0xF4".toList = .ok (.writeObj 3 1 0x01 0xF4)
  ∧ assembleLine "WRITE_STR 2, [0x48, 0x69]".toList = .ok (.writeStr 2 [0x48, 0x69])
  ∧ assembleLine "SET_HANDLER on".toList = .ok (.setHandler true)
  ∧ (∀ (c : Codes) (obj idx : Byte) (v : Nat), v < 65536 →
      encode c (expandWriteObj16 obj idx (BitVec.ofNat 16 v))
        = [0x11, obj, idx, BitVec.ofNat 8 (v / 256), BitVec.ofNat 8 (v % 256)])

/-- R88, R164, R166: `DRAIN` returns every live frame in the order its identity was first appended, then `[0x00]`, and
leaves the queue empty; in a faulted state no `DEQUEUE` has a step (R36, R76; that the loop then answers the fault `stopped`
is the model's form, log entry 12). That no other agent has a turn between the `DEQUEUE`s and that the loop has a bound are
the model's choices (log entry 18); `Q_COUNT + 1` turns are enough. -/
def Obligations.DrainReturnsLiveEntriesInOrder : Prop :=
  ∀ s : State, QueueInv s →
    (s.fault = false →
      ∃ t, drainLoop (s.queue.count.toNat + 1) s = .next t ∧ liveEntries t = []
        ∧ t.respDrain = s.respDrain ++ (liveEntries s).map (fun f => 0x01 :: frameBytes f) ++ [[0x00]])
    ∧ (s.fault = true → drainLoop (s.queue.count.toNat + 1) s = .fault (.stopped s.faultKind))
end

