-- ==== Sys2Proof/Laws/State.lean ====
section
/-! SUPPORT. What each named update writes and what it leaves, field by field: true by rfl, and simp lemmas, so that no
proof unfolds a record update. -/

namespace Sys2Proof.Machine

@[simp] theorem setError_fields (k : ErrorKind) (s : State) :
    (setError k s).cfg = s.cfg
    ∧ (setError k s).link = s.link
    ∧ (setError k s).acc = s.acc
    ∧ (setError k s).magic = s.magic
    ∧ (setError k s).sink = s.sink
    ∧ (setError k s).queue = s.queue
    ∧ (setError k s).lastError = k
    ∧ (setError k s).fatalCount = s.fatalCount
    ∧ (setError k s).fault = s.fault
    ∧ (setError k s).faultKind = s.faultKind
    ∧ (setError k s).reg = s.reg
    ∧ (setError k s).deadline = s.deadline
    ∧ (setError k s).op = s.op
    ∧ (setError k s).phase = s.phase
    ∧ (setError k s).tx = s.tx
    ∧ (setError k s).rxFifo = s.rxFifo
    ∧ (setError k s).txLog = s.txLog
    ∧ (setError k s).respCmd = s.respCmd
    ∧ (setError k s).respDrain = s.respDrain
    ∧ (setError k s).sinkData = s.sinkData
    ∧ (setError k s).now = s.now
    ∧ (setError k s).script = s.script := by
  refine ⟨rfl, rfl, rfl, rfl, rfl, rfl, rfl, rfl, rfl, rfl, rfl, rfl, rfl, rfl, rfl, rfl, rfl, rfl, rfl, rfl, rfl, rfl⟩

@[simp] theorem countFatal_fields (s : State) :
    (countFatal s).cfg = s.cfg
    ∧ (countFatal s).link = s.link
    ∧ (countFatal s).acc = s.acc
    ∧ (countFatal s).magic = s.magic
    ∧ (countFatal s).sink = s.sink
    ∧ (countFatal s).queue = s.queue
    ∧ (countFatal s).lastError = s.lastError
    ∧ (countFatal s).fatalCount = sat8Inc s.fatalCount
    ∧ (countFatal s).fault = s.fault
    ∧ (countFatal s).faultKind = s.faultKind
    ∧ (countFatal s).reg = s.reg
    ∧ (countFatal s).deadline = s.deadline
    ∧ (countFatal s).op = s.op
    ∧ (countFatal s).phase = s.phase
    ∧ (countFatal s).tx = s.tx
    ∧ (countFatal s).rxFifo = s.rxFifo
    ∧ (countFatal s).txLog = s.txLog
    ∧ (countFatal s).respCmd = s.respCmd
    ∧ (countFatal s).respDrain = s.respDrain
    ∧ (countFatal s).sinkData = s.sinkData
    ∧ (countFatal s).now = s.now
    ∧ (countFatal s).script = s.script := by
  refine ⟨rfl, rfl, rfl, rfl, rfl, rfl, rfl, rfl, rfl, rfl, rfl, rfl, rfl, rfl, rfl, rfl, rfl, rfl, rfl, rfl, rfl, rfl⟩

@[simp] theorem raiseFault_fields (k : FaultKind) (s : State) :
    (raiseFault k s).cfg = s.cfg
    ∧ (raiseFault k s).link = s.link
    ∧ (raiseFault k s).acc = s.acc
    ∧ (raiseFault k s).magic = s.magic
    ∧ (raiseFault k s).sink = s.sink
    ∧ (raiseFault k s).queue = s.queue
    ∧ (raiseFault k s).lastError = s.lastError
    ∧ (raiseFault k s).fatalCount = s.fatalCount
    ∧ (raiseFault k s).fault = true
    ∧ (raiseFault k s).faultKind = k
    ∧ (raiseFault k s).reg = s.reg
    ∧ (raiseFault k s).deadline = s.deadline
    ∧ (raiseFault k s).op = s.op
    ∧ (raiseFault k s).phase = s.phase
    ∧ (raiseFault k s).tx = s.tx
    ∧ (raiseFault k s).rxFifo = s.rxFifo
    ∧ (raiseFault k s).txLog = s.txLog
    ∧ (raiseFault k s).respCmd = s.respCmd
    ∧ (raiseFault k s).respDrain = s.respDrain
    ∧ (raiseFault k s).sinkData = s.sinkData
    ∧ (raiseFault k s).now = s.now
    ∧ (raiseFault k s).script = s.script := by
  refine ⟨rfl, rfl, rfl, rfl, rfl, rfl, rfl, rfl, rfl, rfl, rfl, rfl, rfl, rfl, rfl, rfl, rfl, rfl, rfl, rfl, rfl, rfl⟩

@[simp] theorem respondCmd_fields (l : List Byte) (s : State) :
    (respondCmd l s).cfg = s.cfg
    ∧ (respondCmd l s).link = s.link
    ∧ (respondCmd l s).acc = s.acc
    ∧ (respondCmd l s).magic = s.magic
    ∧ (respondCmd l s).sink = s.sink
    ∧ (respondCmd l s).queue = s.queue
    ∧ (respondCmd l s).lastError = s.lastError
    ∧ (respondCmd l s).fatalCount = s.fatalCount
    ∧ (respondCmd l s).fault = s.fault
    ∧ (respondCmd l s).faultKind = s.faultKind
    ∧ (respondCmd l s).reg = s.reg
    ∧ (respondCmd l s).deadline = s.deadline
    ∧ (respondCmd l s).op = s.op
    ∧ (respondCmd l s).phase = s.phase
    ∧ (respondCmd l s).tx = s.tx
    ∧ (respondCmd l s).rxFifo = s.rxFifo
    ∧ (respondCmd l s).txLog = s.txLog
    ∧ (respondCmd l s).respCmd = s.respCmd ++ [l]
    ∧ (respondCmd l s).respDrain = s.respDrain
    ∧ (respondCmd l s).sinkData = s.sinkData
    ∧ (respondCmd l s).now = s.now
    ∧ (respondCmd l s).script = s.script := by
  refine ⟨rfl, rfl, rfl, rfl, rfl, rfl, rfl, rfl, rfl, rfl, rfl, rfl, rfl, rfl, rfl, rfl, rfl, rfl, rfl, rfl, rfl, rfl⟩

@[simp] theorem respondDrain_fields (l : List Byte) (s : State) :
    (respondDrain l s).cfg = s.cfg
    ∧ (respondDrain l s).link = s.link
    ∧ (respondDrain l s).acc = s.acc
    ∧ (respondDrain l s).magic = s.magic
    ∧ (respondDrain l s).sink = s.sink
    ∧ (respondDrain l s).queue = s.queue
    ∧ (respondDrain l s).lastError = s.lastError
    ∧ (respondDrain l s).fatalCount = s.fatalCount
    ∧ (respondDrain l s).fault = s.fault
    ∧ (respondDrain l s).faultKind = s.faultKind
    ∧ (respondDrain l s).reg = s.reg
    ∧ (respondDrain l s).deadline = s.deadline
    ∧ (respondDrain l s).op = s.op
    ∧ (respondDrain l s).phase = s.phase
    ∧ (respondDrain l s).tx = s.tx
    ∧ (respondDrain l s).rxFifo = s.rxFifo
    ∧ (respondDrain l s).txLog = s.txLog
    ∧ (respondDrain l s).respCmd = s.respCmd
    ∧ (respondDrain l s).respDrain = s.respDrain ++ [l]
    ∧ (respondDrain l s).sinkData = s.sinkData
    ∧ (respondDrain l s).now = s.now
    ∧ (respondDrain l s).script = s.script := by
  refine ⟨rfl, rfl, rfl, rfl, rfl, rfl, rfl, rfl, rfl, rfl, rfl, rfl, rfl, rfl, rfl, rfl, rfl, rfl, rfl, rfl, rfl, rfl⟩

@[simp] theorem completeCmd_fields (l : List Byte) (s : State) :
    (completeCmd l s).cfg = s.cfg
    ∧ (completeCmd l s).link = s.link
    ∧ (completeCmd l s).acc = s.acc
    ∧ (completeCmd l s).magic = s.magic
    ∧ (completeCmd l s).sink = s.sink
    ∧ (completeCmd l s).queue = s.queue
    ∧ (completeCmd l s).lastError = s.lastError
    ∧ (completeCmd l s).fatalCount = s.fatalCount
    ∧ (completeCmd l s).fault = s.fault
    ∧ (completeCmd l s).faultKind = s.faultKind
    ∧ (completeCmd l s).reg = s.reg
    ∧ (completeCmd l s).deadline = s.deadline
    ∧ (completeCmd l s).op = .none
    ∧ (completeCmd l s).phase = s.phase
    ∧ (completeCmd l s).tx = s.tx
    ∧ (completeCmd l s).rxFifo = s.rxFifo
    ∧ (completeCmd l s).txLog = s.txLog
    ∧ (completeCmd l s).respCmd = s.respCmd ++ [l]
    ∧ (completeCmd l s).respDrain = s.respDrain
    ∧ (completeCmd l s).sinkData = s.sinkData
    ∧ (completeCmd l s).now = s.now
    ∧ (completeCmd l s).script = s.script := by
  refine ⟨rfl, rfl, rfl, rfl, rfl, rfl, rfl, rfl, rfl, rfl, rfl, rfl, rfl, rfl, rfl, rfl, rfl, rfl, rfl, rfl, rfl, rfl⟩

@[simp] theorem enterReceiving_fields (s : State) :
    (enterReceiving s).cfg = s.cfg
    ∧ (enterReceiving s).link = s.link
    ∧ (enterReceiving s).acc = { s.acc with count := 0, cs := 0 }
    ∧ (enterReceiving s).magic = s.magic
    ∧ (enterReceiving s).sink = s.sink
    ∧ (enterReceiving s).queue = s.queue
    ∧ (enterReceiving s).lastError = s.lastError
    ∧ (enterReceiving s).fatalCount = s.fatalCount
    ∧ (enterReceiving s).fault = s.fault
    ∧ (enterReceiving s).faultKind = s.faultKind
    ∧ (enterReceiving s).reg = s.reg
    ∧ (enterReceiving s).deadline = s.deadline
    ∧ (enterReceiving s).op = s.op
    ∧ (enterReceiving s).phase = s.phase
    ∧ (enterReceiving s).tx = s.tx
    ∧ (enterReceiving s).rxFifo = s.rxFifo
    ∧ (enterReceiving s).txLog = s.txLog
    ∧ (enterReceiving s).respCmd = s.respCmd
    ∧ (enterReceiving s).respDrain = s.respDrain
    ∧ (enterReceiving s).sinkData = s.sinkData
    ∧ (enterReceiving s).now = s.now
    ∧ (enterReceiving s).script = s.script := by
  refine ⟨rfl, rfl, rfl, rfl, rfl, rfl, rfl, rfl, rfl, rfl, rfl, rfl, rfl, rfl, rfl, rfl, rfl, rfl, rfl, rfl, rfl, rfl⟩

@[simp] theorem resyncLink_fields (s : State) :
    (resyncLink s).cfg = s.cfg
    ∧ (resyncLink s).link = { ls := s.link.ls.set 0 .idle, depth := 1 }
    ∧ (resyncLink s).acc = { s.acc with count := 0, cs := 0 }
    ∧ (resyncLink s).magic = { s.magic with cursor := 0, remain := 0 }
    ∧ (resyncLink s).sink = s.sink
    ∧ (resyncLink s).queue = { s.queue with rd := 0, wr := 0, count := 0 }
    ∧ (resyncLink s).lastError = s.lastError
    ∧ (resyncLink s).fatalCount = s.fatalCount
    ∧ (resyncLink s).fault = s.fault
    ∧ (resyncLink s).faultKind = s.faultKind
    ∧ (resyncLink s).reg = s.reg
    ∧ (resyncLink s).deadline = s.deadline
    ∧ (resyncLink s).op = s.op
    ∧ (resyncLink s).phase = s.phase
    ∧ (resyncLink s).tx = s.tx
    ∧ (resyncLink s).rxFifo = []
    ∧ (resyncLink s).txLog = s.txLog
    ∧ (resyncLink s).respCmd = s.respCmd
    ∧ (resyncLink s).respDrain = s.respDrain
    ∧ (resyncLink s).sinkData = s.sinkData
    ∧ (resyncLink s).now = s.now
    ∧ (resyncLink s).script = s.script := by
  refine ⟨rfl, rfl, rfl, rfl, rfl, rfl, rfl, rfl, rfl, rfl, rfl, rfl, rfl, rfl, rfl, rfl, rfl, rfl, rfl, rfl, rfl, rfl⟩

@[simp] theorem pushEntry_fields (w : LinkState) (s : State) :
    (pushEntry w s).cfg = s.cfg
    ∧ (pushEntry w s).link = { ls := s.link.ls.set s.link.depth.toNat w, depth := s.link.depth + 1 }
    ∧ (pushEntry w s).acc = s.acc
    ∧ (pushEntry w s).magic = s.magic
    ∧ (pushEntry w s).sink = s.sink
    ∧ (pushEntry w s).queue = s.queue
    ∧ (pushEntry w s).lastError = s.lastError
    ∧ (pushEntry w s).fatalCount = s.fatalCount
    ∧ (pushEntry w s).fault = s.fault
    ∧ (pushEntry w s).faultKind = s.faultKind
    ∧ (pushEntry w s).reg = s.reg
    ∧ (pushEntry w s).deadline = s.deadline
    ∧ (pushEntry w s).op = s.op
    ∧ (pushEntry w s).phase = s.phase
    ∧ (pushEntry w s).tx = s.tx
    ∧ (pushEntry w s).rxFifo = s.rxFifo
    ∧ (pushEntry w s).txLog = s.txLog
    ∧ (pushEntry w s).respCmd = s.respCmd
    ∧ (pushEntry w s).respDrain = s.respDrain
    ∧ (pushEntry w s).sinkData = s.sinkData
    ∧ (pushEntry w s).now = s.now
    ∧ (pushEntry w s).script = s.script := by
  refine ⟨rfl, rfl, rfl, rfl, rfl, rfl, rfl, rfl, rfl, rfl, rfl, rfl, rfl, rfl, rfl, rfl, rfl, rfl, rfl, rfl, rfl, rfl⟩

@[simp] theorem dropOldest_fields (s : State) :
    (dropOldest s).cfg = s.cfg
    ∧ (dropOldest s).link = s.link
    ∧ (dropOldest s).acc = s.acc
    ∧ (dropOldest s).magic = s.magic
    ∧ (dropOldest s).sink = s.sink
    ∧ (dropOldest s).queue = { s.queue with rd := (s.queue.rd + 1) % s.cfg.val.qCap, count := s.queue.count - 1 }
    ∧ (dropOldest s).lastError = s.lastError
    ∧ (dropOldest s).fatalCount = s.fatalCount
    ∧ (dropOldest s).fault = s.fault
    ∧ (dropOldest s).faultKind = s.faultKind
    ∧ (dropOldest s).reg = s.reg
    ∧ (dropOldest s).deadline = s.deadline
    ∧ (dropOldest s).op = s.op
    ∧ (dropOldest s).phase = s.phase
    ∧ (dropOldest s).tx = s.tx
    ∧ (dropOldest s).rxFifo = s.rxFifo
    ∧ (dropOldest s).txLog = s.txLog
    ∧ (dropOldest s).respCmd = s.respCmd
    ∧ (dropOldest s).respDrain = s.respDrain
    ∧ (dropOldest s).sinkData = s.sinkData
    ∧ (dropOldest s).now = s.now
    ∧ (dropOldest s).script = s.script := by
  refine ⟨rfl, rfl, rfl, rfl, rfl, rfl, rfl, rfl, rfl, rfl, rfl, rfl, rfl, rfl, rfl, rfl, rfl, rfl, rfl, rfl, rfl, rfl⟩

@[simp] theorem coalesceInto_fields (j : Nat) (f : Frame) (s : State) :
    (coalesceInto j f s).cfg = s.cfg
    ∧ (coalesceInto j f s).link = s.link
    ∧ (coalesceInto j f s).acc = s.acc
    ∧ (coalesceInto j f s).magic = s.magic
    ∧ (coalesceInto j f s).sink = s.sink
    ∧ (coalesceInto j f s).queue = { s.queue with buf := s.queue.buf.set j { s.queue.buf.getD j Frame.zero with dataHi := f.dataHi, dataLo := f.dataLo } }
    ∧ (coalesceInto j f s).lastError = s.lastError
    ∧ (coalesceInto j f s).fatalCount = s.fatalCount
    ∧ (coalesceInto j f s).fault = s.fault
    ∧ (coalesceInto j f s).faultKind = s.faultKind
    ∧ (coalesceInto j f s).reg = s.reg
    ∧ (coalesceInto j f s).deadline = s.deadline
    ∧ (coalesceInto j f s).op = s.op
    ∧ (coalesceInto j f s).phase = s.phase
    ∧ (coalesceInto j f s).tx = s.tx
    ∧ (coalesceInto j f s).rxFifo = s.rxFifo
    ∧ (coalesceInto j f s).txLog = s.txLog
    ∧ (coalesceInto j f s).respCmd = s.respCmd
    ∧ (coalesceInto j f s).respDrain = s.respDrain
    ∧ (coalesceInto j f s).sinkData = s.sinkData
    ∧ (coalesceInto j f s).now = s.now
    ∧ (coalesceInto j f s).script = s.script := by
  refine ⟨rfl, rfl, rfl, rfl, rfl, rfl, rfl, rfl, rfl, rfl, rfl, rfl, rfl, rfl, rfl, rfl, rfl, rfl, rfl, rfl, rfl, rfl⟩

@[simp] theorem appendFrame_fields (f : Frame) (s : State) :
    (appendFrame f s).cfg = s.cfg
    ∧ (appendFrame f s).link = s.link
    ∧ (appendFrame f s).acc = s.acc
    ∧ (appendFrame f s).magic = s.magic
    ∧ (appendFrame f s).sink = s.sink
    ∧ (appendFrame f s).queue = { s.queue with buf := s.queue.buf.set s.queue.wr f, wr := (s.queue.wr + 1) % s.cfg.val.qCap, count := s.queue.count + 1 }
    ∧ (appendFrame f s).lastError = s.lastError
    ∧ (appendFrame f s).fatalCount = s.fatalCount
    ∧ (appendFrame f s).fault = s.fault
    ∧ (appendFrame f s).faultKind = s.faultKind
    ∧ (appendFrame f s).reg = s.reg
    ∧ (appendFrame f s).deadline = s.deadline
    ∧ (appendFrame f s).op = s.op
    ∧ (appendFrame f s).phase = s.phase
    ∧ (appendFrame f s).tx = s.tx
    ∧ (appendFrame f s).rxFifo = s.rxFifo
    ∧ (appendFrame f s).txLog = s.txLog
    ∧ (appendFrame f s).respCmd = s.respCmd
    ∧ (appendFrame f s).respDrain = s.respDrain
    ∧ (appendFrame f s).sinkData = s.sinkData
    ∧ (appendFrame f s).now = s.now
    ∧ (appendFrame f s).script = s.script := by
  refine ⟨rfl, rfl, rfl, rfl, rfl, rfl, rfl, rfl, rfl, rfl, rfl, rfl, rfl, rfl, rfl, rfl, rfl, rfl, rfl, rfl, rfl, rfl⟩

@[simp] theorem storeByte_fields (b : Byte) (s : State) :
    (storeByte b s).cfg = s.cfg
    ∧ (storeByte b s).link = s.link
    ∧ (storeByte b s).acc = { buf := setFrameByte s.acc.buf s.acc.count b, count := s.acc.count + 1, cs := s.acc.cs ^^^ b }
    ∧ (storeByte b s).magic = s.magic
    ∧ (storeByte b s).sink = s.sink
    ∧ (storeByte b s).queue = s.queue
    ∧ (storeByte b s).lastError = s.lastError
    ∧ (storeByte b s).fatalCount = s.fatalCount
    ∧ (storeByte b s).fault = s.fault
    ∧ (storeByte b s).faultKind = s.faultKind
    ∧ (storeByte b s).reg = s.reg
    ∧ (storeByte b s).deadline = s.deadline
    ∧ (storeByte b s).op = s.op
    ∧ (storeByte b s).phase = s.phase
    ∧ (storeByte b s).tx = s.tx
    ∧ (storeByte b s).rxFifo = s.rxFifo
    ∧ (storeByte b s).txLog = s.txLog
    ∧ (storeByte b s).respCmd = s.respCmd
    ∧ (storeByte b s).respDrain = s.respDrain
    ∧ (storeByte b s).sinkData = s.sinkData
    ∧ (storeByte b s).now = s.now
    ∧ (storeByte b s).script = s.script := by
  refine ⟨rfl, rfl, rfl, rfl, rfl, rfl, rfl, rfl, rfl, rfl, rfl, rfl, rfl, rfl, rfl, rfl, rfl, rfl, rfl, rfl, rfl, rfl⟩

@[simp] theorem handToSink_fields (s : State) :
    (handToSink s).cfg = s.cfg
    ∧ (handToSink s).link = s.link
    ∧ (handToSink s).acc = s.acc
    ∧ (handToSink s).magic = s.magic
    ∧ (handToSink s).sink = { kind := if top s = .receivingMagicBytes then .bytes else .dbytes, index := s.magic.idx, length := s.magic.len, done := false }
    ∧ (handToSink s).queue = s.queue
    ∧ (handToSink s).lastError = s.lastError
    ∧ (handToSink s).fatalCount = s.fatalCount
    ∧ (handToSink s).fault = s.fault
    ∧ (handToSink s).faultKind = s.faultKind
    ∧ (handToSink s).reg = s.reg
    ∧ (handToSink s).deadline = s.deadline
    ∧ (handToSink s).op = s.op
    ∧ (handToSink s).phase = .mgSink
    ∧ (handToSink s).tx = s.tx
    ∧ (handToSink s).rxFifo = s.rxFifo
    ∧ (handToSink s).txLog = s.txLog
    ∧ (handToSink s).respCmd = s.respCmd
    ∧ (handToSink s).respDrain = s.respDrain
    ∧ (handToSink s).sinkData = s.sinkData
    ∧ (handToSink s).now = s.now
    ∧ (handToSink s).script = s.script := by
  refine ⟨rfl, rfl, rfl, rfl, rfl, rfl, rfl, rfl, rfl, rfl, rfl, rfl, rfl, rfl, rfl, rfl, rfl, rfl, rfl, rfl, rfl, rfl⟩

@[simp] theorem discardPayload_fields (s : State) :
    (discardPayload s).cfg = s.cfg
    ∧ (discardPayload s).link = s.link
    ∧ (discardPayload s).acc = s.acc
    ∧ (discardPayload s).magic = { s.magic with remain := discardCount s }
    ∧ (discardPayload s).sink = s.sink
    ∧ (discardPayload s).queue = s.queue
    ∧ (discardPayload s).lastError = s.lastError
    ∧ (discardPayload s).fatalCount = s.fatalCount
    ∧ (discardPayload s).fault = s.fault
    ∧ (discardPayload s).faultKind = s.faultKind
    ∧ (discardPayload s).reg = s.reg
    ∧ (discardPayload s).deadline = s.deadline
    ∧ (discardPayload s).op = s.op
    ∧ (discardPayload s).phase = (if discardCount s = 0 then .mgCsum else .mgDiscard)
    ∧ (discardPayload s).tx = s.tx
    ∧ (discardPayload s).rxFifo = s.rxFifo
    ∧ (discardPayload s).txLog = s.txLog
    ∧ (discardPayload s).respCmd = s.respCmd
    ∧ (discardPayload s).respDrain = s.respDrain
    ∧ (discardPayload s).sinkData = s.sinkData
    ∧ (discardPayload s).now = s.now
    ∧ (discardPayload s).script = s.script := by
  refine ⟨rfl, rfl, rfl, rfl, rfl, rfl, rfl, rfl, rfl, rfl, rfl, rfl, rfl, rfl, rfl, rfl, rfl, rfl, rfl, rfl, rfl, rfl⟩

@[simp] theorem issueTransmit_fields (l : List Byte) (w : LinkState) (s : State) :
    (issueTransmit l w s).cfg = s.cfg
    ∧ (issueTransmit l w s).link = s.link
    ∧ (issueTransmit l w s).acc = s.acc
    ∧ (issueTransmit l w s).magic = s.magic
    ∧ (issueTransmit l w s).sink = s.sink
    ∧ (issueTransmit l w s).queue = s.queue
    ∧ (issueTransmit l w s).lastError = .none
    ∧ (issueTransmit l w s).fatalCount = s.fatalCount
    ∧ (issueTransmit l w s).fault = s.fault
    ∧ (issueTransmit l w s).faultKind = s.faultKind
    ∧ (issueTransmit l w s).reg = s.reg
    ∧ (issueTransmit l w s).deadline = deadlineFrom s
    ∧ (issueTransmit l w s).op = .tx
    ∧ (issueTransmit l w s).phase = .loop
    ∧ (issueTransmit l w s).tx = { frame := txFrame l, push := w }
    ∧ (issueTransmit l w s).rxFifo = s.rxFifo
    ∧ (issueTransmit l w s).txLog = s.txLog
    ∧ (issueTransmit l w s).respCmd = s.respCmd
    ∧ (issueTransmit l w s).respDrain = s.respDrain
    ∧ (issueTransmit l w s).sinkData = s.sinkData
    ∧ (issueTransmit l w s).now = s.now
    ∧ (issueTransmit l w s).script = s.script := by
  refine ⟨rfl, rfl, rfl, rfl, rfl, rfl, rfl, rfl, rfl, rfl, rfl, rfl, rfl, rfl, rfl, rfl, rfl, rfl, rfl, rfl, rfl, rfl⟩

@[simp] theorem transmitFrame_fields (s : State) :
    (transmitFrame s).cfg = s.cfg
    ∧ (transmitFrame s).link = s.link
    ∧ (transmitFrame s).acc = s.acc
    ∧ (transmitFrame s).magic = s.magic
    ∧ (transmitFrame s).sink = s.sink
    ∧ (transmitFrame s).queue = s.queue
    ∧ (transmitFrame s).lastError = s.lastError
    ∧ (transmitFrame s).fatalCount = s.fatalCount
    ∧ (transmitFrame s).fault = s.fault
    ∧ (transmitFrame s).faultKind = s.faultKind
    ∧ (transmitFrame s).reg = s.reg
    ∧ (transmitFrame s).deadline = s.deadline
    ∧ (transmitFrame s).op = s.op
    ∧ (transmitFrame s).phase = s.phase
    ∧ (transmitFrame s).tx = s.tx
    ∧ (transmitFrame s).rxFifo = s.rxFifo
    ∧ (transmitFrame s).txLog = s.txLog ++ s.tx.frame
    ∧ (transmitFrame s).respCmd = s.respCmd
    ∧ (transmitFrame s).respDrain = s.respDrain
    ∧ (transmitFrame s).sinkData = s.sinkData
    ∧ (transmitFrame s).now = s.now
    ∧ (transmitFrame s).script = s.script := by
  refine ⟨rfl, rfl, rfl, rfl, rfl, rfl, rfl, rfl, rfl, rfl, rfl, rfl, rfl, rfl, rfl, rfl, rfl, rfl, rfl, rfl, rfl, rfl⟩

end Sys2Proof.Machine
end

