-- ==== Sys2Proof/Laws/Ops.lean ====
section
/-! SUPPORT. One lemma per shared operation that says once everything it can do; the inversion of a dispatch. -/

namespace Sys2Proof.Machine

/-! ### The stack -/

/-- `Push` either overflows into a resync, or writes one entry (and enters a receiving state). -/
theorem push_cases (w : LinkState) (s : State) :
    (stackFull s = true ∧ push w s = (false, overflowResync s))
    ∨ (stackFull s = false ∧ w = .receivingEvent ∧ push w s = (true, enterReceiving (pushEntry w s)))
    ∨ (stackFull s = false ∧ w ≠ .receivingEvent ∧ push w s = (true, pushEntry w s)) := by
  unfold push
  cases h : stackFull s
  · by_cases hw : w = .receivingEvent
    · simp [hw]
    · simp [hw]
  · simp

/-- Fields no `Push` writes, overflow or not. -/
@[simp] theorem push_fields (w : LinkState) (s : State) :
    (push w s).2.cfg = s.cfg ∧ (push w s).2.sink = s.sink ∧ (push w s).2.lastError = s.lastError
    ∧ (push w s).2.fault = s.fault ∧ (push w s).2.faultKind = s.faultKind ∧ (push w s).2.reg = s.reg
    ∧ (push w s).2.deadline = s.deadline ∧ (push w s).2.op = s.op ∧ (push w s).2.phase = s.phase
    ∧ (push w s).2.tx = s.tx ∧ (push w s).2.txLog = s.txLog ∧ (push w s).2.respCmd = s.respCmd
    ∧ (push w s).2.respDrain = s.respDrain ∧ (push w s).2.sinkData = s.sinkData ∧ (push w s).2.now = s.now
    ∧ (push w s).2.script = s.script := by
  rcases push_cases w s with ⟨-, e⟩ | ⟨-, -, e⟩ | ⟨-, -, e⟩ <;> rw [e] <;> simp [overflowResync]

/-- `Pop` writes nothing but `LS_DEPTH`. -/
theorem pop_eq (s : State) :
    pop s = { s with link := { s.link with
      depth := if 1 < s.link.depth.toNat then s.link.depth - 1 else s.link.depth } } := by
  unfold pop; split <;> rfl

@[simp] theorem pop_ls (s : State) : (pop s).link.ls = s.link.ls := by rw [pop_eq]

theorem pop_depth (s : State) : (pop s).link.depth =
    if 1 < s.link.depth.toNat then s.link.depth - 1 else s.link.depth := by rw [pop_eq]

/-- Every other field is as before a `Pop`. -/
@[simp] theorem pop_fields (s : State) :
    (pop s).cfg = s.cfg ∧ (pop s).acc = s.acc ∧ (pop s).magic = s.magic ∧ (pop s).sink = s.sink
    ∧ (pop s).queue = s.queue ∧ (pop s).lastError = s.lastError ∧ (pop s).fatalCount = s.fatalCount
    ∧ (pop s).fault = s.fault ∧ (pop s).faultKind = s.faultKind ∧ (pop s).reg = s.reg
    ∧ (pop s).deadline = s.deadline ∧ (pop s).op = s.op ∧ (pop s).phase = s.phase ∧ (pop s).tx = s.tx
    ∧ (pop s).rxFifo = s.rxFifo ∧ (pop s).txLog = s.txLog ∧ (pop s).respCmd = s.respCmd
    ∧ (pop s).respDrain = s.respDrain ∧ (pop s).sinkData = s.sinkData ∧ (pop s).now = s.now
    ∧ (pop s).script = s.script := by
  rw [pop_eq]
  refine ⟨rfl, rfl, rfl, rfl, rfl, rfl, rfl, rfl, rfl, rfl, rfl, rfl, rfl, rfl, rfl, rfl, rfl, rfl, rfl, rfl, rfl⟩

/-! ### The queue -/

/-- `Enqueue` rejects, coalesces into a live slot of the same identity, or appends. -/
theorem enqueue_cases (f : Frame) (s : State) :
    (queueFull s = true ∧ enqueue f s = setError .queueOverflow s)
    ∨ (queueFull s = false ∧ ∃ j, matchingSlot f s = some j ∧ enqueue f s = coalesceInto j f s)
    ∨ (queueFull s = false ∧ matchingSlot f s = none ∧ enqueue f s = appendFrame f s) := by
  unfold enqueue
  cases h : queueFull s
  · cases hm : matchingSlot f s <;> simp
  · simp

/-- `Enqueue` writes nothing but the queue, or the error. -/
theorem enqueue_eq (f : Frame) (s : State) :
    enqueue f s = { s with queue := (enqueue f s).queue, lastError := (enqueue f s).lastError } := by
  rcases enqueue_cases f s with ⟨-, h⟩ | ⟨-, j, -, h⟩ | ⟨-, -, h⟩ <;> rw [h] <;> rfl

/-- Every other field is as before an `Enqueue`. -/
@[simp] theorem enqueue_fields (f : Frame) (s : State) :
    (enqueue f s).cfg = s.cfg ∧ (enqueue f s).link = s.link ∧ (enqueue f s).acc = s.acc ∧ (enqueue f s).magic = s.magic
    ∧ (enqueue f s).sink = s.sink ∧ (enqueue f s).fatalCount = s.fatalCount ∧ (enqueue f s).fault = s.fault
    ∧ (enqueue f s).faultKind = s.faultKind ∧ (enqueue f s).reg = s.reg ∧ (enqueue f s).deadline = s.deadline
    ∧ (enqueue f s).op = s.op ∧ (enqueue f s).phase = s.phase ∧ (enqueue f s).tx = s.tx
    ∧ (enqueue f s).rxFifo = s.rxFifo ∧ (enqueue f s).txLog = s.txLog ∧ (enqueue f s).respCmd = s.respCmd
    ∧ (enqueue f s).respDrain = s.respDrain ∧ (enqueue f s).sinkData = s.sinkData ∧ (enqueue f s).now = s.now
    ∧ (enqueue f s).script = s.script := by
  rw [enqueue_eq]
  refine ⟨rfl, rfl, rfl, rfl, rfl, rfl, rfl, rfl, rfl, rfl, rfl, rfl, rfl, rfl, rfl, rfl, rfl, rfl, rfl, rfl⟩

/-- What `Enqueue` does depends on the queue and the capacity alone. -/
theorem enqueue_queue_congr (f : Frame) (s t : State) (hq : t.queue = s.queue) (hc : t.cfg = s.cfg)
    (he : t.lastError = s.lastError) :
    (enqueue f t).queue = (enqueue f s).queue ∧ (enqueue f t).lastError = (enqueue f s).lastError := by
  have hm : matchingSlot f t = matchingSlot f s := by
    unfold matchingSlot
    have : slotBefore t = slotBefore s := by funext k; simp [slotBefore, hq, hc]
    rw [this, hq]
  have hf : queueFull t = queueFull s := by simp [queueFull, hq, hc]
  unfold enqueue
  rw [hm, hf]
  split
  · simp [hq]
  · split <;> simp [hq, hc, he]

/-! ### The accumulator -/

/-- `RX_COUNT + 1` does not wrap below 6. -/
theorem count_succ (n : Fin 7) (h : n.val < 6) : (n + 1).val = n.val + 1 := by
  rw [Fin.val_add]
  have h1 : (1 : Fin 7).val = 1 := rfl
  rw [h1]
  omega

/-- `Accumulate` faults at a full accumulator, stores a byte, or stores the sixth and checks the frame. -/
theorem accumulate_cases (b : Byte) (s : State) :
    (s.acc.count.val = 6 ∧ accumulate b s = raiseFault .staleAccumulator s)
    ∨ (s.acc.count.val < 5 ∧ accumulate b s = storeByte b s)
    ∨ (s.acc.count.val = 5 ∧ accumulate b s = checkFrame (storeByte b s)) := by
  have hlt := s.acc.count.isLt
  unfold accumulate
  by_cases h6 : s.acc.count = 6
  · left; exact ⟨by rw [h6]; rfl, by simp [h6]⟩
  · have h6' : s.acc.count.val ≠ 6 := fun h => h6 (Fin.ext h)
    have hs := count_succ s.acc.count (by omega)
    right
    by_cases h5 : s.acc.count.val = 5
    · right
      have : s.acc.count + 1 = 6 := Fin.ext (by rw [hs, h5]; rfl)
      exact ⟨h5, by simp [h6, this]⟩
    · left
      have : s.acc.count + 1 ≠ 6 := fun h => by
        have := congrArg Fin.val h
        rw [hs] at this
        have h' : (6 : Fin 7).val = 6 := rfl
        omega
      exact ⟨by omega, by simp [h6, this]⟩

/-- A bad checksum records its error and writes nothing but the accumulator's count and checksum, and the depth. -/
theorem badChecksum_cases (s : State) :
    badChecksum s = setError .badChecksum s
    ∨ badChecksum s = enterReceiving (setError .badChecksum s)
    ∨ badChecksum s = pop (enterReceiving (setError .badChecksum s)) := by
  unfold badChecksum; split <;> simp

/-! ### Meanings -/

/-- Every instruction completes: none stops. -/
theorem exec_next (i : Instr) (s : State) : ∃ t, exec i s = .next t := by
  cases i
  case dequeue => simp only [exec, execDequeue]; split <;> exact ⟨_, rfl⟩
  all_goals exact ⟨_, rfl⟩

/-- What dispatching the byte `b` in the state `s` can do, one case per branch of R120 to R131. -/
inductive Dispatched (b : Byte) (s : State) : State → Prop where
  | eventLead : (top s).classifies = true → b = s.cfg.val.codes.reportEvent → stackFull s = false →
      Dispatched b s (storeByte b (enterReceiving (pushEntry .receivingEvent s)))
  | magicLead (w : LinkState) : (top s).classifies = true →
      (w = .receivingMagicBytes ∧ b = s.cfg.val.codes.reportMagicBytes)
        ∨ (w = .receivingMagicDoubleBytes ∧ b = s.cfg.val.codes.reportMagicDbytes) → stackFull s = false →
      Dispatched b s (pushEntry w { s with magic := { s.magic with cursor := 0 } })
  | overflow : (top s).classifies = true → stackFull s = true → Dispatched b s (overflowResync s)
  | ack : top s = .waitAckOrNak → b = s.cfg.val.codes.ack → Dispatched b s (pop s)
  | nak : top s = .waitAckOrNak → b = s.cfg.val.codes.nak → Dispatched b s (setError .nak (pop s))
  | reportLead : top s = .waitReportHeader → b = s.cfg.val.codes.reportObj →
      Dispatched b s (storeByte b (replaceTop .receivingReport s))
  | framing : (top s).classifies = true → b ∉ s.cfg.val.codes.acceptedIn (top s) →
      Dispatched b s (countFatal (setError .framing s))
  | frameStale : receivingFrame (top s) = true → s.acc.count.val = 6 →
      Dispatched b s (raiseFault .staleAccumulator s)
  | frameByte : receivingFrame (top s) = true → s.acc.count.val < 5 → Dispatched b s (storeByte b s)
  | frameGood : receivingFrame (top s) = true → s.acc.count.val = 5 → s.acc.cs ^^^ b = 0 →
      Dispatched b s (pop (enqueue (storeByte b s).acc.buf (storeByte b s)))
  | frameBad : receivingFrame (top s) = true → s.acc.count.val = 5 → s.acc.cs ^^^ b ≠ 0 →
      Dispatched b s (badChecksum (storeByte b s))
  | headerCmd : receivingMagic (top s) = true → s.magic.cursor = 0 →
      Dispatched b s { s with magic := { s.magic with cmd := b, cursor := 1 } }
  | headerIdx : receivingMagic (top s) = true → s.magic.cursor = 1 →
      Dispatched b s { s with magic := { s.magic with idx := b, cursor := 2 } }
  | headerSink : receivingMagic (top s) = true → s.magic.cursor = 2 →
      Dispatched b s (handToSink { s with magic := { s.magic with len := b, cursor := 3 } })
  | headerDiscard : receivingMagic (top s) = true → s.magic.cursor = 2 →
      Dispatched b s (discardPayload { s with magic := { s.magic with len := b, cursor := 3 } })
  | headerStale : receivingMagic (top s) = true → s.magic.cursor = 3 →
      Dispatched b s (raiseFault .staleMagicCursor s)
  | shutdown : top s = .shutdown → Dispatched b s (raiseFault .shutdownState s)

theorem dispatched_of_accumulate (b : Byte) (s : State) (h : receivingFrame (top s) = true) :
    Dispatched b s (accumulate b s) := by
  rcases accumulate_cases b s with ⟨h6, e⟩ | ⟨h5, e⟩ | ⟨h5, e⟩ <;> rw [e]
  · exact .frameStale h h6
  · exact .frameByte h h5
  · unfold checkFrame
    split
    · rename_i hz; exact .frameGood h h5 (by simpa using hz)
    · rename_i hz; exact .frameBad h h5 (by simpa using hz)

theorem dispatched_of_header (b : Byte) (s : State) (h : receivingMagic (top s) = true) :
    Dispatched b s (magicHeaderByte b s) := by
  unfold magicHeaderByte
  split
  · rename_i hc; exact .headerCmd h hc
  · rename_i hc; exact .headerIdx h hc
  · rename_i hc
    unfold magicDispatch
    split
    · exact .headerSink h hc
    · exact .headerDiscard h hc
  · rename_i hc; exact .headerStale h hc

theorem dispatched_of_lead (b : Byte) (s t : State) (hc : (top s).classifies = true)
    (h : exec (classifyLead s.cfg.val.codes (top s) b) s = .next t) : Dispatched b s t := by
  unfold classifyLead at h
  split at h
  · rename_i hb
    simp only [exec, execRxReportEventLead, Host.Outcome.next.injEq] at h
    rcases push_cases .receivingEvent s with ⟨hf, e⟩ | ⟨hf, -, e⟩ | ⟨-, hw, -⟩
    · rw [e] at h; subst h; exact .overflow hc hf
    · rw [e] at h
      simp only [if_true] at h
      have hacc := accumulate_cases s.cfg.val.codes.reportEvent (enterReceiving (pushEntry .receivingEvent s))
      simp at hacc
      rw [hacc, ← hb] at h
      subst h
      exact .eventLead hc hb hf
    · exact absurd rfl hw
  split at h
  · rename_i hb
    simp only [exec, execRxMagicBytesLead, magicLead, Host.Outcome.next.injEq] at h
    rcases push_cases .receivingMagicBytes { s with magic := { s.magic with cursor := 0 } } with
      ⟨hf, e⟩ | ⟨-, hw, -⟩ | ⟨hf, -, e⟩
    · rw [e] at h; subst h; exact .overflow hc hf
    · cases hw
    · rw [e] at h; subst h; exact .magicLead _ hc (.inl ⟨rfl, hb⟩) hf
  split at h
  · rename_i hb
    simp only [exec, execRxMagicDbytesLead, magicLead, Host.Outcome.next.injEq] at h
    rcases push_cases .receivingMagicDoubleBytes { s with magic := { s.magic with cursor := 0 } } with
      ⟨hf, e⟩ | ⟨-, hw, -⟩ | ⟨hf, -, e⟩
    · rw [e] at h; subst h; exact .overflow hc hf
    · cases hw
    · rw [e] at h; subst h; exact .magicLead _ hc (.inr ⟨rfl, hb⟩) hf
  split at h
  · rename_i hb
    simp only [exec, execRxAck, Host.Outcome.next.injEq] at h
    subst h; exact .ack hb.1 hb.2
  split at h
  · rename_i hb
    simp only [exec, execRxNak, Host.Outcome.next.injEq] at h
    subst h; exact .nak hb.1 hb.2
  split at h
  · rename_i hb
    simp only [exec, execRxReportObjLead, Host.Outcome.next.injEq] at h
    have hacc := accumulate_cases s.cfg.val.codes.reportObj (replaceTop .receivingReport s)
    simp [replaceTop] at hacc
    subst h
    simp only [replaceTop]
    rw [hacc, ← hb.2]
    exact .reportLead hb.1 hb.2
  · rename_i h1 h2 h3 h4 h5 h6
    simp only [exec, execRxFramingError, Host.Outcome.next.injEq] at h
    subst h
    refine .framing hc ?_
    cases ht : top s <;> simp_all [Codes.acceptedIn, LinkState.classifies]

/-- The inversion of `Dispatch`. -/
theorem dispatchByte_dispatched (b : Byte) (s t : State) (h : dispatchByte b s = .next t) : Dispatched b s t := by
  have hlead : (top s).classifies = true →
      exec (classifyLead s.cfg.val.codes (top s) b) s = .next t → Dispatched b s t :=
    dispatched_of_lead b s t
  unfold dispatchByte decode decodeReceive at h
  cases ht : top s <;> simp only [ht, LinkState.classifies] at h hlead
  case idle => exact hlead trivial h
  case waitAckOrNak => exact hlead trivial h
  case waitReportHeader => exact hlead trivial h
  case receivingReport =>
    simp only [exec, execRxFrameByte, Host.Outcome.next.injEq] at h
    subst h; exact dispatched_of_accumulate b s (by rw [ht]; rfl)
  case receivingEvent =>
    simp only [exec, execRxFrameByte, Host.Outcome.next.injEq] at h
    subst h; exact dispatched_of_accumulate b s (by rw [ht]; rfl)
  case receivingMagicBytes =>
    simp only [exec, execRxMagicHeaderByte, Host.Outcome.next.injEq] at h
    subst h; exact dispatched_of_header b s (by rw [ht]; rfl)
  case receivingMagicDoubleBytes =>
    simp only [exec, execRxMagicHeaderByte, Host.Outcome.next.injEq] at h
    subst h; exact dispatched_of_header b s (by rw [ht]; rfl)
  case shutdown =>
    simp only [Host.Outcome.next.injEq] at h
    subst h; exact .shutdown ht

end Sys2Proof.Machine
end

