-- ==== Sys2Proof/Laws/Step.lean ====
section
/-! SUPPORT. What one step of the machine can do, said once: the inversions of a pump, of a port's issue and of `step`. -/

namespace Sys2Proof.Machine

/-- What a pump that takes the byte `b` can do: its dispatch, then `PumpDone` unless a fault or a magic phase stops it. -/
theorem consumeByte_cases (b : Byte) (r : List Byte) (s t : State) (h : consumeByte b r s = .next t) :
    ∃ u, Dispatched b { s with rxFifo := r } u
      ∧ ((u.fault || magicPhase u.phase) = true ∧ t = u
        ∨ (u.fault || magicPhase u.phase) = false ∧ t = pumpDone u) := by
  unfold consumeByte afterDispatch at h
  split at h
  · rename_i u hu
    refine ⟨u, dispatchByte_dispatched _ _ _ hu, ?_⟩
    split at h
    · rename_i hf; left; simp only [Host.Outcome.next.injEq] at h; exact ⟨hf, h.symm⟩
    · rename_i hf; right; simp only [Host.Outcome.next.injEq] at h; exact ⟨by simpa using hf, h.symm⟩
  · cases h
  · cases h

/-- `PumpDone` completes a `PUMP`, or extends the deadline of a wait. -/
theorem pumpDone_cases (s : State) :
    (s.op = .pump ∧ pumpDone s = completeCmd [pumpByte true false, errorByte s.lastError] s)
    ∨ (s.op ≠ .pump ∧ pumpDone s = { s with deadline := deadlineFrom s, phase := .loop }) := by
  unfold pumpDone
  by_cases h : s.op = .pump <;> simp [h]

/-- Fields no `PumpDone` writes. -/
@[simp] theorem pumpDone_fields (s : State) :
    (pumpDone s).cfg = s.cfg ∧ (pumpDone s).link = s.link ∧ (pumpDone s).acc = s.acc ∧ (pumpDone s).magic = s.magic
    ∧ (pumpDone s).sink = s.sink ∧ (pumpDone s).queue = s.queue ∧ (pumpDone s).lastError = s.lastError
    ∧ (pumpDone s).fatalCount = s.fatalCount ∧ (pumpDone s).fault = s.fault ∧ (pumpDone s).faultKind = s.faultKind
    ∧ (pumpDone s).reg = s.reg ∧ (pumpDone s).tx = s.tx ∧ (pumpDone s).rxFifo = s.rxFifo
    ∧ (pumpDone s).txLog = s.txLog ∧ (pumpDone s).respDrain = s.respDrain ∧ (pumpDone s).sinkData = s.sinkData
    ∧ (pumpDone s).now = s.now ∧ (pumpDone s).script = s.script := by
  rcases pumpDone_cases s with ⟨-, e⟩ | ⟨-, e⟩ <;> rw [e] <;> simp

/-- What the end of a wait does, for `WAIT` and for `TX`. -/
theorem finishWait_fields (s : State) :
    (finishWait s).lastError = s.lastError ∧ (finishWait s).now = s.now ∧ (finishWait s).fault = s.fault
    ∧ (finishWait s).reg = s.reg ∧ (finishWait s).respDrain = s.respDrain ∧ (finishWait s).op = .none
    ∧ (finishWait s).respCmd = s.respCmd ++ [[errorByte s.lastError]]
    ∧ (s.op = .wait ∧ (finishWait s).txLog = s.txLog
      ∨ s.op ≠ .wait ∧ (finishWait s).txLog = s.txLog ++ s.tx.frame) := by
  unfold finishWait
  split
  · simp [completeWithError]; tauto
  · rename_i h; simp [txFinish, completeWithError, h]

/-- Fields no dispatch writes. -/
theorem dispatched_fields {b : Byte} {s u : State} (h : Dispatched b s u) :
    u.cfg = s.cfg ∧ u.reg = s.reg ∧ u.deadline = s.deadline ∧ u.op = s.op ∧ u.tx = s.tx ∧ u.txLog = s.txLog
    ∧ u.respCmd = s.respCmd ∧ u.respDrain = s.respDrain ∧ u.sinkData = s.sinkData ∧ u.now = s.now
    ∧ u.script = s.script := by
  cases h <;> (try simp [overflowResync, replaceTop])
  rcases badChecksum_cases (storeByte b s) with e | e | e <;> rw [e] <;> simp

/-- What a legal command of the command port can do. -/
inductive Issued (s : State) : State → Prop where
  | illegal : Issued s (respondCmd [0xFF] s)
  | pump : Issued s { s with lastError := .none, op := .pump, phase := .start }
  | waitIdle : Issued s { s with lastError := .none, deadline := deadlineFrom s, op := .wait, phase := .loop }
  | resync : Issued s (respondCmd [errorByte .none] (resyncLink (setError .none s)))
  | register (g : Registrations) : Issued s (respondCmd [errorByte .none] { setError .none s with reg := g })
  | transmit (body : List Byte) (w : LinkState) : w = .waitAckOrNak ∨ w = .waitReportHeader → body.length ≤ 513 →
      Issued s (issueTransmit body w s)

theorem splitUnits_length (us : List Unit16) : (splitUnits us).length = 2 * us.length := by
  induction us with
  | nil => rfl
  | cons u us ih => simp [splitUnits, ih]; omega

theorem joinUnits_length (bs : List Byte) : ∀ us, joinUnits bs = some us → bs.length = 2 * us.length := by
  induction bs using joinUnits.induct with
  | case1 => intro us h; simp [joinUnits] at h; subst h; rfl
  | case2 b => intro us h; simp [joinUnits] at h
  | case3 h l rest ih =>
    intro us hu
    simp only [joinUnits, Option.map_eq_some_iff] at hu
    obtain ⟨vs, hv, rfl⟩ := hu
    have := ih vs hv
    simp; omega

/-- The instruction a host port's decoder gives is of that port and well formed. -/
theorem decodeHost_sound (port : Port) (bs : List Byte) (i : Instr) (h : decodeHost port bs = .ok i) :
    i.hostPort? = some port ∧ i.wellFormed = true := by
  unfold decodeHost at h
  split at h
  · cases h
  split at h
  · cases h
  split at h
  case isFalse => cases h
  rename_i o _ hp
  have u8 : ∀ (n : Byte) (us : List Byte), us.length = n.toNat → us.length ≤ 255 := by
    intro n us hu; have := n.isLt; omega
  have u16 : ∀ (n : Byte) (us : List Byte) (vs : List Unit16), us.length = 2 * n.toNat → joinUnits us = some vs →
      vs.length ≤ 255 := by
    intro n us vs hu hj
    have := joinUnits_length us vs hj
    have := n.isLt
    omega
  subst hp
  cases o <;>
    simp only [decodeOperands, decodeCmd1, decodeEnable, decodeUnits8, decodeUnits16] at h <;>
    (repeat' split at h) <;> cases h <;>
    first
    | exact ⟨rfl, rfl⟩
    | (refine ⟨rfl, ?_⟩; simp only [Instr.wellFormed, unitsFit, decide_eq_true_eq]; exact u8 _ _ ‹_›)
    | (refine ⟨rfl, ?_⟩; simp only [Instr.wellFormed, unitsFit, decide_eq_true_eq]; exact u16 _ _ _ ‹_› ‹_›)

/-- The inversion of a command-port issue. -/
theorem issueCommand_issued (c : List Byte) (s t : State) (h : issueCommand c s = .next t) : Issued s t := by
  unfold issueCommand decode at h
  split at h
  · rename_i i hd
    obtain ⟨hp, hw⟩ := decodeHost_sound _ _ _ hd
    cases i <;> simp [Instr.hostPort?] at hp <;>
      simp only [exec, execPump, execWaitIdle, execResync, execSetHandler, execSetBytesSink, execSetDbytesSink,
        execReadObj, execWriteObj, execWriteContrast, execWriteStr, execWriteStrU, execWriteMagicBytes,
        execWriteMagicDbytes, Host.Outcome.next.injEq] at h <;> subst h
    case pump => exact .pump
    case waitIdle => exact .waitIdle
    case resync => exact .resync
    case setHandler => exact .register _
    case setBytesSink => exact .register _
    case setDbytesSink => exact .register _
    case readObj => exact .transmit _ _ (.inr rfl) (by simp [bodyReadObj])
    all_goals
      refine .transmit _ _ (.inl rfl) ?_
      simp only [Instr.wellFormed, unitsFit, decide_eq_true_eq] at hw
      simp [bodyWriteObj, bodyWriteContrast, bodyUnits8, bodyUnits16, splitUnits_length]
      try omega
  · simp only [Host.Outcome.next.injEq] at h
    subst h; exact .illegal

/-- The inversion of a drain-port issue: one response, and at most the oldest slot freed. -/
theorem issueDrain_cases (c : List Byte) (s t : State) (h : issueDrain c s = .next t) :
    ∃ r, t = respondDrain r s ∨ (s.queue.count ≠ 0 ∧ t = respondDrain r (dropOldest s)) := by
  unfold issueDrain decode at h
  split at h
  · rename_i i hd
    obtain ⟨hp, -⟩ := decodeHost_sound _ _ _ hd
    cases i <;> simp [Instr.hostPort?] at hp <;> simp only [exec, execDequeue, execReadStatus] at h
    · split at h <;> simp only [Host.Outcome.next.injEq] at h
      · exact ⟨_, .inl h.symm⟩
      · rename_i hc; exact ⟨_, .inr ⟨hc, h.symm⟩⟩
    · simp only [Host.Outcome.next.injEq] at h; exact ⟨_, .inl h.symm⟩
  · simp only [Host.Outcome.next.injEq] at h; exact ⟨_, .inl h.symm⟩

/-- `s` with the turn taken from its script. -/
def turned (s : State) : State := (nextTurn s).2

/-- Taking the turn writes nothing but the script. -/
@[simp] theorem turned_fields (s : State) :
    (turned s).cfg = s.cfg ∧ (turned s).link = s.link ∧ (turned s).acc = s.acc ∧ (turned s).magic = s.magic
    ∧ (turned s).sink = s.sink ∧ (turned s).queue = s.queue ∧ (turned s).lastError = s.lastError
    ∧ (turned s).fatalCount = s.fatalCount ∧ (turned s).fault = s.fault ∧ (turned s).faultKind = s.faultKind
    ∧ (turned s).reg = s.reg ∧ (turned s).deadline = s.deadline ∧ (turned s).op = s.op ∧ (turned s).phase = s.phase
    ∧ (turned s).tx = s.tx ∧ (turned s).rxFifo = s.rxFifo ∧ (turned s).txLog = s.txLog
    ∧ (turned s).respCmd = s.respCmd ∧ (turned s).respDrain = s.respDrain ∧ (turned s).sinkData = s.sinkData
    ∧ (turned s).now = s.now := by
  unfold turned nextTurn
  split <;> refine ⟨rfl, rfl, rfl, rfl, rfl, rfl, rfl, rfl, rfl, rfl, rfl, rfl, rfl, rfl, rfl, rfl, rfl, rfl, rfl, rfl, rfl⟩

/-- What one step can do, one case per agent's step. `u` is the state with the turn taken. -/
inductive Stepped (s : State) : State → Prop where
  /-- An agent with no enabled step. -/
  | idle : Stepped s (turned s)
  | clock : (nextTurn s).1 = .clock → Stepped s { turned s with now := s.now + 1 }
  | peer (b : Byte) (bs : List Byte) : (nextTurn s).1 = .peer → s.script.peerIn = b :: bs →
      Stepped s { turned s with rxFifo := s.rxFifo ++ [b], script := { (turned s).script with peerIn := bs } }
  | sinkRead (b : Byte) (r : List Byte) : (nextTurn s).1 = .sinkRead → s.phase = .mgSink → s.rxFifo = b :: r →
      Stepped s { turned s with rxFifo := r, sinkData := s.sinkData ++ [b] }
  | sinkDone : (nextTurn s).1 = .sinkDone → s.phase = .mgSink →
      Stepped s { turned s with sink := { s.sink with done := true } }
  | hostCmd (c : List Byte) (cs : List (List Byte)) (t : State) : (nextTurn s).1 = .hostCmd → s.op = .none →
      s.script.cmdIn = c :: cs → issueCommand c { turned s with script := { (turned s).script with cmdIn := cs } } = .next t →
      Stepped s t
  | hostDrain (c : List Byte) (cs : List (List Byte)) (t : State) : (nextTurn s).1 = .hostDrain →
      issueDrain c { turned s with script := { (turned s).script with drainIn := cs } } = .next t → Stepped s t
  | pumpEmpty (p : Byte) : (nextTurn s).1 = .block → s.op = .pump → s.phase = .start → s.rxFifo = [] →
      Stepped s (completeCmd [p, errorByte .noChar] (setError .noChar (turned s)))
  | consume (b : Byte) (r : List Byte) (t : State) : (nextTurn s).1 = .block → s.rxFifo = b :: r →
      (s.op = .pump ∧ s.phase = .start ∨ (s.op = .wait ∨ s.op = .tx) ∧ s.phase = .loop ∧ top s ≠ .idle) →
      consumeByte b r (turned s) = .next t → Stepped s t
  | waitDone : (nextTurn s).1 = .block → (s.op = .wait ∨ s.op = .tx) → s.phase = .loop → top s = .idle →
      Stepped s (finishWait (turned s))
  | waitTimeout : (nextTurn s).1 = .block → (s.op = .wait ∨ s.op = .tx) → s.phase = .loop → top s ≠ .idle →
      s.rxFifo = [] → elapsed s = true → Stepped s (finishWait (setError .timeout (turned s)))
  | mgSink : (nextTurn s).1 = .block → s.op ≠ .none → s.phase = .mgSink → s.sink.done = true →
      Stepped s { turned s with sink := { s.sink with done := false }, phase := .mgCsum }
  | mgDiscard (b : Byte) (r : List Byte) : (nextTurn s).1 = .block → s.op ≠ .none → s.phase = .mgDiscard →
      s.rxFifo = b :: r →
      Stepped s { turned s with
        rxFifo := r
        magic := { s.magic with remain := s.magic.remain - 1 }
        phase := if s.magic.remain - 1 = 0 then .mgCsum else .mgDiscard }
  | mgCsum (b : Byte) (r : List Byte) : (nextTurn s).1 = .block → s.op ≠ .none → s.phase = .mgCsum →
      s.rxFifo = b :: r → Stepped s (pumpDone (pop { turned s with rxFifo := r }))

/-- `TOP` depends on the stack alone. -/
theorem top_congr {s t : State} (h : t.link = s.link) : top t = top s := by unfold top; rw [h]

theorem top_turned (s : State) : top (turned s) = top s := by simp [top]

theorem elapsed_turned (s : State) : elapsed (turned s) = elapsed s := by simp [elapsed]

theorem loopStep_stepped (s t : State) (hb : (nextTurn s).1 = .block) (ho : s.op = .wait ∨ s.op = .tx)
    (hp : s.phase = .loop) (h : loopStep (turned s) = .next t) : Stepped s t := by
  unfold loopStep at h
  rw [top_turned] at h
  split at h
  · rename_i hi; simp only [Host.Outcome.next.injEq] at h; subst h; exact .waitDone hb ho hp hi
  rename_i hi
  split at h
  · rename_i b r hr
    exact .consume b r t hb (by simpa using hr) (.inr ⟨ho, hp, hi⟩) h
  · rename_i hr
    rw [elapsed_turned] at h
    split at h
    · rename_i he
      simp only [Host.Outcome.next.injEq] at h; subst h
      exact .waitTimeout hb ho hp hi (by simpa using hr) he
    · simp only [Host.Outcome.next.injEq] at h; subst h; exact .idle

theorem blockStep_stepped (s t : State) (hb : (nextTurn s).1 = .block) (h : blockStep (turned s) = .next t) :
    Stepped s t := by
  have mgS : s.op ≠ .none → s.phase = .mgSink → Stepped s (mgSinkStep (turned s)) := by
    intro ho hp
    unfold mgSinkStep
    split
    · rename_i hd
      have := Stepped.mgSink hb ho hp (by simpa using hd)
      simpa using this
    · exact .idle
  have mgD : s.op ≠ .none → s.phase = .mgDiscard → Stepped s (mgDiscardStep (turned s)) := by
    intro ho hp
    unfold mgDiscardStep
    split
    · exact .idle
    · rename_i b r hr
      have := Stepped.mgDiscard b r hb ho hp (by simpa using hr)
      simpa using this
  have mgC : s.op ≠ .none → s.phase = .mgCsum → Stepped s (mgCsumStep (turned s)) := by
    intro ho hp
    unfold mgCsumStep
    split
    · exact .idle
    · rename_i b r hr
      exact .mgCsum b r hb ho hp (by simpa using hr)
  unfold blockStep at h
  have e1 : (turned s).op = s.op := by simp
  have e2 : (turned s).phase = s.phase := by simp
  rw [e1, e2] at h
  cases ho : s.op <;> cases hp : s.phase <;> simp only [ho, hp, Host.Outcome.next.injEq] at h
  case pump.start =>
    unfold pumpStart at h
    split at h
    · rename_i hr
      simp only [Host.Outcome.next.injEq] at h
      subst h
      exact .pumpEmpty _ hb ho hp (by simpa using hr)
    · rename_i b r hr
      exact .consume b r t hb (by simpa using hr) (.inl ⟨ho, hp⟩) h
  case wait.loop => exact loopStep_stepped s t hb (.inl ho) hp h
  case tx.loop => exact loopStep_stepped s t hb (.inr ho) hp h
  all_goals subst h
  all_goals
    first
    | exact .idle
    | exact mgS (by simp [ho]) hp
    | exact mgD (by simp [ho]) hp
    | exact mgC (by simp [ho]) hp

/-- The inversion of `step`. -/
theorem step_stepped (s t : State) (h : step s = .next t) : s.fault = false ∧ Stepped s t := by
  unfold step at h
  split at h
  · cases h
  rename_i hf
  refine ⟨by simpa using hf, ?_⟩
  change takeTurn (nextTurn s).1 (turned s) = .next t at h
  cases ht : (nextTurn s).1 <;> simp only [ht, takeTurn] at h
  case hostCmd =>
    unfold hostCmdStep at h
    split at h
    · rename_i ho
      split at h
      · simp only [Host.Outcome.next.injEq] at h; subst h; exact .idle
      · rename_i c cs hc
        refine .hostCmd c cs t ht (by simpa using ho) ?_ h
        have : (turned s).script.cmdIn = s.script.cmdIn := by unfold turned nextTurn; split <;> rfl
        rw [← this]; exact hc
    · simp only [Host.Outcome.next.injEq] at h; subst h; exact .idle
  case hostDrain =>
    unfold hostDrainStep at h
    split at h
    · simp only [Host.Outcome.next.injEq] at h; subst h; exact .idle
    · rename_i c cs hc
      exact .hostDrain c cs t ht h
  case peer =>
    simp only [Host.Outcome.next.injEq] at h; subst h
    unfold peerStep
    split
    · exact .idle
    · rename_i b bs hp
      have : (turned s).script.peerIn = s.script.peerIn := by unfold turned nextTurn; split <;> rfl
      simpa using Stepped.peer b bs ht (by rw [← this]; exact hp)
  case clock =>
    simp only [Host.Outcome.next.injEq] at h; subst h
    simpa [clockStep] using Stepped.clock ht
  case sinkRead =>
    simp only [Host.Outcome.next.injEq] at h; subst h
    unfold sinkReadStep
    split
    · rename_i ha
      split
      · exact .idle
      · rename_i b r hr
        have hp : s.phase = .mgSink := by simp [sinkActive] at ha; exact ha.1
        simpa using Stepped.sinkRead b r ht hp (by simpa using hr)
    · exact .idle
  case sinkDone =>
    simp only [Host.Outcome.next.injEq] at h; subst h
    unfold sinkDoneStep
    split
    · rename_i ha
      have hp : s.phase = .mgSink := by simp [sinkActive] at ha; exact ha.1
      simpa using Stepped.sinkDone ht hp
    · exact .idle
  case block => exact blockStep_stepped s t ht h

end Sys2Proof.Machine
end

