-- ==== Sys2Proof/Laws/Assembler.lean ====
section
/-! SUPPORT. The host loops of R88: what one drain command, waiting for the command port, one host command and
`POLL` can do. -/

namespace Sys2Proof.Machine

/-- The `DEQUEUE` of `DRAIN` is the instruction's meaning, in every state that is not faulted. -/
theorem drainCall_dequeue (c : Codes) (s : State) (h : s.fault = false) :
    drainCall (encode c .dequeue) s = exec .dequeue s := by
  simp only [drainCall, h]; rfl

/-- A faulted state has no step for a drain command. -/
theorem drainCall_faulted {c : List Byte} {s : State} (h : s.fault = true) :
    drainCall c s = .fault (.stopped s.faultKind) := by
  simp [drainCall, h]

/-- With the port free there is nothing to wait for. -/
@[simp] theorem awaitPort_idle (steps : Nat) (s : State) (h : s.op = .none) : awaitPort steps s = .next s := by
  cases steps <;> simp [awaitPort, h]

/-- While an operation is in progress, waiting is one step and waiting on. -/
theorem awaitPort_busy {steps : Nat} {s t : State} (h : s.op ≠ .none) (hs : step s = .next t) :
    awaitPort (steps + 1) s = awaitPort steps t := by
  simp [awaitPort, h, hs]

/-- Waiting for the port is a run of the machine: it ends with the port free, or after all its steps. -/
theorem awaitPort_run : ∀ (steps : Nat) (s t : State), awaitPort steps s = .next t →
    ∃ k ≤ steps, Host.Core.run core k s = .next t ∧ (t.op = .none ∨ k = steps) := by
  intro steps
  induction steps with
  | zero => intro s t h; exact ⟨0, Nat.le_refl _, h, .inr rfl⟩
  | succ n ih =>
    intro s t h
    by_cases ho : s.op = .none
    · rw [awaitPort_idle _ _ ho] at h
      cases h
      exact ⟨0, Nat.zero_le _, rfl, .inl ho⟩
    · simp only [awaitPort, ho, if_false] at h
      split at h
      · rename_i u hu
        obtain ⟨k, hk, hr, he⟩ := ih u t h
        refine ⟨k + 1, by omega, ?_, he.imp id (by omega)⟩
        have hs : core.step s = .next u := hu
        simp only [Host.Core.run, hs]
        exact hr
      · cases h
      · cases h

/-- At a free port of an unfaulted block a host command is its issue, run to its response. -/
theorem hostCall_idle {steps : Nat} {c : List Byte} {s u : State} (hf : s.fault = false) (ho : s.op = .none)
    (hu : issueCommand c s = .next u) : hostCall steps c s = awaitPort steps u := by
  simp [hostCall, ho, hf, hu]

/-- `POLL` ends at the first response with `P[0] = 0`, or is out of turns or of steps. -/
theorem pollLoop_end : ∀ (steps fuel : Nat) (s t : State), pollLoop steps (fuel + 1) s = .next t →
    pumpedByte t = false ∨ ∃ u, pollLoop steps fuel u = .next t ∧ pumpedByte u = true := by
  intro steps fuel s t h
  simp only [pollLoop] at h
  split at h
  · rename_i u hu
    split at h
    · rename_i hp; exact .inr ⟨u, h, hp⟩
    · rename_i hp; cases h; exact .inl (by simpa using hp)
  · cases h
  · cases h

end Sys2Proof.Machine
end

