-- ==== Sys2Proof/Laws/Ends.lean ====
section
/-! SUPPORT. The ends of a run (R264): a held state stays held, and what `endState` answers. -/

namespace Sys2Proof.Machine

/-- Whether `BLOCK` has an enabled step depends on the operation, the stack, the input, the clock and the sink alone. -/
theorem blockEnabled_congr {s t : State} (ho : t.op = s.op) (hp : t.phase = s.phase) (hl : t.link = s.link)
    (hr : t.rxFifo = s.rxFifo) (hn : t.now = s.now) (hd : t.deadline = s.deadline) (hs : t.sink.done = s.sink.done) :
    blockEnabled t = blockEnabled s := by
  simp only [blockEnabled, elapsed, ho, hp, top_congr hl, hr, hn, hd, hs]

/-- In `MG_SINK` only `SINK_DONE` enables the block. -/
theorem blockEnabled_mgSink {s : State} (ho : s.op ≠ .none) (hp : s.phase = .mgSink) : blockEnabled s = s.sink.done := by
  cases h : s.op <;> simp_all [blockEnabled]

/-- In `START` only a `PUMP` has a step. -/
theorem blockEnabled_start {s : State} (hp : s.phase = .start) : blockEnabled s = decide (s.op = .pump) := by
  cases h : s.op <;> simp [blockEnabled, h, hp]

/-- The turn taken is the head of the script's turns, or `BLOCK`'s. -/
theorem turned_script (s : State) :
    (turned s).script.turns = s.script.turns.tail ∧ (turned s).script.peerIn = s.script.peerIn
      ∧ ((nextTurn s).1 = .block ∨ (nextTurn s).1 ∈ s.script.turns) := by
  unfold turned nextTurn
  cases h : s.script.turns <;> simp [h]

/-- What *held* means. -/
theorem held_iff (s : State) : held s = true ↔
    s.op ≠ .none ∧ s.fault = false ∧ blockEnabled s = false ∧ ∀ x ∈ s.script.turns, couldLift x s = false := by
  simp [held, holding, and_assoc]

/-- A held block stays held: "the state is stuck with the command port busy" (R264), and no command is answered. -/
theorem held_step {s t : State} (h : held s = true) (hst : step s = .next t) :
    held t = true ∧ t.op = s.op ∧ t.phase = s.phase ∧ t.respCmd = s.respCmd := by
  obtain ⟨ho, -, hb, hno⟩ := (held_iff s).1 h
  obtain ⟨hf, st⟩ := step_stepped s t hst
  obtain ⟨ht, hpeer, hmem⟩ := turned_script s
  -- a step that leaves the operation and its hold leaves a held state
  have keep : ∀ u : State, u.op = s.op → u.phase = s.phase → u.fault = s.fault → u.respCmd = s.respCmd →
      blockEnabled u = false → u.script.turns = s.script.turns.tail →
      (∀ x, couldLift x s = false → couldLift x u = false) →
      held u = true ∧ u.op = s.op ∧ u.phase = s.phase ∧ u.respCmd = s.respCmd := by
    intro u h1 h2 h3 h4 h5 h6 h7
    refine ⟨(held_iff u).2 ⟨h1 ▸ ho, h3.trans hf, h5, fun x hx => h7 x ?_⟩, h1, h2, h4⟩
    exact hno x (List.mem_of_mem_tail (h6 ▸ hx))
  -- a step that the script gives is none that could lift the hold
  have lift : ∀ x, (nextTurn s).1 = x → x ≠ .block → couldLift x s = false := fun x hx hx' =>
    hno x (hmem.elim (fun hm => absurd (hx ▸ hm) hx') (fun hm => hx ▸ hm))
  cases st with
  | idle =>
    refine keep (turned s) (by simp) (by simp) (by simp) (by simp) ?_ ht (by simp [couldLift, hpeer])
    rw [← hb]; exact blockEnabled_congr (by simp) (by simp) (by simp) (by simp) (by simp) (by simp) (by simp)
  | clock hx =>
    have hl := lift _ hx (by simp)
    have hph : s.phase ≠ .loop := fun hp => by simp [couldLift, hp] at hl
    refine keep _ (by simp) (by simp) (by simp) (by simp) ?_ ht (by simp [couldLift, hpeer])
    revert hb
    cases hop : s.op <;> cases hp : s.phase <;> simp_all [blockEnabled]
  | peer b bs hx hp =>
    have hl := lift _ hx (by simp)
    have hph : s.phase = .start ∨ s.phase = .mgSink := by
      cases hph : s.phase <;> simp [couldLift, hph, hp] at hl <;> simp
    rcases hph with hph | hph
    · refine keep _ (by simp) (by simp) (by simp) (by simp) ?_ ht (by simp [couldLift, hph])
      rw [blockEnabled_start (by simpa using hph)]
      rw [blockEnabled_start hph] at hb
      simpa using hb
    · refine keep _ (by simp) (by simp) (by simp) (by simp) ?_ ht (by simp [couldLift, hph])
      rw [blockEnabled_mgSink (by simpa using ho) (by simpa using hph)]
      rw [blockEnabled_mgSink ho hph] at hb
      simpa using hb
  | sinkRead b r hx hp hr =>
    refine keep _ (by simp) (by simp) (by simp) (by simp) ?_ ht (by simp [couldLift, hpeer])
    rw [blockEnabled_mgSink (by simpa using ho) (by simpa using hp)]
    rw [blockEnabled_mgSink ho hp] at hb
    simpa using hb
  | sinkDone hx hp =>
    have hl := lift _ hx (by simp)
    simp [couldLift, hp] at hl
  | hostCmd c cs t hx hn => exact absurd hn ho
  | hostDrain c cs t hx hi =>
    obtain ⟨r, rfl | ⟨-, rfl⟩⟩ := issueDrain_cases _ _ _ hi
    all_goals
      refine keep _ (by simp [respondDrain, dropOldest]) (by simp [respondDrain, dropOldest])
        (by simp [respondDrain, dropOldest]) (by simp [respondDrain, dropOldest]) ?_
        (by simp [respondDrain, dropOldest, ht]) (by simp [respondDrain, dropOldest, couldLift, hpeer])
      rw [← hb]
      apply blockEnabled_congr <;> simp [respondDrain, dropOldest]
  | pumpEmpty p hx h1 h2 => simp [blockEnabled, h1, h2] at hb
  | consume b r t hx hr hc =>
    obtain ⟨h1, h2⟩ | ⟨h1 | h1, h2, -⟩ := hc <;> simp [blockEnabled, h1, h2, hr] at hb
  | waitDone hx h1 h2 h3 => obtain h1 | h1 := h1 <;> simp [blockEnabled, h1, h2, h3] at hb
  | waitTimeout hx h1 h2 h3 h4 h5 => obtain h1 | h1 := h1 <;> simp [blockEnabled, h1, h2, h5] at hb
  | mgSink hx h1 h2 h3 => simp [blockEnabled_mgSink h1 h2, h3] at hb
  | mgDiscard b r hx h1 h2 h3 => cases hop : s.op <;> simp_all [blockEnabled]
  | mgCsum b r hx h1 h2 h3 => cases hop : s.op <;> simp_all [blockEnabled]

/-- A held run has no end state: the program never becomes quiescent again. -/
theorem endState_of_held : ∀ (fuel : Nat) (s : State), held s = true → endState fuel s = none := by
  intro fuel
  induction fuel with
  | zero => intro s h; simp [endState, programEnded, quiescent, ((held_iff s).1 h).1]
  | succ n ih =>
    intro s h
    simp only [endState, programEnded, quiescent, ((held_iff s).1 h).1, decide_false, Bool.false_and, Bool.false_eq_true,
      if_false]
    split
    · rename_i t hst; exact ih t (held_step h hst).1
    · rfl
    · rfl

/-- The end state of a program is quiescent, with every command and directive played. -/
theorem endState_ended : ∀ (fuel : Nat) (s t : State), endState fuel s = some t → programEnded t = true := by
  intro fuel
  induction fuel with
  | zero => intro s t h; simp [endState] at h; exact h.2 ▸ h.1
  | succ n ih =>
    intro s t h
    simp only [endState] at h
    split at h
    · rename_i he; cases h; exact he
    · split at h
      · exact ih _ _ h
      · cases h
      · cases h

end Sys2Proof.Machine
end

