-- ==== Sys2Proof/Laws/Invariant.lean ====
section
/-! SUPPORT. Each operation keeps the invariants of Safety.lean: the stack, the accumulator, the queue and its list of live
entries, and the sequencing of `OP` and `PHASE`. -/

namespace Sys2Proof.Machine

/-! ### An invariant depends only on the fields it names -/

theorem LinkInv.congr {s t : State} (h : LinkInv s) (hl : t.link = s.link := by simp)
    (hc : t.cfg = s.cfg := by simp) : LinkInv t := by
  constructor
  · rw [hl, hc]; exact h.length
  · rw [hl]; exact h.depthLow
  · rw [hl, hc]; exact h.depthTop
  · rw [hl]; exact h.base
  · rw [hl]; exact h.entries

theorem AccInv.congr {s t : State} (h : AccInv s) (ha : t.acc = s.acc := by simp) : AccInv t := by
  unfold AccInv; rw [ha]; exact h

theorem QueueInv.congr {s t : State} (h : QueueInv s) (hq : t.queue = s.queue := by simp)
    (hc : t.cfg = s.cfg := by simp) : QueueInv t := by
  have he : liveEntry t = liveEntry s := by funext i; simp [liveEntry, hq, hc]
  constructor
  · rw [hq, hc]; exact h.length
  · rw [hq, hc]; exact h.margin
  · rw [hq, hc]; exact h.readIdx
  · rw [hq, hc]; exact h.writeIdx
  · rw [hq, he]; exact h.distinct

/-! ### The constraints of R8 -/

/-- `STACK_DEPTH` is 1 to 255. -/
theorem stackDepth_range (s : State) : 1 ≤ s.cfg.val.stackDepth ∧ s.cfg.val.stackDepth ≤ 255 := by
  have := s.cfg.property
  simp [Params.valid] at this
  exact this.1.1.2

/-- `Q_CAP` is a power of two from 4 to 128. -/
theorem qCap_mem (s : State) : s.cfg.val.qCap ∈ [4, 8, 16, 32, 64, 128] := by
  have := s.cfg.property
  simp only [Params.valid, Params.qCapOk, Bool.and_eq_true, decide_eq_true_eq] at this
  exact this.1.1.1.2

theorem qCap_range (s : State) : 4 ≤ s.cfg.val.qCap ∧ s.cfg.val.qCap ≤ 128 := by
  have := qCap_mem s
  simp at this; omega

/-- `TIMEOUT_MS` is below 2^31. -/
theorem timeoutMs_lt (s : State) : s.cfg.val.timeoutMs < 2147483648 := by
  have := s.cfg.property
  simp [Params.valid] at this
  exact this.1.2

/-! ### The stack -/

/-- `Resync` keeps the stack invariant. -/
theorem LinkInv.resync {s : State} (h : LinkInv s) : LinkInv (resyncLink s) := by
  have := stackDepth_range s
  have hl := h.length
  constructor
  · simp [hl]
  · simp
  · simp; omega
  · simp
    have : 0 < s.link.ls.length := by omega
    simp [this]
  · intro i h1 h2; simp at h2; omega

/-- Reading a list away from the place written. -/
theorem getD_set_ne {α : Type} (l : List α) (i j : Nat) (a d : α) (h : i ≠ j) : (l.set i a).getD j d = l.getD j d := by
  simp [List.getD_eq_getElem?_getD, h]

/-- Reading a list at the place written. -/
theorem getD_set_eq {α : Type} (l : List α) (i : Nat) (a d : α) (h : i < l.length) : (l.set i a).getD i d = a := by
  simp [List.getD_eq_getElem?_getD, h]

/-- A push of one of the codes 1 to 6 keeps the stack invariant. -/
theorem LinkInv.pushEntry {s : State} (h : LinkInv s) (w : LinkState) (hw : pushable w = true)
    (hf : stackFull s = false) : LinkInv (pushEntry w s) := by
  have hp := stackDepth_range s
  have hd := h.depthTop
  have hlow := h.depthLow
  have hf' : s.link.depth.toNat ≠ s.cfg.val.stackDepth := by simpa [stackFull] using hf
  have hsucc : (s.link.depth + 1).toNat = s.link.depth.toNat + 1 := by
    rw [BitVec.toNat_add]; simp; omega
  constructor
  · simp [h.length]
  · simp only [pushEntry_fields, hsucc]; omega
  · simp only [pushEntry_fields, hsucc]; omega
  · simp only [pushEntry_fields]
    rw [getD_set_ne _ _ _ _ _ (by omega)]; exact h.base
  · intro i h1 h2
    simp only [pushEntry_fields, hsucc] at h2 ⊢
    by_cases hi : s.link.depth.toNat = i
    · subst hi; rw [getD_set_eq _ _ _ _ (by rw [h.length]; omega)]; exact hw
    · rw [getD_set_ne _ _ _ _ _ hi]; exact h.entries i h1 (by omega)

/-- `Pop` keeps the stack invariant. -/
theorem LinkInv.pop {s : State} (h : LinkInv s) : LinkInv (pop s) := by
  have hd := h.depthTop
  have hlow := h.depthLow
  have hdep : (Machine.pop s).link.depth.toNat ≤ s.link.depth.toNat ∧ 1 ≤ (Machine.pop s).link.depth.toNat := by
    rw [pop_depth]; split
    · rename_i h1
      have : (s.link.depth - 1).toNat = s.link.depth.toNat - 1 := by
        rw [BitVec.toNat_sub]; simp; have := s.link.depth.isLt; omega
      omega
    · omega
  constructor
  · simp [h.length]
  · exact hdep.2
  · simp; omega
  · rw [pop_ls]; exact h.base
  · intro i h1 h2; rw [pop_ls]; exact h.entries i h1 (by omega)

/-- `Replace` over `WaitReportHeader` keeps the stack invariant. -/
theorem LinkInv.replace {s : State} (h : LinkInv s) (ht : top s = .waitReportHeader) :
    LinkInv (replaceTop .receivingReport s) := by
  have hlow := h.depthLow
  have hd := h.depthTop
  have hl := h.length
  have h2 : s.link.depth.toNat ≠ 1 := by
    intro h1
    have hb := h.base
    simp [top, h1] at ht
    have : s.link.ls.getD 0 .shutdown = s.link.ls.getD 0 .idle := by
      have := stackDepth_range s
      rw [List.getD_eq_getElem _ _ (by omega), List.getD_eq_getElem _ _ (by omega)]
    simp only [List.getD_eq_getElem?_getD] at this hb
    rw [this, ht] at hb; cases hb
  constructor
  · simp [replaceTop, hl]
  · simpa [replaceTop] using hlow
  · simpa [replaceTop] using hd
  · simp only [replaceTop, enterReceiving_fields]
    rw [getD_set_ne _ _ _ _ _ (by omega)]; exact h.base
  · intro i h1 hi
    simp only [replaceTop, enterReceiving_fields] at hi ⊢
    by_cases he : s.link.depth.toNat - 1 = i
    · subst he; rw [getD_set_eq _ _ _ _ (by omega)]; rfl
    · rw [getD_set_ne _ _ _ _ _ he]; exact h.entries i h1 hi

/-! ### The accumulator -/

theorem xorBytes_append (a b : List Byte) : xorBytes (a ++ b) = xorBytes a ^^^ xorBytes b := by
  induction a with
  | nil => simp [xorBytes]
  | cons x xs ih => simp [xorBytes, ih, BitVec.xor_assoc]

/-- Storing a byte extends the XOR of the bytes received. -/
theorem acc_store (f : Frame) (k : Fin 7) (b : Byte) (h : k.val < 6) :
    xorBytes ((frameBytes (setFrameByte f k b)).take (k.val + 1)) = xorBytes ((frameBytes f).take k.val) ^^^ b := by
  have : k = 0 ∨ k = 1 ∨ k = 2 ∨ k = 3 ∨ k = 4 ∨ k = 5 := by
    rcases k with ⟨k, hk⟩
    simp [Fin.ext_iff] at *
    omega
  rcases this with rfl | rfl | rfl | rfl | rfl | rfl <;> simp [setFrameByte, frameBytes, xorBytes, BitVec.xor_assoc]

/-- Storing a byte keeps the accumulator invariant. -/
theorem AccInv.store {s : State} (h : AccInv s) (b : Byte) (hk : s.acc.count.val < 6) : AccInv (storeByte b s) := by
  unfold AccInv at *
  simp only [storeByte_fields]
  rw [count_succ _ hk, acc_store _ _ _ hk, h]

/-- A cleared accumulator satisfies its invariant. -/
theorem AccInv.zero {s : State} (h : s.acc.count = 0) (h2 : s.acc.cs = 0) : AccInv s := by
  unfold AccInv; simp [h, h2, xorBytes]

/-! ### The queue -/

/-- `Resync` keeps the queue invariant. -/
theorem QueueInv.resync {s : State} (h : QueueInv s) : QueueInv (resyncLink s) := by
  have := qCap_range s
  constructor
  · simp [h.length]
  · simp
  · simp; omega
  · simp
  · intro i j _ hj; simp at hj

/-- Freeing the oldest slot keeps the queue invariant. -/
theorem QueueInv.drop {s : State} (h : QueueInv s) (hc : s.queue.count ≠ 0) : QueueInv (dropOldest s) := by
  have hq := qCap_range s
  have hcnt : (s.queue.count - 1).toNat = s.queue.count.toNat - 1 := by
    have : s.queue.count.toNat ≠ 0 := fun h => hc (BitVec.eq_of_toNat_eq (by simpa using h))
    rw [BitVec.toNat_sub]; simp; have := s.queue.count.isLt; omega
  have hpos : 0 < s.queue.count.toNat := by
    have : s.queue.count.toNat ≠ 0 := fun h => hc (BitVec.eq_of_toNat_eq (by simpa using h))
    omega
  have hm : s.queue.count.toNat ≤ s.cfg.val.qCap - 2 := h.margin
  have he : ∀ i, liveEntry (dropOldest s) i = liveEntry s (i + 1) := by
    intro i; simp only [liveEntry, dropOldest_fields]
    congr 1
    rw [Nat.mod_add_mod]; congr 1; omega
  constructor
  · simp [h.length]
  · simp only [dropOldest_fields, hcnt, qMargin]; omega
  · simp; exact Nat.mod_lt _ (by omega)
  · simp only [dropOldest_fields, hcnt]
    rw [h.writeIdx, Nat.mod_add_mod]; congr 1; omega
  · intro i j hij hj
    simp only [dropOldest_fields, hcnt] at hj
    rw [he, he]; exact h.distinct _ _ (by omega) (by omega)

/-- The `k`-th slot back from `Q_WR` holds the `k`-th newest live entry. -/
theorem slotBefore_eq {s : State} (h : QueueInv s) (k : Nat) (h1 : 1 ≤ k) (h2 : k ≤ s.queue.count.toNat) :
    slotBefore s k = (s.queue.rd + (s.queue.count.toNat - k)) % s.cfg.val.qCap := by
  have hq := qCap_range s
  have hm : s.queue.count.toNat ≤ s.cfg.val.qCap - 2 := h.margin
  unfold slotBefore
  rw [h.writeIdx, Nat.mod_eq_of_lt (a := k) (by omega)]
  obtain ⟨n, hn⟩ : ∃ n, s.queue.rd + s.queue.count.toNat = n := ⟨_, rfl⟩
  have hmod := Nat.div_add_mod n s.cfg.val.qCap
  have hlt := Nat.mod_lt n (y := s.cfg.val.qCap) (by omega)
  rw [show s.queue.rd + (s.queue.count.toNat - k) = n - k by omega, hn]
  have : n % s.cfg.val.qCap + s.cfg.val.qCap - k + s.cfg.val.qCap * (n / s.cfg.val.qCap) = n - k + s.cfg.val.qCap := by omega
  rw [← Nat.add_mul_mod_self_left (n % s.cfg.val.qCap + s.cfg.val.qCap - k) s.cfg.val.qCap (n / s.cfg.val.qCap), this,
    Nat.add_mod_right]

theorem sameId_congr_left {f f' g : Frame} (h : f.cmd = f'.cmd ∧ f.obj = f'.obj ∧ f.idx = f'.idx) :
    sameIdentity f g = sameIdentity f' g := by simp [sameIdentity, h]
theorem sameId_symm (f g : Frame) : sameIdentity f g = sameIdentity g f := by
  simp [sameIdentity, eq_comm]
theorem sameId_eq {f g : Frame} : sameIdentity f g = true ↔ f.cmd = g.cmd ∧ f.obj = g.obj ∧ f.idx = g.idx := by simp [sameIdentity]

/-- The slot the scan finds is a live entry's, of the same identity. -/
theorem matching_some {s : State} (h : QueueInv s) {f : Frame} {j : Nat} (hm : matchingSlot f s = some j) :
    ∃ i, i < s.queue.count.toNat ∧ j = (s.queue.rd + i) % s.cfg.val.qCap ∧ sameIdentity (liveEntry s i) f = true := by
  unfold matchingSlot at hm
  have h1 := List.find?_some hm
  have h2 := List.mem_of_find?_eq_some hm
  simp only [List.mem_map, List.mem_range'_1] at h2
  obtain ⟨k, hk, rfl⟩ := h2
  refine ⟨s.queue.count.toNat - k, by omega, slotBefore_eq h k (by omega) (by omega), ?_⟩
  unfold liveEntry
  rw [← slotBefore_eq h k (by omega) (by omega)]; exact h1

/-- A scan that finds nothing has seen every live entry. -/
theorem matching_none {s : State} (h : QueueInv s) {f : Frame} (hm : matchingSlot f s = none) :
    ∀ i, i < s.queue.count.toNat → sameIdentity (liveEntry s i) f = false := by
  intro i hi
  unfold matchingSlot at hm
  rw [List.find?_eq_none] at hm
  have := hm (slotBefore s (s.queue.count.toNat - i)) (by
    simp only [List.mem_map, List.mem_range'_1]
    exact ⟨_, by omega, rfl⟩)
  rw [slotBefore_eq h _ (by omega) (by omega)] at this
  rw [show s.queue.count.toNat - (s.queue.count.toNat - i) = i by omega] at this
  simpa [liveEntry] using this

/-- Live entries lie in distinct slots. -/
theorem slot_inj {s : State} (h : QueueInv s) {i j : Nat} (hi : i < s.cfg.val.qCap) (hj : j < s.cfg.val.qCap)
    (e : (s.queue.rd + i) % s.cfg.val.qCap = (s.queue.rd + j) % s.cfg.val.qCap) : i = j := by
  have h1 := h.readIdx
  have aux : ∀ m c : Nat, m < 2 * c → 0 < c → m % c = if m < c then m else m - c := by
    intro m c hm hc
    split
    · exact Nat.mod_eq_of_lt ‹_›
    · rw [Nat.mod_eq_sub_mod (by omega), Nat.mod_eq_of_lt (by omega)]
  rw [aux _ _ (by omega) (by omega), aux _ _ (by omega) (by omega)] at e
  split at e <;> split at e <;> omega

/-- Coalescing changes one live entry's data bytes. -/
theorem live_coalesce {s : State} (h : QueueInv s) {f : Frame} {k : Nat} (hk : k < s.queue.count.toNat) (i : Nat)
    (hi : i < s.queue.count.toNat) :
    liveEntry (coalesceInto ((s.queue.rd + k) % s.cfg.val.qCap) f s) i =
      if i = k then { liveEntry s k with dataHi := f.dataHi, dataLo := f.dataLo } else liveEntry s i := by
  have hq := qCap_range s
  have hm : s.queue.count.toNat ≤ s.cfg.val.qCap - 2 := h.margin
  simp only [liveEntry, coalesceInto_fields]
  split
  · subst i
    rw [getD_set_eq _ _ _ _ (by rw [h.length]; exact Nat.mod_lt _ (by omega))]
  · rename_i hne
    rw [getD_set_ne]
    intro e; exact hne (slot_inj h (by omega) (by omega) e).symm

/-- Coalescing keeps the queue invariant. -/
theorem QueueInv.coalesce {s : State} (h : QueueInv s) {f : Frame} {j : Nat} (hm : matchingSlot f s = some j) :
    QueueInv (coalesceInto j f s) := by
  obtain ⟨k, hk, rfl, hid⟩ := matching_some h hm
  constructor
  · simp [h.length]
  · simpa using h.margin
  · simpa using h.readIdx
  · simpa using h.writeIdx
  · intro i i' hii hi'
    simp only [coalesceInto_fields] at hi'
    rw [live_coalesce h hk _ (by omega), live_coalesce h hk _ hi']
    have := h.distinct i i' hii hi'
    split <;> split <;> simp_all [sameIdentity]

/-- Appending adds one live entry after the others. -/
theorem live_append {s : State} (h : QueueInv s) {f : Frame} (hf : s.queue.count.toNat < s.cfg.val.qCap - 2) (i : Nat)
    (hi : i < s.queue.count.toNat + 1) :
    liveEntry (appendFrame f s) i = if i = s.queue.count.toNat then f else liveEntry s i := by
  have hq := qCap_range s
  simp only [liveEntry, appendFrame_fields]
  rw [h.writeIdx]
  split
  · subst i
    rw [getD_set_eq _ _ _ _ (by rw [h.length]; exact Nat.mod_lt _ (by omega))]
  · rename_i hne
    rw [getD_set_ne]
    intro e; exact hne (slot_inj h (by omega) (by omega) e).symm

/-- `Q_COUNT + 1` does not wrap below the margin. -/
theorem count_inc {s : State} (h : QueueInv s) (hf : s.queue.count.toNat < s.cfg.val.qCap - 2) :
    (s.queue.count + 1).toNat = s.queue.count.toNat + 1 := by
  have hq := qCap_range s
  have hm : s.queue.count.toNat ≤ s.cfg.val.qCap - 2 := h.margin
  have h1 : (1 : Byte).toNat = 1 := rfl
  rw [BitVec.toNat_add, h1]; exact Nat.mod_eq_of_lt (by omega)

/-- Appending an identity no live entry has keeps the queue invariant. -/
theorem QueueInv.append {s : State} (h : QueueInv s) {f : Frame} (hf : queueFull s = false) (hm : matchingSlot f s = none) :
    QueueInv (appendFrame f s) := by
  have hq := qCap_range s
  have hmar : s.queue.count.toNat ≤ s.cfg.val.qCap - 2 := h.margin
  have hf' : s.queue.count.toNat < s.cfg.val.qCap - 2 := by
    have hf0 : s.queue.count.toNat ≠ s.cfg.val.qCap - 2 := of_decide_eq_false hf
    omega
  have hc := count_inc h hf'
  constructor
  · simp [h.length]
  · simp only [appendFrame_fields, hc, qMargin]; omega
  · simpa using h.readIdx
  · simp only [appendFrame_fields, hc]
    rw [h.writeIdx, Nat.mod_add_mod]; congr 1
  · intro i j hij hj
    simp only [appendFrame_fields, hc] at hj
    rw [live_append h hf' _ (by omega), live_append h hf' _ hj]
    have hn := matching_none h hm
    rw [if_neg (by omega)]
    split
    · exact hn i (by omega)
    · exact h.distinct i j hij (by omega)

/-- `Enqueue` keeps the queue invariant. -/
theorem QueueInv.enqueue {s : State} (h : QueueInv s) (f : Frame) : QueueInv (enqueue f s) := by
  rcases enqueue_cases f s with ⟨-, e⟩ | ⟨-, j, hm, e⟩ | ⟨hf, hm, e⟩ <;> rw [e]
  · exact QueueInv.congr h (by simp) (by simp)
  · exact QueueInv.coalesce h hm
  · exact QueueInv.append h hf hm

/-! ### The whole invariant -/

/-- `OpInv` depends on `OP`, `PHASE`, the latch, the sink port, the discard counter and the stack. -/
theorem OpInv.congr {s t : State} (h : OpInv s) (e1 : t.op = s.op := by simp) (e2 : t.phase = s.phase := by simp)
    (e3 : t.tx = s.tx := by simp) (e4 : t.sink = s.sink := by simp) (e5 : t.magic = s.magic := by simp)
    (e6 : t.link = s.link := by simp) : OpInv t := by
  constructor
  · rw [e1, e2]; exact h.pumpPhase
  · rw [e1, e2]; exact h.loopPhase
  · rw [e1, e2]; exact h.idlePhase
  · rw [e1, e2, top_congr e6]; exact h.magicTop
  · rw [e5]; exact h.remaining
  · rw [e5, e2]; exact h.discarding
  · rw [e4, e2]; exact h.sinkDone
  · rw [e1, e3]; exact h.txPush
  · rw [e3]; exact h.txLength
  · rw [e3]; exact h.txChecksum

/-- Outside the magic phases `OpInv` does not depend on the stack. -/
theorem OpInv.congr_of_not_magic {s t : State} (h : OpInv s) (hm : magicPhase s.phase = false)
    (e1 : t.op = s.op := by simp) (e2 : t.phase = s.phase := by simp) (e3 : t.tx = s.tx := by simp)
    (e4 : t.sink = s.sink := by simp) (e5 : t.magic.remain.toNat ≤ 508 := by simp) : OpInv t := by
  constructor
  · rw [e1, e2]; exact h.pumpPhase
  · rw [e1, e2]; exact h.loopPhase
  · rw [e1, e2]; exact h.idlePhase
  · rw [e2, hm]; intro _ e; cases e
  · exact e5
  · rw [e2]; intro e; rw [e] at hm; cases hm
  · rw [e4, e2]; exact h.sinkDone
  · rw [e1, e3]; exact h.txPush
  · rw [e3]; exact h.txLength
  · rw [e3]; exact h.txChecksum

/-- With no operation in progress `OpInv` asks little. -/
theorem OpInv.completed {t : State} (e1 : t.op = .none) (e2 : t.phase ≠ .mgSink) (e3 : t.phase ≠ .mgDiscard)
    (e4 : t.magic.remain.toNat ≤ 508) (e5 : t.sink.done = false) (e6 : t.tx.frame.length ≤ 514)
    (e7 : xorBytes t.tx.frame = 0) : OpInv t := by
  constructor <;> simp_all

/-- `StatusInv` depends on the error, and on the fault. -/
theorem StatusInv.congr {s t : State} (h : StatusInv s) (e1 : t.lastError ≠ .noHandler)
    (e2 : t.fault = s.fault := by simp) (e3 : t.faultKind = s.faultKind := by simp) : StatusInv t :=
  ⟨e1, by rw [e2, e3]; exact h.faultKind, by rw [e3]; exact h.noShutdown⟩

/-- A step that writes none of the stack, the accumulator, the queue and the fault. -/
theorem Inv.congr {s t : State} (h : Inv s) (ho : OpInv t) (he : t.lastError ≠ .noHandler)
    (e1 : t.link = s.link := by simp) (e2 : t.cfg = s.cfg := by simp) (e3 : t.acc = s.acc := by simp)
    (e4 : t.queue = s.queue := by simp) (e5 : t.fault = s.fault := by simp)
    (e6 : t.faultKind = s.faultKind := by simp) : Inv t :=
  ⟨h.link.congr e1 e2, h.acc.congr e3, h.queue.congr e4 e2, ho, h.status.congr he e5 e6⟩

/-- The sink has signalled only in `MG_SINK`. -/
theorem Inv.sinkDone_false {s : State} (h : Inv s) (hp : s.phase ≠ .mgSink) : s.sink.done = false := by
  by_contra hne
  exact hp (h.op.sinkDone (by simpa using hne))

/-- In a state without a fault, `FAULT_KIND` is none. -/
theorem Inv.faultKind_none {s : State} (h : Inv s) (hf : s.fault = false) : s.faultKind = .none := by
  by_contra hne
  have := h.status.faultKind.2 hne
  rw [hf] at this; cases this

/-- `Shutdown` is never active (R22, R34). -/
theorem Inv.top_ne_shutdown {s : State} (h : Inv s) : top s ≠ .shutdown := by
  intro ht
  have hp := stackDepth_range s
  have h1 := h.link.depthLow
  have h2 := h.link.depthTop
  have h3 := h.link.length
  unfold top at ht
  rw [List.getD_eq_getElem _ _ (by omega)] at ht
  by_cases h0 : s.link.depth.toNat - 1 = 0
  · have hb := h.link.base
    rw [List.getD_eq_getElem _ _ (by omega)] at hb
    simp only [h0] at ht; rw [hb] at ht; cases ht
  · have := h.link.entries (s.link.depth.toNat - 1) (by omega) (by omega)
    rw [List.getD_eq_getElem _ _ (by omega), ht] at this; cases this

/-- `MG_REMAIN` is at most 508 (R25). -/
theorem discardCount_le (s : State) : (discardCount s).toNat ≤ 508 := by
  have := s.magic.len.isLt
  simp only [discardCount, unitBytes, BitVec.toNat_ofNat]
  refine le_trans (Nat.mod_le _ _) ?_
  split <;> omega

/-- A dispatch outside the magic phases keeps the invariant. -/
theorem Inv.dispatched {b : Byte} {s u : State} (h : Inv s) (hf : s.fault = false)
    (hm : magicPhase s.phase = false) (ho : s.op ≠ .none) (hd : Dispatched b s u) : Inv u := by
  have hr := h.op.remaining
  have hn := h.status.noHandler
  have hk := h.faultKind_none hf
  have hsd : s.sink.done = false := h.sinkDone_false (by intro e; rw [e] at hm; cases hm)
  cases hd with
  | eventLead hc hb hfull =>
    exact ⟨(h.link.pushEntry .receivingEvent rfl hfull).congr,
      AccInv.store (AccInv.zero (by simp) (by simp)) _ (by simp), h.queue.congr,
      h.op.congr_of_not_magic hm (e5 := by simpa using hr), h.status.congr (by simpa using hn)⟩
  | magicLead w hc hw hfull =>
    have hpw : pushable w = true := by rcases hw with ⟨rfl, -⟩ | ⟨rfl, -⟩ <;> rfl
    exact ⟨(h.link.pushEntry w hpw hfull).congr, h.acc.congr, h.queue.congr,
      h.op.congr_of_not_magic hm (e5 := by simpa using hr), h.status.congr (by simpa using hn)⟩
  | overflow hc hfull =>
    unfold overflowResync
    exact ⟨h.link.resync.congr, AccInv.zero (by simp) (by simp), h.queue.resync.congr,
      h.op.congr_of_not_magic hm, h.status.congr (by simpa using hn)⟩
  | ack ht hb =>
    exact ⟨h.link.pop, h.acc.congr, h.queue.congr, h.op.congr_of_not_magic hm (e5 := by simpa using hr),
      h.status.congr (by simpa using hn)⟩
  | nak ht hb =>
    exact ⟨h.link.pop.congr, h.acc.congr, h.queue.congr, h.op.congr_of_not_magic hm (e5 := by simpa using hr),
      h.status.congr (by simp)⟩
  | reportLead ht hb =>
    have hl := h.link.replace ht
    refine ⟨hl.congr, AccInv.store (AccInv.zero ?_ ?_) _ ?_, h.queue.congr ?_ ?_,
      h.op.congr_of_not_magic hm ?_ ?_ ?_ ?_ ?_, h.status.congr ?_ ?_ ?_⟩ <;> simp [replaceTop, hr, hn]
  | framing hc hb =>
    exact h.congr (h.op.congr_of_not_magic hm (e5 := by simpa using hr)) (by simp)
  | frameStale hc h6 =>
    exact ⟨h.link.congr, h.acc.congr, h.queue.congr, h.op.congr_of_not_magic hm (e5 := by simpa using hr),
      ⟨by simpa using hn, by simp, by simp⟩⟩
  | frameByte hc h5 =>
    exact ⟨h.link.congr, h.acc.store _ (by omega), h.queue.congr,
      h.op.congr_of_not_magic hm (e5 := by simpa using hr), h.status.congr (by simpa using hn)⟩
  | frameGood hc h5 hz =>
    have hne : (enqueue (storeByte b s).acc.buf (storeByte b s)).lastError ≠ .noHandler := by
      rcases enqueue_cases (storeByte b s).acc.buf (storeByte b s) with ⟨-, e⟩ | ⟨-, j, -, e⟩ | ⟨-, -, e⟩ <;>
        rw [e] <;> simp [hn]
    have hq : QueueInv (storeByte b s) := h.queue.congr
    have ha : AccInv (storeByte b s) := h.acc.store b (by omega)
    have hl : LinkInv (enqueue (storeByte b s).acc.buf (storeByte b s)) := h.link.congr
    exact ⟨hl.pop, ha.congr, (hq.enqueue (storeByte b s).acc.buf).congr,
      h.op.congr_of_not_magic hm (e5 := by simpa using hr), h.status.congr (by simpa using hne)⟩
  | frameBad hc h5 hz =>
    have hs : AccInv (storeByte b s) := h.acc.store b (by omega)
    rcases badChecksum_cases (storeByte b s) with e | e | e <;> rw [e]
    · exact ⟨h.link.congr, hs.congr, h.queue.congr, h.op.congr_of_not_magic hm (e5 := by simpa using hr),
        h.status.congr (by simp)⟩
    · exact ⟨h.link.congr, AccInv.zero (by simp) (by simp), h.queue.congr,
        h.op.congr_of_not_magic hm (e5 := by simpa using hr), h.status.congr (by simp)⟩
    · have hl : LinkInv (enterReceiving (setError .badChecksum (storeByte b s))) := h.link.congr
      exact ⟨hl.pop, AccInv.zero (by simp) (by simp), h.queue.congr,
        h.op.congr_of_not_magic hm (e5 := by simpa using hr), h.status.congr (by simp)⟩
  | headerCmd hg hc =>
    exact h.congr (h.op.congr_of_not_magic hm (e5 := by simpa using hr)) (by simpa using hn)
  | headerIdx hg hc =>
    exact h.congr (h.op.congr_of_not_magic hm (e5 := by simpa using hr)) (by simpa using hn)
  | headerSink hg hc =>
    refine h.congr ?_ (by simpa using hn)
    constructor <;> simp_all [h.op.txPush, h.op.txLength, h.op.txChecksum]
    intro _; simpa [top] using hg
  | headerDiscard hg hc =>
    refine h.congr ?_ (by simpa using hn)
    have hdc := discardCount_le { s with magic := { s.magic with len := b, cursor := 3 } }
    have o := h.op
    refine ⟨?_, ?_, ?_, ?_, by simpa using hdc, ?_, ?_, by simpa using o.txPush, by simpa using o.txLength,
      by simpa using o.txChecksum⟩
    · simp; split <;> simp
    · simp; split <;> simp
    · intro e; simp at e; exact absurd e ho
    · intro _ _; simpa [top] using hg
    · simp
    · simp [hsd]
  | headerStale hg hc =>
    exact ⟨h.link.congr, h.acc.congr, h.queue.congr, h.op.congr_of_not_magic hm (e5 := by simpa using hr),
      ⟨by simpa using hn, by simp, by simp⟩⟩
  | shutdown ht => exact absurd ht h.top_ne_shutdown

/-- `PumpDone` keeps the invariant. -/
theorem Inv.pumpDone {s : State} (h : Inv s) (h1 : s.phase ≠ .mgSink) (h2 : s.phase ≠ .mgDiscard) :
    Inv (pumpDone s) := by
  have o := h.op
  have hsd := h.sinkDone_false h1
  rcases pumpDone_cases s with ⟨hp, e⟩ | ⟨hp, e⟩ <;> rw [e]
  · exact h.congr (OpInv.completed (by simp) (by simpa using h1) (by simpa using h2) (by simpa using o.remaining)
      (by simpa using hsd) (by simpa using o.txLength) (by simpa using o.txChecksum))
      (by simpa using h.status.noHandler)
  · refine h.congr ?_ h.status.noHandler
    exact ⟨by simp [hp], by simp, by simp, by simp [magicPhase], o.remaining, by simp, by simp [hsd], o.txPush,
      o.txLength, o.txChecksum⟩

/-- The XOR of a whole transmitted frame is 0x00 (R181). -/
theorem xorBytes_txFrame (l : List Byte) : xorBytes (txFrame l) = 0 := by
  simp [txFrame, xorBytes_append, xorBytes]

/-- A push of a wait state outside the magic phases keeps the invariant. -/
theorem Inv.push {s : State} (h : Inv s) (w : LinkState) (hw : pushable w = true) (hne : w ≠ .receivingEvent)
    (hm : magicPhase s.phase = false) : Inv (push w s).2 := by
  have hn := h.status.noHandler
  rcases push_cases w s with ⟨-, e⟩ | ⟨-, e, -⟩ | ⟨hf, -, e⟩
  · rw [e]
    unfold overflowResync
    exact ⟨h.link.resync.congr, AccInv.zero (by simp) (by simp), h.queue.resync.congr,
      h.op.congr_of_not_magic hm, h.status.congr (by simpa using hn)⟩
  · exact absurd e hne
  · rw [e]
    exact ⟨h.link.pushEntry w hw hf, h.acc.congr, h.queue.congr,
      h.op.congr_of_not_magic hm (e5 := by simpa using h.op.remaining), h.status.congr (by simpa using hn)⟩

/-- The end of a wait keeps the invariant. -/
theorem Inv.finishWait {s : State} (h : Inv s) (ho : s.op = .wait ∨ s.op = .tx) (hp : s.phase = .loop) :
    Inv (finishWait s) := by
  have o := h.op
  have hn := h.status.noHandler
  have hsd : s.sink.done = false := h.sinkDone_false (by simp [hp])
  unfold Machine.finishWait
  split
  · unfold completeWithError
    exact h.congr (OpInv.completed (by simp) (by simp [hp]) (by simp [hp]) (by simpa using o.remaining)
      (by simpa using hsd) (by simpa using o.txLength) (by simpa using o.txChecksum)) (by simpa using hn)
  · rename_i hw
    have htx : s.op = .tx := by rcases ho with e | e; exact absurd e hw; exact e
    have hpush := o.txPush htx
    have hpw : pushable s.tx.push = true ∧ s.tx.push ≠ .receivingEvent := by
      rcases hpush with e | e <;> rw [e] <;> exact ⟨rfl, by simp⟩
    have h1 : Inv (transmitFrame s) := h.congr o.congr (by simpa using hn)
    have h2 := h1.push s.tx.push hpw.1 hpw.2 (by simp [hp, magicPhase])
    unfold txFinish completeWithError
    exact h2.congr (OpInv.completed (by simp) (by simp [hp]) (by simp [hp]) (by simpa using h2.op.remaining)
      (by simp [hsd]) (by simpa using o.txLength) (by simpa using o.txChecksum)) (by simpa using hn)

/-- The issue of a command keeps the invariant. -/
theorem Inv.issued {s t : State} (h : Inv s) (ho : s.op = .none) (hd : Issued s t) : Inv t := by
  have o := h.op
  have hi := o.idlePhase ho
  have hsd : s.sink.done = false := h.sinkDone_false hi.1
  have hn := h.status.noHandler
  cases hd with
  | illegal => exact h.congr o.congr (by simpa using hn)
  | pump =>
    refine h.congr ?_ (by simp)
    exact ⟨by simp, by simp, by simp, by simp [magicPhase], o.remaining, by simp, by simp [hsd], by simp, o.txLength,
      o.txChecksum⟩
  | waitIdle =>
    refine h.congr ?_ (by simp)
    exact ⟨by simp, by simp, by simp, by simp [magicPhase], o.remaining, by simp, by simp [hsd], by simp, o.txLength,
      o.txChecksum⟩
  | resync =>
    have hl : LinkInv (setError .none s) := h.link.congr
    have hq : QueueInv (setError .none s) := h.queue.congr
    exact ⟨hl.resync.congr, AccInv.zero (by simp) (by simp), hq.resync.congr,
      OpInv.completed (by simp [ho]) (by simpa using hi.1) (by simpa using hi.2) (by simp) (by simpa using hsd)
        (by simpa using o.txLength) (by simpa using o.txChecksum), h.status.congr (by simp)⟩
  | register g => exact h.congr o.congr (by simp)
  | transmit l w hw hl =>
    refine h.congr ?_ (by simp)
    exact ⟨by simp, by simp, by simp, by simp [magicPhase], by simpa using o.remaining, by simp, by simp [hsd],
      by simpa using hw, by simp [txFrame]; omega, by simpa using xorBytes_txFrame l⟩

end Sys2Proof.Machine
end

