-- ==== Sys2Proof/Laws/PerInstr.lean ====
section
/-! SUPPORT. Per-instruction facts about the encoding: an encoded operation has the opcode, the port and the total length
of its row of R72, and a receive class is one byte (R84). -/

namespace Sys2Proof.Laws

/-- The encoding of `i` agrees with the table of R72: its byte 0 is an opcode of the table, of `i`'s port, and its length is
the total length of that row; the encoding of a receive class is one byte. -/
def EncodedForm.Statement (i : Instr) : Prop :=
  i.wellFormed = true → ∀ c : Codes,
    (i.hostPort? = none → (encode c i).length = 1)
    ∧ (∀ p, i.hostPort? = some p → ∃ op args o, encode c i = op :: args ∧ opcodeTable.lookup op = some o
        ∧ opcodePort o = p ∧ (encode c i).length = commandLength o ((encode c i).getD 2 0).toNat)

/-- A form of fixed length. -/
theorem EncodedForm.fixed (i : Instr) (op : Byte) (args : List Byte) (o : Opcode) (he : ∀ c, encode c i = op :: args)
    (hl : opcodeTable.lookup op = some o) (hp : i.hostPort? = some (opcodePort o))
    (hn : ∀ n, args.length + 1 = commandLength o n) : EncodedForm.Statement i := by
  intro _ c
  refine ⟨by simp [hp], ?_⟩
  intro p h
  rw [hp] at h
  injection h with h
  exact ⟨op, args, o, he c, hl, h, by rw [he c]; simpa using hn _⟩

/-- A form whose length follows from its count byte. -/
theorem EncodedForm.counted (i : Instr) (op idx : Byte) (n : Nat) (us : List Byte) (o : Opcode)
    (he : ∀ c, encode c i = op :: idx :: countByte n :: us) (hl : opcodeTable.lookup op = some o)
    (hp : i.hostPort? = some (opcodePort o)) (hw : i.wellFormed = true → n ≤ 255)
    (hn : 3 + us.length = commandLength o n) : EncodedForm.Statement i := by
  intro h c
  refine ⟨by simp [hp], ?_⟩
  intro p h'
  rw [hp] at h'
  injection h' with h'
  refine ⟨op, _, o, he c, hl, h', ?_⟩
  have hb : (countByte n).toNat = n := by simp [countByte]; have := hw h; omega
  rw [he c]
  simp only [List.getD_cons_succ, List.getD_cons_zero, hb, ← hn, List.length_cons]
  omega

/-- A receive class. -/
theorem EncodedForm.received (i : Instr) (hp : i.hostPort? = none) (hl : ∀ c, (encode c i).length = 1) :
    EncodedForm.Statement i :=
  fun _ c => ⟨fun _ => hl c, fun p h => by rw [hp] at h; cases h⟩

theorem EncodedForm.pump : EncodedForm.Statement .pump :=
  fixed _ 0x01 [] .pump (fun _ => rfl) rfl rfl (fun _ => rfl)

theorem EncodedForm.waitIdle : EncodedForm.Statement .waitIdle :=
  fixed _ 0x02 [] .waitIdle (fun _ => rfl) rfl rfl (fun _ => rfl)

theorem EncodedForm.resync : EncodedForm.Statement .resync :=
  fixed _ 0x03 [] .resync (fun _ => rfl) rfl rfl (fun _ => rfl)

theorem EncodedForm.setHandler (en : Bool) : EncodedForm.Statement (.setHandler en) :=
  fixed _ 0x04 [enableByte en] .setHandler (fun _ => rfl) rfl rfl (fun _ => rfl)

theorem EncodedForm.setBytesSink (en : Bool) : EncodedForm.Statement (.setBytesSink en) :=
  fixed _ 0x05 [enableByte en] .setBytesSink (fun _ => rfl) rfl rfl (fun _ => rfl)

theorem EncodedForm.setDbytesSink (en : Bool) : EncodedForm.Statement (.setDbytesSink en) :=
  fixed _ 0x06 [enableByte en] .setDbytesSink (fun _ => rfl) rfl rfl (fun _ => rfl)

theorem EncodedForm.readObj (obj idx : Byte) : EncodedForm.Statement (.readObj obj idx) :=
  fixed _ 0x10 [obj, idx] .readObj (fun _ => rfl) rfl rfl (fun _ => rfl)

theorem EncodedForm.writeObj (obj idx dh dl : Byte) : EncodedForm.Statement (.writeObj obj idx dh dl) :=
  fixed _ 0x11 [obj, idx, dh, dl] .writeObj (fun _ => rfl) rfl rfl (fun _ => rfl)

theorem EncodedForm.writeContrast (val : Byte) : EncodedForm.Statement (.writeContrast val) :=
  fixed _ 0x12 [val] .writeContrast (fun _ => rfl) rfl rfl (fun _ => rfl)

theorem EncodedForm.writeStr (idx : Byte) (us : List Byte) : EncodedForm.Statement (.writeStr idx us) :=
  counted _ 0x13 idx us.length us .writeStr (fun _ => rfl) rfl rfl
    (by simp [Instr.wellFormed, unitsFit]) rfl

theorem EncodedForm.writeStrU (idx : Byte) (us : List Unit16) : EncodedForm.Statement (.writeStrU idx us) :=
  counted _ 0x14 idx us.length (splitUnits us) .writeStrU (fun _ => rfl) rfl rfl
    (by simp [Instr.wellFormed, unitsFit]) (by simp [Machine.splitUnits_length, commandLength])

theorem EncodedForm.writeMagicBytes (idx : Byte) (us : List Byte) : EncodedForm.Statement (.writeMagicBytes idx us) :=
  counted _ 0x15 idx us.length us .writeMagicBytes (fun _ => rfl) rfl rfl
    (by simp [Instr.wellFormed, unitsFit]) rfl

theorem EncodedForm.writeMagicDbytes (idx : Byte) (us : List Unit16) :
    EncodedForm.Statement (.writeMagicDbytes idx us) :=
  counted _ 0x16 idx us.length (splitUnits us) .writeMagicDbytes (fun _ => rfl) rfl rfl
    (by simp [Instr.wellFormed, unitsFit]) (by simp [Machine.splitUnits_length, commandLength])

theorem EncodedForm.dequeue : EncodedForm.Statement .dequeue :=
  fixed _ 0x20 [] .dequeue (fun _ => rfl) rfl rfl (fun _ => rfl)

theorem EncodedForm.readStatus : EncodedForm.Statement .readStatus :=
  fixed _ 0x21 [] .readStatus (fun _ => rfl) rfl rfl (fun _ => rfl)

theorem EncodedForm.rxReportEventLead : EncodedForm.Statement .rxReportEventLead := received _ rfl (fun _ => rfl)

theorem EncodedForm.rxMagicBytesLead : EncodedForm.Statement .rxMagicBytesLead := received _ rfl (fun _ => rfl)

theorem EncodedForm.rxMagicDbytesLead : EncodedForm.Statement .rxMagicDbytesLead := received _ rfl (fun _ => rfl)

theorem EncodedForm.rxAck : EncodedForm.Statement .rxAck := received _ rfl (fun _ => rfl)

theorem EncodedForm.rxNak : EncodedForm.Statement .rxNak := received _ rfl (fun _ => rfl)

theorem EncodedForm.rxReportObjLead : EncodedForm.Statement .rxReportObjLead := received _ rfl (fun _ => rfl)

theorem EncodedForm.rxFramingError (b : Byte) : EncodedForm.Statement (.rxFramingError b) :=
  received _ rfl (fun _ => rfl)

theorem EncodedForm.rxFrameByte (b : Byte) : EncodedForm.Statement (.rxFrameByte b) := received _ rfl (fun _ => rfl)

theorem EncodedForm.rxMagicHeaderByte (b : Byte) : EncodedForm.Statement (.rxMagicHeaderByte b) :=
  received _ rfl (fun _ => rfl)

end Sys2Proof.Laws
end

