-- ==== Sys2Proof/Tests/Slice0.lean ====
section
/-! SUPPORT. Tests: the WellFormed smoke, the decoding of words written out from the spec, one step per instruction with
expected results from 95_test_vectors.md or the rule's own example, and a witness for the hypotheses of each statement. -/

namespace Sys2Proof.Tests

open Sys2Proof Sys2Proof.Machine

set_option maxRecDepth 20000

/-! ### Small states -/

/-- `Q_CAP = 4`, `STACK_DEPTH = 3`, `TIMEOUT_MS = 3`, `FATAL_THRESHOLD = 3`, profile `SRC`. -/
def cfgWith (p : BadCsPolicy) : Config :=
  ⟨{ codes := Codes.src, qCap := 4, stackDepth := 3, timeoutMs := 3, fatalThreshold := 3, badCsPolicy := p },
   by cases p <;> decide⟩

/-- The reset state of `cfgWith .restart`, with `NOW = 1000`. -/
def start : State := State.resetWith (cfgWith .restart) 1000 Script.empty

/-- With `l` on the stack, bottom first. -/
def stack (l : List LinkState) (s : State) : State :=
  { s with link := { ls := l ++ List.replicate (3 - l.length) .idle, depth := BitVec.ofNat 8 l.length } }

/-- With `bs` waiting in `RX_FIFO`. -/
def waiting (bs : List Byte) (s : State) : State := { s with rxFifo := bs }

/-- With the operation `o` in progress at `ph`. -/
def busy (o : Op) (ph : Phase) (s : State) : State := { s with op := o, phase := ph }

/-- With the turns `ts` to come. -/
def turns (ts : List Turn) (s : State) : State := { s with script := { s.script with turns := ts } }

/-- With the command `c` presented to the command port, whose turn is next. -/
def command (c : List Byte) (s : State) : State :=
  { s with script := { s.script with turns := [.hostCmd], cmdIn := [c] } }

/-- With the command `c` presented to the drain port, whose turn is next. -/
def drain (c : List Byte) (s : State) : State :=
  { s with script := { s.script with turns := [.hostDrain], drainIn := [c] } }

/-- With the frames `fs` live in the queue, from slot 0. -/
def queued (fs : List Frame) (s : State) : State :=
  { s with queue := { buf := fs ++ List.replicate (4 - fs.length) Frame.zero, rd := 0, wr := fs.length % 4
                      count := BitVec.ofNat 8 fs.length } }

/-- With the accumulator holding `f` and `n` bytes, whose XOR is `cs`. -/
def accumulated (f : Frame) (n : Fin 7) (cs : Byte) (s : State) : State :=
  { s with acc := { buf := f, count := n, cs := cs } }

/-- The frame of vector W8: `01 05 02 00 2A 2C`. -/
def frame42 : Frame := ⟨0x01, 0x05, 0x02, 0x00, 0x2A, 0x2C⟩

/-- The second frame of vector V-Q-1: `01 05 03 00 07 00`. -/
def frame7 : Frame := ⟨0x01, 0x05, 0x03, 0x00, 0x07, 0x00⟩

/-- What one step leads to satisfies `P`. -/
def stepTo (s : State) (P : State → Bool) : Bool :=
  match step s with
  | .next t => P t
  | .fault _ => false
  | .refused _ => false

/-- What an instruction leads to satisfies `P`. -/
def runTo (i : Instr) (s : State) (P : State → Bool) : Bool :=
  match exec i s with
  | .next t => P t
  | .fault _ => false
  | .refused _ => false

/-- The decoder's answer. -/
def decodesTo (p : Place) (bs : List Byte) (i : Instr) : Bool :=
  match decode Codes.src p bs with
  | .ok j => decide (j = i)
  | .error _ => false

/-- The decoder's reason. -/
def rejectedAs (p : Place) (bs : List Byte) (r : Reject) : Bool :=
  match decode Codes.src p bs with
  | .ok _ => false
  | .error q => decide (q = r)

/-! ### The WellFormed smoke: an ill-formed term for each check -/

/-- R72, R195: 256 units do not fit the count byte, in each of the four forms. -/
theorem test_illFormed_units :
    (Instr.writeStr 0 (List.replicate 256 0)).wellFormed = false
    ∧ (Instr.writeStrU 0 (List.replicate 256 0)).wellFormed = false
    ∧ (Instr.writeMagicBytes 0 (List.replicate 256 0)).wellFormed = false
    ∧ (Instr.writeMagicDbytes 0 (List.replicate 256 0)).wellFormed = false
    ∧ (Instr.writeStr 0 (List.replicate 255 0)).wellFormed = true := by decide

/-- R72, R84: an instruction is not admitted at another port, in another link state, or as another class. -/
theorem test_illFormed_places :
    Instr.pump.admittedAt Codes.src (.host .drain) = false
    ∧ Instr.dequeue.admittedAt Codes.src (.host .command) = false
    ∧ Instr.rxAck.admittedAt Codes.src (.host .command) = false
    ∧ Instr.pump.admittedAt Codes.src (.receive .idle) = false
    ∧ Instr.rxReportEventLead.admittedAt Codes.src (.receive .receivingEvent) = false
    ∧ Instr.rxAck.admittedAt Codes.src (.receive .idle) = false
    ∧ Instr.rxNak.admittedAt Codes.src (.receive .waitReportHeader) = false
    ∧ Instr.rxReportObjLead.admittedAt Codes.src (.receive .waitAckOrNak) = false
    ∧ (Instr.rxFramingError 0x06).admittedAt Codes.src (.receive .waitAckOrNak) = false
    ∧ (Instr.rxFrameByte 0).admittedAt Codes.src (.receive .receivingMagicBytes) = false
    ∧ (Instr.rxMagicHeaderByte 0).admittedAt Codes.src (.receive .shutdown) = false := by decide

/-- R8, R82: each constraint of the configuration refuses a value outside it; the bounds themselves pass. -/
theorem test_illFormed_configurations :
    let p := (cfgWith .restart).val
    { p with codes := { p.codes with nak := p.codes.ack } }.valid = false
    ∧ { p with qCap := 2 }.valid = false ∧ { p with qCap := 12 }.valid = false ∧ { p with qCap := 256 }.valid = false
    ∧ { p with stackDepth := 0 }.valid = false ∧ { p with stackDepth := 256 }.valid = false
    ∧ { p with timeoutMs := 2147483648 }.valid = false ∧ { p with fatalThreshold := 256 }.valid = false
    ∧ { p with codes := Codes.genie, qCap := 128, stackDepth := 255, timeoutMs := 2147483647,
               fatalThreshold := 255 }.valid = true := by decide

/-! ### Decoding: words written out from R72, R79, R81 and R84 -/

/-- The host operations, with the bytes of V-TX-1 to V-TX-11, V-SET-1 to V-SET-3 and R72. -/
theorem test_decode_host :
    decodesTo (.host .command) [0x01] .pump
    ∧ decodesTo (.host .command) [0x02] .waitIdle
    ∧ decodesTo (.host .command) [0x03] .resync
    ∧ decodesTo (.host .command) [0x04, 0x01] (.setHandler true)
    ∧ decodesTo (.host .command) [0x05, 0x00] (.setBytesSink false)
    ∧ decodesTo (.host .command) [0x06, 0x01] (.setDbytesSink true)
    ∧ decodesTo (.host .command) [0x10, 0x03, 0x01] (.readObj 3 1)
    ∧ decodesTo (.host .command) [0x11, 0x03, 0x01, 0x01, 0xF4] (.writeObj 3 1 0x01 0xF4)
    ∧ decodesTo (.host .command) [0x12, 0x0A] (.writeContrast 10)
    ∧ decodesTo (.host .command) [0x13, 0x02, 0x02, 0x48, 0x69] (.writeStr 2 [0x48, 0x69])
    ∧ decodesTo (.host .command) [0x14, 0x00, 0x02, 0x00, 0x41, 0x00, 0xE9] (.writeStrU 0 [0x0041, 0x00E9])
    ∧ decodesTo (.host .command) [0x15, 0x01, 0x03, 0x10, 0x20, 0x30] (.writeMagicBytes 1 [0x10, 0x20, 0x30])
    ∧ decodesTo (.host .command) [0x16, 0x01, 0x01, 0x12, 0x34] (.writeMagicDbytes 1 [0x1234])
    ∧ decodesTo (.host .drain) [0x20] .dequeue
    ∧ decodesTo (.host .drain) [0x21] .readStatus := by decide

/-- The receive classes, with the codes of profile `SRC`. -/
theorem test_decode_receive :
    decodesTo (.receive .idle) [0x01] .rxReportEventLead
    ∧ decodesTo (.receive .waitAckOrNak) [0x0A] .rxMagicBytesLead
    ∧ decodesTo (.receive .waitReportHeader) [0x0B] .rxMagicDbytesLead
    ∧ decodesTo (.receive .waitAckOrNak) [0x06] .rxAck
    ∧ decodesTo (.receive .waitAckOrNak) [0x15] .rxNak
    ∧ decodesTo (.receive .waitReportHeader) [0x05] .rxReportObjLead
    ∧ decodesTo (.receive .waitReportHeader) [0x15] (.rxFramingError 0x15)
    ∧ decodesTo (.receive .receivingEvent) [0x0A] (.rxFrameByte 0x0A)
    ∧ decodesTo (.receive .receivingMagicBytes) [0x22] (.rxMagicHeaderByte 0x22) := by decide

/-- Each reason of R73, on the vectors V-IL-1 to V-IL-13, and R129. -/
theorem test_decode_rejects :
    rejectedAs (.host .command) [] .empty
    ∧ rejectedAs (.host .command) [0x00] .reservedOpcode
    ∧ rejectedAs (.host .command) [0x07] .reservedOpcode
    ∧ rejectedAs (.host .drain) [0xFF] .reservedOpcode
    ∧ rejectedAs (.host .command) [0x20] .otherPort
    ∧ rejectedAs (.host .drain) [0x01] .otherPort
    ∧ rejectedAs (.host .command) [0x01, 0x00] .wrongLength
    ∧ rejectedAs (.host .drain) [0x21, 0x00] .wrongLength
    ∧ rejectedAs (.host .command) [0x11, 0x03, 0x01, 0x01] .wrongLength
    ∧ rejectedAs (.host .command) [0x13, 0x02] .wrongLength
    ∧ rejectedAs (.host .command) [0x13, 0x02, 0x02, 0x48] .wrongLength
    ∧ rejectedAs (.host .command) [0x14, 0x00, 0x01, 0x41] .wrongLength
    ∧ rejectedAs (.host .command) [0x04, 0x02] .badEnable
    ∧ rejectedAs (.receive .shutdown) [0x01] .shutdownState := by decide

/-- Table words: bit 0 is the least significant bit of the first byte, and operand bytes the word leaves out are 0. -/
theorem test_decodeTableWord :
    decodeTableWord 40 0xF401010311 = some (.writeObj 3 1 0x01 0xF4)
    ∧ decodeTableWord 8 0x10 = some (.readObj 0 0)
    ∧ decodeTableWord 8 0x13 = some (.writeStr 0 [])
    ∧ decodeTableWord 8 0x0A = some .rxMagicBytesLead
    ∧ decodeTableWord 8 0x00 = some (.rxFramingError 0) := by decide

/-- The next step after reset runs the word presented: here `RESYNC`, whose response is `[0x00]`. -/
theorem test_withFetchWord :
    step (State.reset.withFetchWord 8 0x03)
      = exec .resync { State.reset with script := Script.empty } := by rfl

/-! ### One step per instruction -/

/-- V-PU-1 and V-PU-2: the empty poll, without and with the notification. -/
theorem test_pump_empty :
    stepTo (busy .pump .start start) (fun t => t.respCmd = [[0x00, 0x01]] ∧ t.op = .none ∧ t.lastError = .noChar)
    ∧ stepTo (busy .pump .start (queued [frame42] { start with reg := ⟨true, false, false⟩ }))
        (fun t => t.respCmd = [[0x02, 0x01]] ∧ t.queue.count = 1) := by decide

/-- V-PU-6: exactly one byte is consumed. -/
theorem test_pump_byte :
    stepTo (busy .pump .start (waiting [0x01, 0x05] start))
      (fun t => t.rxFifo = [0x05] ∧ t.respCmd = [[0x01, 0x00]] ∧ top t = .receivingEvent) := by decide

/-- R210's example, with `TIMEOUT_MS = 3`: the issue sets the deadline. -/
theorem test_waitIdle : runTo .waitIdle start (fun t => t.deadline = 1003 ∧ t.op = .wait ∧ t.phase = .loop) := by decide

/-- V-SU-6. -/
theorem test_resync :
    runTo .resync
      (accumulated frame42 3 0x06 (queued [frame42, frame7]
        (waiting [0x2A, 0x2C] (stack [.idle, .waitAckOrNak, .receivingEvent] { start with lastError := .timeout }))))
      (fun t => top t = .idle ∧ t.link.depth = 1 ∧ t.queue.count = 0 ∧ t.rxFifo = [] ∧ t.acc.count = 0
        ∧ t.lastError = .none ∧ t.respCmd = [[0x00]]) := by decide

/-- V-SET-1. -/
theorem test_setHandler :
    runTo (.setHandler true) start (fun t => t.reg = ⟨true, false, false⟩ ∧ t.respCmd = [[0x00]] ∧ t.op = .none) := by
  decide

/-- V-SET-2. -/
theorem test_setBytesSink :
    runTo (.setBytesSink true) start (fun t => t.reg = ⟨false, true, false⟩ ∧ t.respCmd = [[0x00]]) := by decide

/-- R192's example: `SET_DBYTES_SINK off`. -/
theorem test_setDbytesSink :
    runTo (.setDbytesSink false) { start with reg := ⟨true, true, true⟩ }
      (fun t => t.reg = ⟨true, true, false⟩ ∧ t.respCmd = [[0x00]]) := by decide

/-- V-TX-1, V-TX-2 and V-TX-4: the frames latched. -/
theorem test_transmit_fixed :
    runTo (.readObj 3 1) start (fun t => t.tx = ⟨[0x00, 0x03, 0x01, 0x02], .waitReportHeader⟩ ∧ t.txLog = [])
    ∧ runTo (.writeObj 3 1 0x01 0xF4) start
        (fun t => t.tx = ⟨[0x01, 0x03, 0x01, 0x01, 0xF4, 0xF6], .waitAckOrNak⟩ ∧ t.txLog = [])
    ∧ runTo (.writeContrast 10) start (fun t => t.tx = ⟨[0x04, 0x0A, 0x0E], .waitAckOrNak⟩ ∧ t.op = .tx) := by decide

/-- V-TX-5, V-TX-8, V-TX-9 and V-TX-11: the payload frames latched. -/
theorem test_transmit_units :
    runTo (.writeStr 2 [0x48, 0x69]) start (fun t => t.tx.frame = [0x02, 0x02, 0x02, 0x48, 0x69, 0x23])
    ∧ runTo (.writeStrU 0 [0x0041, 0x00E9]) start
        (fun t => t.tx.frame = [0x03, 0x00, 0x02, 0x00, 0x41, 0x00, 0xE9, 0xA9])
    ∧ runTo (.writeMagicBytes 1 [0x10, 0x20, 0x30]) start
        (fun t => t.tx.frame = [0x08, 0x01, 0x03, 0x10, 0x20, 0x30, 0x0A])
    ∧ runTo (.writeMagicDbytes 1 [0x1234]) start
        (fun t => t.tx.frame = [0x09, 0x01, 0x01, 0x12, 0x34, 0x2F]) := by decide

/-- The end of W9: the frame is sent and the link waits for the ACK. -/
theorem test_txFinish :
    stepTo (busy .tx .loop { start with tx := ⟨[0x01, 0x03, 0x01, 0x01, 0xF4, 0xF6], .waitAckOrNak⟩ })
      (fun t => t.txLog = [0x01, 0x03, 0x01, 0x01, 0xF4, 0xF6] ∧ top t = .waitAckOrNak ∧ t.link.depth = 2
        ∧ t.respCmd = [[0x00]] ∧ t.op = .none) := by decide

/-- R166's example, then the empty queue of V-Q-7. -/
theorem test_dequeue :
    runTo .dequeue (queued [frame42] start)
      (fun t => t.respDrain = [[0x01, 0x01, 0x05, 0x02, 0x00, 0x2A, 0x2C]] ∧ t.queue.count = 0 ∧ t.queue.rd = 1)
    ∧ runTo .dequeue start (fun t => t.respDrain = [[0x00]]) := by decide

/-- V-ST-3: `09 02 01 07 0D 01`, with `FATAL_THRESHOLD = 1`. -/
theorem test_readStatus :
    let c : Config := ⟨{ (cfgWith .restart).val with fatalThreshold := 1 }, by decide⟩
    runTo .readStatus
      (busy .wait .loop (queued [frame42] (stack [.idle, .waitAckOrNak]
        { start with cfg := c, lastError := .framing, fatalCount := 1, reg := ⟨true, false, true⟩ })))
      (fun t => t.respDrain = [[0x09, 0x02, 0x01, 0x07, 0x0D, 0x01]]) := by decide

/-- V-LS-1, and the overflow of V-LS-4 at `LS_DEPTH = STACK_DEPTH`. -/
theorem test_rxReportEventLead :
    runTo .rxReportEventLead start
      (fun t => top t = .receivingEvent ∧ t.acc.count = 1 ∧ t.acc.cs = 0x01 ∧ t.acc.buf.cmd = 0x01)
    ∧ runTo .rxReportEventLead (waiting [0x05] (stack [.idle, .waitAckOrNak, .waitAckOrNak] start))
        (fun t => t.link.depth = 1 ∧ top t = .idle ∧ t.rxFifo = [] ∧ t.fatalCount = 1 ∧ t.acc.count = 0) := by decide

/-- V-RX-16. -/
theorem test_rxMagicLeads :
    runTo .rxMagicBytesLead { start with magic := { start.magic with cursor := 3 } }
      (fun t => top t = .receivingMagicBytes ∧ t.magic.cursor = 0)
    ∧ runTo .rxMagicDbytesLead (stack [.idle, .waitAckOrNak] start)
        (fun t => top t = .receivingMagicDoubleBytes ∧ t.link.depth = 3) := by decide

/-- V-RX-2 and V-RX-3. -/
theorem test_rxAckNak :
    runTo .rxAck (stack [.idle, .waitAckOrNak] start) (fun t => top t = .idle ∧ t.lastError = .none)
    ∧ runTo .rxNak (stack [.idle, .waitAckOrNak] start) (fun t => top t = .idle ∧ t.lastError = .nak) := by decide

/-- V-LS-3. -/
theorem test_rxReportObjLead :
    runTo .rxReportObjLead (stack [.idle, .waitReportHeader] start)
      (fun t => top t = .receivingReport ∧ t.link.depth = 2 ∧ t.acc.count = 1 ∧ t.acc.cs = 0x05) := by decide

/-- V-RX-1; and `FATAL_COUNT` saturates (R32). -/
theorem test_rxFramingError :
    runTo (.rxFramingError 0x06) start (fun t => t.lastError = .framing ∧ t.fatalCount = 1 ∧ top t = .idle)
    ∧ runTo (.rxFramingError 0x06) { start with fatalCount := 0xFF } (fun t => t.fatalCount = 0xFF) := by decide

/-- R126's example, and the sixth byte of R127's two examples. -/
theorem test_rxFrameByte :
    runTo (.rxFrameByte 0x02) (accumulated frame42 2 0x04 (stack [.idle, .receivingEvent] start))
      (fun t => t.acc.buf.idx = 0x02 ∧ t.acc.count = 3 ∧ t.acc.cs = 0x06)
    ∧ runTo (.rxFrameByte 0x2C) (accumulated { frame42 with csum := 0 } 5 0x2C (stack [.idle, .receivingEvent] start))
        (fun t => liveEntries t = [frame42] ∧ top t = .idle ∧ t.acc.count = 6)
    ∧ runTo (.rxFrameByte 0x2D) (accumulated { frame42 with csum := 0 } 5 0x2C (stack [.idle, .receivingEvent] start))
        (fun t => t.lastError = .badChecksum ∧ t.acc.count = 0 ∧ top t = .receivingEvent ∧ t.queue.count = 0) := by
  decide

/-- V-MG-1 and V-MG-3: the third header byte, with and without the sink. -/
theorem test_rxMagicHeaderByte :
    runTo (.rxMagicHeaderByte 0x03)
      (stack [.idle, .receivingMagicBytes]
        { start with magic := ⟨2, 0x22, 0x04, 0, 0⟩, reg := ⟨false, true, false⟩ })
      (fun t => t.sink = ⟨.bytes, 0x04, 0x03, false⟩ ∧ t.phase = .mgSink)
    ∧ runTo (.rxMagicHeaderByte 0x03) (stack [.idle, .receivingMagicBytes] { start with magic := ⟨2, 0x22, 0x04, 0, 0⟩ })
        (fun t => t.magic.remain = 2 ∧ t.phase = .mgDiscard) := by decide

/-- V-Q-1, its coalescing; V-Q-3, the overflow test before the scan. -/
theorem test_enqueue :
    liveEntries (enqueue ⟨0x01, 0x05, 0x02, 0x00, 0x63, 0x65⟩ (queued [frame42] start))
      = [⟨0x01, 0x05, 0x02, 0x00, 0x63, 0x2C⟩]
    ∧ liveEntries (enqueue ⟨0x01, 0x05, 0x02, 0x00, 0x63, 0x65⟩ (queued [frame42, frame7] start)) = [frame42, frame7]
    ∧ (enqueue ⟨0x01, 0x05, 0x02, 0x00, 0x63, 0x65⟩ (queued [frame42, frame7] start)).lastError = .queueOverflow := by
  decide

/-- V-Q-6. -/
theorem test_frameValue :
    frameValue frame42 = 42 ∧ frameValue ⟨0x05, 0x03, 0x01, 0x01, 0xF4, 0xF2⟩ = 500
    ∧ frameValue ⟨0x01, 0x0A, 0x00, 0xFF, 0xFF, 0x0B⟩ = 65535 := by decide

/-- R213 across the wrap, with the deadline of V-SU-3. -/
theorem test_elapsed_wraps :
    elapsed { start with now := 0x00000003, deadline := 0x00000004 } = false
    ∧ elapsed { start with now := 0x00000004, deadline := 0x00000004 } = true
    ∧ elapsed { start with now := 0xFFFFFFFA, deadline := 0x00000004 } = false := by decide

/-- V-RX-11, V-RX-17 and V-MG-8: the three faults. -/
theorem test_faults :
    stepTo (busy .pump .start (waiting [0x06] (accumulated frame42 6 1 (stack [.idle, .receivingEvent] start))))
      (fun t => t.fault ∧ t.faultKind = .staleAccumulator ∧ t.op = .pump ∧ t.respCmd = [] ∧ t.rxFifo = [])
    ∧ stepTo (busy .pump .start (waiting [0x06] (stack [.idle, .shutdown] start)))
        (fun t => t.fault ∧ t.faultKind = .shutdownState)
    ∧ stepTo (busy .pump .start (waiting [0x33]
        (stack [.idle, .receivingMagicBytes] { start with magic := ⟨3, 1, 2, 0, 0⟩ })))
        (fun t => t.fault ∧ t.faultKind = .staleMagicCursor ∧ t.magic.cmd = 1) := by decide

/-! ### Deciding the invariants of a small state -/

/-- `LinkInv`, decided. -/
def linkCheck (s : State) : Bool :=
  decide (s.link.ls.length = s.cfg.val.stackDepth ∧ 1 ≤ s.link.depth.toNat
    ∧ s.link.depth.toNat ≤ s.cfg.val.stackDepth ∧ s.link.ls.getD 0 .shutdown = .idle)
  && (List.range s.link.depth.toNat).all (fun i => decide (i = 0) || pushable (s.link.ls.getD i .shutdown))

/-- `QueueInv`, decided. -/
def queueCheck (s : State) : Bool :=
  decide (s.queue.buf.length = s.cfg.val.qCap ∧ s.queue.count.toNat ≤ s.cfg.val.qCap - qMargin
    ∧ s.queue.rd < s.cfg.val.qCap ∧ s.queue.wr = (s.queue.rd + s.queue.count.toNat) % s.cfg.val.qCap)
  && (List.range s.queue.count.toNat).all
      (fun j => (List.range j).all (fun i => !sameIdentity (liveEntry s i) (liveEntry s j)))

/-- `OpInv`, decided. -/
def opCheck (s : State) : Bool :=
  decide ((s.op = .pump → s.phase ≠ .loop) ∧ (s.op = .wait ∨ s.op = .tx → s.phase ≠ .start)
    ∧ (s.op = .none → s.phase ≠ .mgSink ∧ s.phase ≠ .mgDiscard)
    ∧ (s.op ≠ .none → magicPhase s.phase = true → receivingMagic (top s) = true)
    ∧ s.magic.remain.toNat ≤ 508 ∧ (s.phase = .mgDiscard → s.magic.remain ≠ 0)
    ∧ (s.sink.done = true → s.phase = .mgSink)
    ∧ (s.op = .tx → s.tx.push = .waitAckOrNak ∨ s.tx.push = .waitReportHeader)
    ∧ s.tx.frame.length ≤ 514 ∧ xorBytes s.tx.frame = 0)

/-- `StatusInv`, decided. -/
def statusCheck (s : State) : Bool :=
  decide (s.lastError ≠ .noHandler ∧ (s.fault = true ↔ s.faultKind ≠ .none) ∧ s.faultKind ≠ .shutdownState)

theorem linkInv_of_check (s : State) (h : linkCheck s = true) : LinkInv s := by
  simp only [linkCheck, Bool.and_eq_true, decide_eq_true_eq, List.all_eq_true, List.mem_range, Bool.or_eq_true] at h
  obtain ⟨⟨h1, h2, h3, h4⟩, h5⟩ := h
  refine ⟨h1, h2, h3, h4, ?_⟩
  intro i hi hd
  rcases h5 i hd with h | h
  · omega
  · exact h

theorem queueInv_of_check (s : State) (h : queueCheck s = true) : QueueInv s := by
  simp only [queueCheck, Bool.and_eq_true, decide_eq_true_eq, List.all_eq_true, List.mem_range, Bool.not_eq_true'] at h
  obtain ⟨⟨h1, h2, h3, h4⟩, h5⟩ := h
  exact ⟨h1, h2, h3, h4, fun i j hij hj => h5 j hj i hij⟩

theorem inv_of_check (s : State)
    (h : (linkCheck s && queueCheck s && opCheck s && statusCheck s
      && decide (s.acc.cs = xorBytes ((frameBytes s.acc.buf).take s.acc.count.val))) = true) : Inv s := by
  simp only [Bool.and_eq_true, opCheck, statusCheck, decide_eq_true_eq] at h
  obtain ⟨⟨⟨⟨h1, h2⟩, a1, a2, a3, a4, a5, a6, a7, a8, a9, a10⟩, b1, b2, b3⟩, h5⟩ := h
  exact ⟨linkInv_of_check s h1, h5, queueInv_of_check s h2, ⟨a1, a2, a3, a4, a5, a6, a7, a8, a9, a10⟩, ⟨b1, b2, b3⟩⟩

/-! ### Witnesses: states and operands that meet the hypotheses of each statement, clause by clause -/

/-- DecodeOfEncode, EncodeOfDecode: both ends of the unit count, each port, and each kind of class. -/
theorem witness_encoding :
    Codes.src.distinct = true ∧ Codes.genie.distinct = true
    ∧ (Instr.writeStr 0 (List.replicate 255 0xFF)).wellFormed = true
    ∧ (Instr.writeStr 0 (List.replicate 255 0xFF)).admittedAt Codes.src (.host .command) = true
    ∧ (Instr.writeStrU 0 []).admittedAt Codes.src (.host .command) = true
    ∧ Instr.dequeue.admittedAt Codes.src (.host .drain) = true
    ∧ Instr.rxNak.admittedAt Codes.genie (.receive .waitAckOrNak) = true
    ∧ (Instr.rxFramingError 0xFF).admittedAt Codes.src (.receive .idle) = true
    ∧ (Instr.rxFrameByte 0xFF).admittedAt Codes.src (.receive .receivingReport) = true
    ∧ decode Codes.src (.host .command) [0x16, 0xFF, 0x01, 0xFF, 0xFE] = .ok (.writeMagicDbytes 0xFF [0xFFFE])
    ∧ decode Codes.genie (.receive .idle) [0x07] = .ok .rxReportEventLead := by decide

/-- IllegalCommands, StepRunsIssuedCommand, StepRunsDrainCommand: an illegal command at each port in a state that takes
it. -/
theorem witness_IllegalCommands :
    (let s := command [0x04, 0x02] start
     s.fault = false ∧ s.script.turns = .hostCmd :: [] ∧ s.op = .none ∧ s.script.cmdIn = [0x04, 0x02] :: []
     ∧ decode s.cfg.val.codes (.host .command) [0x04, 0x02] = .error .badEnable)
    ∧ (let s := drain [] (busy .wait .loop start)
       s.fault = false ∧ s.script.turns = .hostDrain :: [] ∧ s.script.drainIn = [] :: []
       ∧ decode s.cfg.val.codes (.host .drain) [] = .error .empty) := by decide

/-- ReceiveClassification: the code table, with a byte of each row in a state of that row. -/
theorem witness_ReceiveClassification :
    Codes.src.distinct = true ∧ Codes.src.reportEvent = 0x01 ∧ Codes.src.reportMagicBytes = 0x0A
    ∧ Codes.src.reportMagicDbytes = 0x0B ∧ Codes.src.ack = 0x06 ∧ Codes.src.nak = 0x15 ∧ Codes.src.reportObj = 0x05
    ∧ (0x05 : Byte) ∉ Codes.src.acceptedIn .waitAckOrNak ∧ (0x06 : Byte) ∉ Codes.src.acceptedIn .waitReportHeader
    ∧ (0xFF : Byte) ∉ Codes.src.acceptedIn .idle := by decide

/-- StepRunsIssuedCommand and StepRunsDrainCommand; the drain port also while an operation is in progress. -/
theorem witness_StepRunsCommands :
    (let s := command [0x02] start
     s.fault = false ∧ s.script.turns = .hostCmd :: [] ∧ s.op = .none ∧ s.script.cmdIn = [0x02] :: []
     ∧ decode s.cfg.val.codes (.host .command) [0x02] = .ok .waitIdle)
    ∧ (let s := drain [0x20] (busy .tx .loop start)
       s.fault = false ∧ s.script.turns = .hostDrain :: [] ∧ s.script.drainIn = [0x20] :: []
       ∧ decode s.cfg.val.codes (.host .drain) [0x20] = .ok .dequeue) := by decide

/-- StepRunsReceivedByte: a `PUMP`, a `WAIT_IDLE` and a transmit operation that pump a byte, and the dispatch's answer. -/
theorem witness_StepRunsReceivedByte :
    (∀ op ∈ [Op.pump, .wait, .tx],
      let ph := if op = .pump then Phase.start else .loop
      let s := turns [.block] (busy op ph (waiting [0x06] (stack [.idle, .waitAckOrNak] start)))
      s.fault = false ∧ s.script.turns = .block :: [] ∧ s.rxFifo = 0x06 :: [] ∧ top s ≠ .idle
      ∧ ((s.op = .pump ∧ s.phase = .start) ∨ ((s.op = .wait ∨ s.op = .tx) ∧ s.phase = .loop ∧ top s ≠ .idle))
      ∧ decode s.cfg.val.codes (.receive (top s)) [0x06] = .ok .rxAck)
    ∧ (∀ s : State, ∃ t, exec .rxAck s = .next t) :=
  ⟨by decide, fun _ => ⟨_, rfl⟩⟩

/-- StepKeepsInvariant and StepKeepsConfiguration: a state with a full stack, a live entry and a wait in progress. -/
theorem witness_StepKeepsInvariant :
    ∃ s t : State, Inv s ∧ s.queue.count = 1 ∧ s.link.depth = 3 ∧ step s = .next t :=
  ⟨turns [.block] (busy .wait .loop (waiting [0x01] (queued [frame42] (stack [.idle, .waitReportHeader, .waitAckOrNak] start)))),
    _, inv_of_check _ (by decide), by decide, by decide, rfl⟩

/-- PumpIssueAndEmptyPoll, PumpDoneAnswersOrExtends: each operation. -/
theorem witness_pump :
    (let s := busy .pump .start start
     s.op = .pump ∧ s.phase = .start ∧ s.rxFifo = [])
    ∧ (busy .wait .loop start).op = .wait ∧ (busy .tx .loop start).op = .tx := by decide

/-- WaitIssueSetsDeadline: each transmit form, at both ends of its operands, gives a next state. -/
theorem witness_WaitIssueSetsDeadline :
    ∀ i ∈ [Instr.readObj 0 0xFF, .writeObj 0 0xFF 0 0xFF, .writeContrast 0xFF, .writeStr 0 [], .writeStrU 0xFF [0xFFFF],
        .writeMagicBytes 0 [0xFF], .writeMagicDbytes 0 []],
      runTo i start (fun t => t.op = .tx) = true := by decide

/-- TransmitFinish and TransmitFromIdleLeavesWaitState: both wait states, below and at the bound of the stack. -/
theorem witness_TransmitFinish :
    LinkInv (stack [.idle, .waitAckOrNak] start) ∧ LinkInv (stack [.idle, .waitAckOrNak, .waitAckOrNak] start)
    ∧ (let s := busy .tx .loop (stack [.idle, .waitAckOrNak] { start with tx := ⟨[0x04, 0x05, 0x01], .waitReportHeader⟩ })
     s.op = .tx ∧ s.tx.push = .waitReportHeader ∧ s.link.depth.toNat ≠ s.cfg.val.stackDepth)
    ∧ (let s := busy .tx .loop
          (stack [.idle, .waitAckOrNak, .waitAckOrNak] { start with tx := ⟨[0x04, 0x05, 0x01], .waitAckOrNak⟩ })
       s.op = .tx ∧ s.tx.push = .waitAckOrNak ∧ s.link.depth.toNat = s.cfg.val.stackDepth) :=
  ⟨linkInv_of_check _ (by decide), linkInv_of_check _ (by decide), by decide⟩

theorem witness_TransmitFromIdleLeavesWaitState :
    ∃ s : State, Inv s ∧ s.fault = false ∧ s.script.turns = .block :: [] ∧ s.op = .tx ∧ s.phase = .loop ∧ top s = .idle
      ∧ 2 ≤ s.cfg.val.stackDepth ∧ s.rxFifo ≠ [] :=
  ⟨turns [.block] (busy .tx .loop (waiting [0x15] { start with tx := ⟨[0x04, 0x0A, 0x0E], .waitAckOrNak⟩ })),
    inv_of_check _ (by decide), by decide⟩

/-- DequeueAnswersOldest (with `witness_queue`) and DrainPortFrame: the empty queue and a queue that is not; a command that decodes, one that is
illegal, and none. -/
theorem witness_drain :
    start.queue.count = 0 ∧ (queued [frame42] start).queue.count ≠ 0
    ∧ (∀ s ∈ [drain [0x20] (queued [frame42] start), drain [0xFF] start, turns [.hostDrain] start],
        s.script.turns = .hostDrain :: [] ∧ stepTo s (fun _ => true) = true) := by decide

/-- EventLeadPushes, MagicLeadPushes, ReportLeadReplacesTop, ReadStatusFields, PushMakesTopOrResyncs,
PopResumesSuspendedState: below and at the bound of the
stack, and the baseline. -/
theorem witness_stack :
    LinkInv (stack [.idle, .waitAckOrNak] start) ∧ LinkInv (stack [.idle, .waitAckOrNak, .receivingEvent] start)
    ∧ LinkInv start
    ∧ (let s := stack [.idle, .waitAckOrNak] start
       s.link.depth.toNat < s.cfg.val.stackDepth ∧ 1 < s.link.depth.toNat)
    ∧ (let s := stack [.idle, .waitAckOrNak, .receivingEvent] start
       s.link.depth.toNat = s.cfg.val.stackDepth)
    ∧ start.link.depth.toNat ≤ 1 :=
  ⟨linkInv_of_check _ (by decide), linkInv_of_check _ (by decide), linkInv_of_check _ (by decide), by decide⟩

/-- FrameByteAccumulates, SixthByteChecksFrame: the first and the fifth byte, the sixth with a good and a bad checksum
under each policy, and the full accumulator. -/
theorem witness_accumulator :
    start.acc.count.val < 5 ∧ (accumulated frame42 4 0 start).acc.count.val < 5
    ∧ (accumulated frame42 6 0 start).acc.count.val = 6
    ∧ (∀ p ∈ [BadCsPolicy.restart, .restartPop, .staleFault],
        let s := accumulated frame42 5 0x2C { start with cfg := cfgWith p }
        s.acc.count.val = 5 ∧ s.acc.cs = 0x2C ∧ s.acc.cs ≠ 0x2D ∧ s.cfg.val.badCsPolicy = p) := by decide

/-- ChecksumDetectsOddFlips: a valid frame, one flip, and two flips that cancel (vector V-RX-12). -/
theorem witness_ChecksumDetectsOddFlips :
    frameValid frame42 = true ∧ frameValid ⟨0x01, 0x05, 0x02, 0x00, 0x2B, 0x2C⟩ = false
    ∧ frameValid ⟨0x01, 0x05, 0x02, 0x01, 0x2B, 0x2C⟩ = true := by decide

/-- SixByteFramesDelivered: the three starting states with room, a valid and an invalid frame, and a reply. -/
theorem witness_SixByteFramesDelivered :
    (∀ l ∈ [[LinkState.idle], [.idle, .waitAckOrNak], [.idle, .waitReportHeader]], Inv (stack l start))
    ∧ (∀ l ∈ [[LinkState.idle], [.idle, .waitAckOrNak], [.idle, .waitReportHeader]],
        let s := stack l start
        s.fault = false ∧ s.link.depth.toNat < s.cfg.val.stackDepth
        ∧ (top s = .idle ∨ top s = .waitAckOrNak ∨ top s = .waitReportHeader))
    ∧ (0x01 ^^^ 0x05 ^^^ 0x02 ^^^ 0x00 ^^^ 0x2A ^^^ 0x2C : Byte) = 0
    ∧ (0x01 ^^^ 0x05 ^^^ 0x02 ^^^ 0x00 ^^^ 0x2A ^^^ 0x2D : Byte) ≠ 0
    ∧ (0x05 ^^^ 0x03 ^^^ 0x01 ^^^ 0x01 ^^^ 0xF4 ^^^ 0xF2 : Byte) = 0 := by
  refine ⟨?_, by decide⟩
  intro l hl
  simp only [List.mem_cons, List.not_mem_nil, or_false] at hl
  rcases hl with rfl | rfl | rfl <;> exact inv_of_check _ (by decide)

/-- DequeueAnswersOldest, EnqueueRefinesList, DequeueRefinesList, DrainReturnsLiveEntriesInOrder: a queue at the margin, one below it with and
without the identity, and the empty one. -/
theorem witness_queue :
    QueueInv (queued [frame42, frame7] start) ∧ QueueInv (queued [frame42] start) ∧ QueueInv start
    ∧ (queued [frame42, frame7] start).queue.count.toNat = (queued [frame42, frame7] start).cfg.val.qCap - 2
    ∧ (queued [frame42] start).queue.count.toNat < (queued [frame42] start).cfg.val.qCap - 2
    ∧ 0 < (liveEntries (queued [frame42] start)).length
    ∧ sameIdentity ((liveEntries (queued [frame42] start)).getD 0 Frame.zero) ⟨0x01, 0x05, 0x02, 0, 0x63, 0x65⟩ = true
    ∧ (∀ g ∈ liveEntries (queued [frame42] start), sameIdentity g frame7 = false)
    ∧ liveEntries (queued [frame42, frame7] start) = frame42 :: [frame7] :=
  ⟨queueInv_of_check _ (by decide), queueInv_of_check _ (by decide), queueInv_of_check _ (by decide), by decide⟩

/-- MagicHeaderBytes, MagicDispatchHandsOffOrDiscards: each cursor; each width with and without its sink, and the lengths
0, 1 and 255 of a discard. -/
theorem witness_magic :
    (∀ k ∈ [(0 : BitVec 2), 1, 2, 3], ({ start with magic := ⟨k, 0, 0, 0, 0⟩ } : State).magic.cursor = k)
    ∧ (∀ w ∈ [LinkState.receivingMagicBytes, .receivingMagicDoubleBytes],
        top (stack [.idle, w] start) = w ∧ (stack [.idle, w] start).reg.bsink = false
        ∧ (stack [.idle, w] start).reg.dsink = false)
    ∧ ({ start with reg := ⟨false, true, true⟩ } : State).reg.bsink = true
    ∧ (∀ n ∈ [(0 : Byte), 1, 255],
        (discardCount (stack [.idle, .receivingMagicDoubleBytes] { start with magic := ⟨3, 0, 0, n, 0⟩ })).toNat
          = 2 * (n.toNat - 1)) := by decide

/-- MagicPhasesAdvance, DiscardDropsExactlyRemaining: each phase, held and enabled; the last byte of a discard and an
earlier one. -/
theorem witness_magicPhases :
    (∀ d ∈ [true, false],
      let s := busy .pump .mgSink { start with sink := ⟨.bytes, 4, 3, d⟩ }
      s.op ≠ .none ∧ s.phase = .mgSink ∧ s.sink.done = d)
    ∧ (∀ bs ∈ [[], [(0x10 : Byte), 0x20]], ∀ ph ∈ [Phase.mgDiscard, .mgCsum],
        let s := busy .wait ph (waiting bs start)
        s.op ≠ .none ∧ s.phase = ph ∧ s.rxFifo = bs)
    ∧ (∀ n ∈ [1, 2],
        let s := busy .pump .mgDiscard (waiting [0x10, 0x20] { start with magic := ⟨3, 0, 0, 0, BitVec.ofNat 16 n⟩ })
        s.fault = false ∧ s.op ≠ .none ∧ s.phase = .mgDiscard ∧ s.magic.remain.toNat = n ∧ 0 < n
        ∧ n ≤ s.rxFifo.length ∧ s.script.turns = []) := by decide

/-- ElapsedAfterTimeout, LoopStepPriority, WaitAtIdleReturnsAtOnce, WaitTimesOut: the deadline just set, with
`TIMEOUT_MS = 3` and 0; each case of the loop step. -/
theorem witness_supervisor :
    (let s := { start with deadline := 1003 }
     s.deadline = s.now + BitVec.ofNat 32 s.cfg.val.timeoutMs ∧ elapsed s = false)
    ∧ (let s := busy .wait .loop { start with deadline := 1000 }
       s.op = .wait ∧ s.phase = .loop ∧ top s = .idle)
    ∧ (let s := busy .tx .loop (stack [.idle, .waitAckOrNak] (waiting [0x06] start))
       s.op = .tx ∧ s.phase = .loop ∧ top s ≠ .idle ∧ s.rxFifo = 0x06 :: [])
    ∧ (let s := busy .wait .loop (stack [.idle, .waitAckOrNak] { start with deadline := 1000 })
       top s ≠ .idle ∧ s.rxFifo = [] ∧ elapsed s = true)
    ∧ (let s := busy .wait .loop (stack [.idle, .waitAckOrNak] { start with deadline := 1001 })
       top s ≠ .idle ∧ s.rxFifo = [] ∧ elapsed s = false)
    ∧ (let s := { start with script := { Script.empty with turns := [.hostCmd, .block], cmdIn := [[0x02]] } }
       s.fault = false ∧ s.op = .none ∧ top s = .idle ∧ s.script.turns = .hostCmd :: .block :: []
       ∧ s.script.cmdIn = [0x02] :: []) := by decide

theorem witness_WaitTimesOut :
    ∀ n ∈ [0, 3],
      let c : Config := if n = 0 then ⟨{ (cfgWith .restart).val with timeoutMs := 0 }, by decide⟩ else cfgWith .restart
      let s := turns (.block :: (List.replicate n [Turn.clock, .block]).flatten)
        (busy .wait .loop (stack [.idle, .receivingEvent] { start with cfg := c, deadline := 1000 + BitVec.ofNat 32 n }))
      s.fault = false ∧ s.op = .wait ∧ s.phase = .loop ∧ top s ≠ .idle ∧ s.rxFifo = [] ∧ s.cfg.val.timeoutMs = n
      ∧ s.deadline = s.now + BitVec.ofNat 32 s.cfg.val.timeoutMs
      ∧ s.script.turns = .block :: (List.replicate s.cfg.val.timeoutMs [Turn.clock, .block]).flatten ++ [] := by decide

/-- FaultIsFinal, FaultRaisedOnlyByStaleDispatch, ShutdownDispatchFaults: a faulted state, one that is not, and steps that
raise each kind (`test_faults` gives the kinds). -/
theorem witness_faults :
    ({ start with fault := true, faultKind := .staleAccumulator } : State).fault = true ∧ start.fault = false
    ∧ (∀ s ∈ [busy .pump .start (waiting [0x06] (accumulated frame42 6 1 (stack [.idle, .receivingEvent] start))),
          busy .wait .loop (waiting [0x33] (stack [.idle, .receivingMagicBytes] { start with magic := ⟨3, 1, 2, 0, 0⟩ })),
          busy .tx .loop (waiting [0x33] (stack [.idle, .shutdown] start))],
        stepTo (turns [.block] s) (fun t => t.fault) = true)
    ∧ (let s := turns [.block] (busy .tx .loop (waiting [0x33] (stack [.idle, .shutdown] start)))
       s.fault = false ∧ s.script.turns = .block :: [] ∧ s.rxFifo = 0x33 :: [] ∧ top s = .shutdown
       ∧ s.op = .tx ∧ s.phase = .loop) := by decide

/-- DisabledAgentsChangeNothing, one witness for each clause: a wait that holds, a busy command port, ports and a peer with
nothing to present, and the sink with no byte to read, once it is done, and outside `MG_SINK`. -/
theorem witness_DisabledAgentsChangeNothing :
    (let s := busy .wait .loop (stack [.idle, .waitAckOrNak] { start with deadline := 1001 })
     s.fault = false ∧ (nextTurn s).1 = .block ∧ blockEnabled s = false)
    ∧ (let s := command [0x01] (busy .pump .mgSink start)
       s.fault = false ∧ (nextTurn s).1 = .hostCmd ∧ s.op ≠ .none)
    ∧ (∀ a ∈ [Turn.hostCmd, .hostDrain, .peer],
        let s := turns [a] start
        s.fault = false ∧ (nextTurn s).1 = a ∧ s.script.cmdIn = [] ∧ s.script.drainIn = [] ∧ s.script.peerIn = [])
    ∧ (let s := turns [.sinkRead] (busy .pump .mgSink start)
       s.fault = false ∧ (nextTurn s).1 = .sinkRead ∧ s.phase = .mgSink ∧ s.sink.done = false ∧ s.rxFifo = [])
    ∧ (∀ a ∈ [Turn.sinkRead, .sinkDone],
        let s := turns [a] (busy .pump .mgSink (waiting [0x10] { start with sink := ⟨.bytes, 0, 0, true⟩ }))
        s.fault = false ∧ (nextTurn s).1 = a ∧ s.sink.done = true)
    ∧ (∀ a ∈ [Turn.sinkRead, .sinkDone],
        let s := turns [a] (busy .pump .mgCsum (waiting [0x10] start))
        s.fault = false ∧ (nextTurn s).1 = a ∧ s.phase ≠ .mgSink) := by decide

/-- R264 with R132, R133 and R218: a loop's hold is lifted by a clock tick or a byte, the sink's by its done, a discard's by
a byte; with none of them to come the block is held. -/
theorem test_held :
    (let s := busy .wait .loop (stack [.idle, .waitAckOrNak] { start with deadline := 1001 })
     held s = true ∧ held (turns [.hostDrain, .sinkDone] s) = true ∧ held (turns [.block, .clock] s) = false
     ∧ held (turns [.peer] s) = true
     ∧ held { s with script := { s.script with turns := [.peer], peerIn := [0x06] } } = false)
    ∧ (let s := busy .pump .mgSink (stack [.idle, .receivingMagicBytes] start)
       held (turns [.clock, .sinkRead] s) = true ∧ held (turns [.sinkRead, .sinkDone] s) = false)
    ∧ (let s := busy .pump .mgDiscard (stack [.idle, .receivingMagicBytes] start)
       held (turns [.clock] s) = true
       ∧ held { s with script := { s.script with turns := [.peer], peerIn := [0x06] } } = false)
    ∧ held start = false ∧ held { start with fault := true, op := .pump } = false := by decide

/-- R264: the end state is the first quiescent one after the last command and directive, here vector W6's with a clock
directive behind it; a wait that is never answered has none. -/
theorem test_endState :
    (match endState 9 (waiting [0x06] { start with script := scriptOf [.command [0x02], .block 1, .clock 2, .block 3] }) with
     | some t => decide (t.respCmd = [[0x00]] ∧ t.now = 1002 ∧ t.rxFifo = [0x06] ∧ t.script.turns = [.block, .block, .block])
     | none => false) = true
    ∧ (endState 9 (stack [.idle, .waitAckOrNak] { start with script := scriptOf [.command [0x02], .block 1] })).isNone = true
      := by decide

/-- EnvironmentSteps: each agent enabled, and the sink disabled both ways. -/
theorem witness_EnvironmentSteps :
    (turns [.clock] start).script.turns = .clock :: []
    ∧ (let s := { start with script := { Script.empty with turns := [.peer], peerIn := [0x06] } }
       s.fault = false ∧ s.script.turns = .peer :: [] ∧ s.script.peerIn = 0x06 :: [])
    ∧ (∀ a ∈ [Turn.sinkRead, .sinkDone],
        let s := turns [a] (busy .pump .mgSink (waiting [0x10] start))
        s.script.turns = a :: [] ∧ s.phase = .mgSink ∧ s.sink.done = false ∧ s.rxFifo = 0x10 :: [])
    ∧ (turns [.sinkRead] (busy .pump .mgCsum start)).phase ≠ .mgSink
    ∧ (turns [.sinkDone] (busy .pump .mgSink { start with sink := ⟨.bytes, 0, 0, true⟩ })).sink.done = true := by decide

/-- InputLeavesInOrder, FramesAreSentWhole, OneResponsePerOperation, MagicCommandByteIsNeverRead: a step of each kind, from
an idle and from a busy block. -/
theorem witness_wholeMachine_steps :
    ∀ s ∈ [turns [.clock] start, command [0x03] start, busy .pump .start (waiting [0x01] start),
        busy .pump .mgSink (turns [.sinkRead] (waiting [0x10] start)),
        busy .tx .loop { start with tx := ⟨[0x04, 0x05, 0x01], .waitAckOrNak⟩ }],
      stepTo s (fun _ => true) = true := by decide

/-- FatalCountCauses: a framing error, and an overflow resync. -/
theorem witness_FatalCountCauses :
    stepTo (busy .pump .start (waiting [0x06] start)) (fun t => t.fatalCount ≠ 0 ∧ t.lastError = .framing)
    ∧ stepTo (busy .pump .start (waiting [0x01] (stack [.idle, .waitAckOrNak, .waitAckOrNak] start)))
        (fun t => t.fatalCount ≠ 0 ∧ t.lastError = .none) := by decide

/-- ErrorKindCauses: a step that records each kind that any step records, and one that clears the slot. -/
theorem witness_ErrorKindCauses :
    (∀ p ∈ [(busy .pump .start start, ErrorKind.noChar),
          (busy .pump .start (waiting [0x2D] (accumulated frame42 5 0x2C (stack [.idle, .receivingEvent] start))), .badChecksum),
          (busy .pump .start (waiting [0x15] (stack [.idle, .waitAckOrNak] start)), .nak),
          (busy .wait .loop (stack [.idle, .waitAckOrNak] { start with deadline := 1000 }), .timeout),
          (busy .pump .start (waiting [0x2C] (accumulated frame42 5 0x2C
            (queued [frame42, frame7] (stack [.idle, .receivingEvent] start)))), .queueOverflow),
          (busy .pump .start (waiting [0x06] start), .framing)],
        p.1.lastError = .none ∧ stepTo p.1 (fun t => t.lastError = p.2) = true)
    ∧ stepTo (command [0x01] { start with lastError := .nak }) (fun t => t.lastError = .none) = true := by decide

/-- RegistrationsWrittenBySetOnly: each `SET_*` that changes its bit. -/
theorem witness_RegistrationsWrittenBySetOnly :
    ∀ op ∈ [(0x04 : Byte), 0x05, 0x06],
      stepTo (command [op, 0x01] start) (fun t => t.reg ≠ start.reg) = true := by decide

/-- ReachableStatesAreSafe: the reset state is reachable, and a state after a step from it. -/
theorem witness_ReachableStatesAreSafe :
    Reachable start ∧ ∃ t, step (State.resetWith (cfgWith .restart) 1000 { Script.empty with turns := [.clock] }) = .next t
      ∧ Reachable t :=
  ⟨.reset _ _ _, _, rfl, .step (.reset (cfgWith .restart) 1000 { Script.empty with turns := [.clock] }) rfl⟩

/-- R87, R188: an empty unit list is legal. Log entry 18: a list or an operand line may not end in a comma. -/
theorem test_assembler_commas :
    (match assembleLine "WRITE_STR 2, []".toList with
     | .ok i => decide (i = .writeStr 2 [])
     | .error _ => false) = true
    ∧ (∀ l ∈ ["READ_OBJ 3, 1,", "WRITE_STR 2, [1, 2, ]", "WRITE_STR 2, [,]", "READ_OBJ 3,, 1"],
        (match assembleLine l.toList with
         | .ok _ => false
         | .error e => decide (e = .badOperands)) = true) := by decide

/-- R88, R136, R131, R134: `POLL` over a magic report of length 0 without a sink runs each `PUMP` to its response, the
fourth through the checksum, and ends at the `PUMP` that finds no byte; the bytes of a report that a scripted peer still
sends are waited for, and a report that never ends leaves the port busy. -/
theorem test_pollLoop :
    let answers := fun (s : State) =>
      match pollLoop 9 9 s with
      | .next t => some (t.respCmd, t.op, t.phase)
      | .fault _ => none
      | .refused _ => none
    answers (waiting [0x0A, 0x22, 0x04, 0x00, 0x77] start)
      = some ([[0x01, 0x00], [0x01, 0x00], [0x01, 0x00], [0x01, 0x00], [0x00, 0x01]], .none, .start)
    ∧ answers { waiting [0x0A, 0x22, 0x04, 0x00] start with
        script := { Script.empty with turns := [.block, .block, .block, .block, .clock, .peer], peerIn := [0x77] } }
      = some ([[0x01, 0x00], [0x01, 0x00], [0x01, 0x00], [0x01, 0x00], [0x00, 0x01]], .none, .start)
    ∧ answers (waiting [0x0A, 0x22, 0x04, 0x00] start)
      = some ([[0x01, 0x00], [0x01, 0x00], [0x01, 0x00]], .pump, .mgCsum) := by decide

/-- DrainReturnsLiveEntriesInOrder, both clauses: a queue with a frame, unfaulted and faulted (R36, R76); the faulted one
answers no `DEQUEUE`, and `POLL` stops there too. -/
theorem witness_drainLoop :
    let s := queued [frame42] start
    let f := { s with fault := true, faultKind := .staleAccumulator }
    QueueInv s ∧ s.fault = false ∧ QueueInv f ∧ f.fault = true
    ∧ (match drainLoop 2 s with
        | .next t => decide (t.respDrain = [[0x01, 0x01, 0x05, 0x02, 0x00, 0x2A, 0x2C], [0x00]])
        | .fault _ => false
        | .refused _ => false) = true
    ∧ (∀ o ∈ [drainLoop 2 f, pollLoop 9 9 f],
        (match o with
          | .next _ => false
          | .fault r => decide (r = .stopped .staleAccumulator)
          | .refused _ => false) = true) :=
  ⟨queueInv_of_check _ (by decide), by decide, queueInv_of_check _ (by decide), by decide, by decide, by
    intro o ho
    simp only [List.mem_cons, List.not_mem_nil, or_false] at ho
    rcases ho with rfl | rfl <;> decide⟩

/-- AssemblerExamples: the ends of a 16-bit value. -/
theorem witness_AssemblerExamples : (0 : Nat) < 65536 ∧ (65535 : Nat) < 65536 := by decide

end Sys2Proof.Tests
end

section
/-! PROOF. The scope of the machine: the parameters of R8 stay (R260), and an agent with no enabled step changes nothing
(R6). -/

namespace Sys2Proof.Machine

/-! ### The configuration (R8, R260) -/

/-- R215, R186: the end of a wait leaves the parameters. -/
@[simp] theorem finishWait_cfg (s : State) : (finishWait s).cfg = s.cfg := by
  unfold finishWait
  split <;> simp [completeWithError, txFinish]

/-- A pump that takes a byte leaves the parameters. -/
theorem consumeByte_cfg {b : Byte} {r : List Byte} {s t : State} (h : consumeByte b r s = .next t) : t.cfg = s.cfg := by
  obtain ⟨u, hu, ⟨-, rfl⟩ | ⟨-, rfl⟩⟩ := consumeByte_cases b r s t h
  · exact (dispatched_fields hu).1
  · simpa using (dispatched_fields hu).1

/-- A command of the command port leaves the parameters. -/
theorem Issued.cfg_eq {s t : State} (h : Issued s t) : t.cfg = s.cfg := by
  cases h with
  | illegal | pump | waitIdle | resync | register | transmit => simp

/-- A command of the drain port leaves the parameters. -/
theorem issueDrain_cfg {c : List Byte} {s t : State} (h : issueDrain c s = .next t) : t.cfg = s.cfg := by
  obtain ⟨r, rfl | ⟨-, rfl⟩⟩ := issueDrain_cases c s t h <;> simp

/-- No agent's step writes the parameters. -/
theorem Stepped.cfg_eq {s t : State} (h : Stepped s t) : t.cfg = s.cfg := by
  cases h with
  | hostCmd c cs t _ _ _ hi => simpa using (issueCommand_issued _ _ _ hi).cfg_eq
  | hostDrain c cs t _ hi => simpa using issueDrain_cfg hi
  | consume b r t _ _ _ hc => simpa using consumeByte_cfg hc
  | idle | clock | peer | sinkRead | sinkDone | pumpEmpty | waitDone | waitTimeout | mgSink | mgDiscard | mgCsum => simp

/-- Settles O12: `step_stepped` lists the steps, and none of them writes `cfg`. -/
theorem stepKeepsConfiguration : Obligations.StepKeepsConfiguration := by
  intro s t h
  exact (step_stepped s t h).2.cfg_eq

/-! ### An agent with no enabled step (R6, R40, R44, R75, R76, R218) -/

/-- Taking the turn drops the head of the script's turns, if there is one. -/
theorem turned_eq (s : State) : turned s = { s with script := { s.script with turns := s.script.turns.tail } } := by
  unfold turned nextTurn
  split
  next h => rw [h, List.tail_nil, ← h]
  next h => rw [h, List.tail_cons]

/-- Without a fault, the step is that of the agent whose turn it is (R5). -/
theorem step_of_not_fault {s : State} (h : s.fault = false) : step s = takeTurn (nextTurn s).1 (turned s) := by
  simp [step, h, turned]

/-- R214, R218: a loop with no byte, below the baseline and before its deadline, waits. -/
theorem loopStep_waits {s : State} (ht : top s ≠ .idle) (hr : s.rxFifo = []) (he : elapsed s = false) :
    loopStep s = .next s := by
  simp [loopStep, ht, hr, he]

/-- R132: before `SINK_DONE` the block waits for the sink. -/
theorem mgSinkStep_waits {s : State} (h : s.sink.done = false) : mgSinkStep s = s := by simp [mgSinkStep, h]

/-- R133: a discard waits for a byte. -/
theorem mgDiscardStep_waits {s : State} (h : s.rxFifo = []) : mgDiscardStep s = s := by simp [mgDiscardStep, h]

/-- R134: the checksum byte is waited for. -/
theorem mgCsumStep_waits {s : State} (h : s.rxFifo = []) : mgCsumStep s = s := by simp [mgCsumStep, h]

/-- R6: the block holds while it has no enabled step. -/
theorem blockStep_holds {s : State} (h : blockEnabled s = false) : blockStep s = .next s := by
  cases ho : s.op <;> cases hp : s.phase <;> simp only [blockEnabled, ho, hp] at h <;> simp only [blockStep, ho, hp]
  case pump.start => cases h
  case wait.loop | tx.loop =>
    simp only [Bool.or_eq_false_iff, decide_eq_false_iff_not, Bool.not_eq_false', List.isEmpty_iff] at h
    obtain ⟨⟨ht, hr⟩, he⟩ := h
    exact loopStep_waits ht hr he
  case pump.mgSink | wait.mgSink | tx.mgSink => rw [mgSinkStep_waits h]
  case pump.mgDiscard | wait.mgDiscard | tx.mgDiscard => rw [mgDiscardStep_waits (by simpa using h)]
  case pump.mgCsum | wait.mgCsum | tx.mgCsum => rw [mgCsumStep_waits (by simpa using h)]

/-- R75: the command port accepts nothing while an operation is in progress, and none is presented without a command. -/
theorem hostCmdStep_waits {s : State} (h : s.op ≠ .none ∨ s.script.cmdIn = []) : hostCmdStep s = .next s := by
  unfold hostCmdStep
  obtain ho | hc := h
  · rw [if_neg ho]
  · simp [hc]

/-- R76: the drain port does nothing without a command. -/
theorem hostDrainStep_waits {s : State} (h : s.script.drainIn = []) : hostDrainStep s = .next s := by
  simp [hostDrainStep, h]

/-- R40: `PEER` does nothing without a byte to append. -/
theorem peerStep_waits {s : State} (h : s.script.peerIn = []) : peerStep s = s := by simp [peerStep, h]

/-- R44: the sink has no step outside `MG_SINK` or once it is done. -/
theorem sinkActive_eq_false_iff (s : State) : sinkActive s = false ↔ s.phase ≠ .mgSink ∨ s.sink.done = true := by
  simp [sinkActive, imp_iff_not_or]

/-- R44: *sink-done* of an inactive sink does nothing. -/
theorem sinkDoneStep_inactive {s : State} (h : s.phase ≠ .mgSink ∨ s.sink.done = true) : sinkDoneStep s = s := by
  simp [sinkDoneStep, (sinkActive_eq_false_iff s).2 h]

/-- R44: *sink-read* of an inactive sink, or with no byte to take, does nothing. -/
theorem sinkReadStep_waits {s : State} (h : s.phase ≠ .mgSink ∨ s.sink.done = true ∨ s.rxFifo = []) :
    sinkReadStep s = s := by
  unfold sinkReadStep
  obtain hi | hr : (s.phase ≠ .mgSink ∨ s.sink.done = true) ∨ s.rxFifo = [] := or_assoc.2 h
  · simp [(sinkActive_eq_false_iff s).2 hi]
  · simp [hr]

/-- Taking the turn leaves it as it was whether `BLOCK` has an enabled step. -/
theorem blockEnabled_turned (s : State) : blockEnabled (turned s) = blockEnabled s := by
  apply blockEnabled_congr <;> simp

/-- Taking the turn leaves the pending input. -/
@[simp] theorem turned_pending (s : State) :
    (turned s).script.cmdIn = s.script.cmdIn ∧ (turned s).script.drainIn = s.script.drainIn
      ∧ (turned s).script.peerIn = s.script.peerIn := by
  simp [turned_eq]

/-- Settles O49: each agent's step is the identity where the agent has none, and taking the turn does not change whether it
has one. -/
theorem disabledAgentsChangeNothing : Obligations.DisabledAgentsChangeNothing := by
  intro s hf hd
  refine ⟨?_, turned_eq s⟩
  change step s = .next (turned s)
  rw [step_of_not_fault hf]
  obtain ⟨ha, h⟩ | ⟨ha, h⟩ | ⟨ha, h⟩ | ⟨ha, h⟩ | ⟨ha, h⟩ | ⟨ha, h⟩ := hd <;> rw [ha, takeTurn]
  · exact blockStep_holds ((blockEnabled_turned s).trans h)
  · exact hostCmdStep_waits (by simpa using h)
  · exact hostDrainStep_waits (by simpa using h)
  · rw [peerStep_waits (by simpa using h)]
  · rw [sinkReadStep_waits (by simpa using h)]
  · rw [sinkDoneStep_inactive (by simpa using h)]

end Sys2Proof.Machine
end

section
/-! PROOF. The invariant of the machine (R22, R24, R27, R28, R36, R37): it holds at reset and every step of every agent keeps
it, so it holds of every reachable state. -/

namespace Sys2Proof.Machine

/-! ### Every step keeps the invariant -/

/-- Taking the turn keeps the invariant. -/
theorem Inv.turned {s : State} (h : Inv s) : Inv (turned s) :=
  h.congr h.op.congr (by simpa using h.status.noHandler)

/-- The sink has signalled only in `MG_SINK`. -/
theorem OpInv.sinkDone_false {s : State} (h : OpInv s) (hp : s.phase ≠ .mgSink) : s.sink.done = false := by
  by_contra hne
  exact hp (h.sinkDone (by simpa using hne))

/-- The pop at the checksum byte takes the magic report off the stack, so `PumpDone` has to leave the magic phases with it
(R134, R135). -/
theorem OpInv.pumpDone_pop {s : State} (h : OpInv s) (hp : s.phase = .mgCsum) : OpInv (pumpDone (pop s)) := by
  have hd := h.sinkDone_false (by simp [hp])
  rcases pumpDone_cases (pop s) with ⟨-, e⟩ | ⟨ho, e⟩ <;> rw [e]
  · exact .completed (by simp) (by simp [hp]) (by simp [hp]) (by simpa using h.remaining) (by simpa using hd)
      (by simpa using h.txLength) (by simpa using h.txChecksum)
  · exact ⟨fun e => absurd e ho, by simp, by simp, by simp [magicPhase], by simpa using h.remaining, by simp,
      by simp [hd], by simpa using h.txPush, by simpa using h.txLength, by simpa using h.txChecksum⟩

/-- The checksum byte of a magic report ends it: its pop and the end of the pump keep the invariant (R134). -/
theorem Inv.pumpDone_pop {s : State} (h : Inv s) (hp : s.phase = .mgCsum) : Inv (Machine.pumpDone (pop s)) :=
  ⟨h.link.pop.congr, h.acc.congr, h.queue.congr, h.op.pumpDone_pop hp,
    h.status.congr (by simpa using h.status.noHandler)⟩

/-- A pump that takes a byte keeps the invariant (R136, R214). -/
theorem Inv.consumeByte {b : Byte} {r : List Byte} {s t : State} (h : Inv s) (hf : s.fault = false)
    (hm : magicPhase s.phase = false) (ho : s.op ≠ .none) (hc : consumeByte b r s = .next t) : Inv t := by
  have hr : Inv { s with rxFifo := r } := h.congr h.op.congr h.status.noHandler
  obtain ⟨u, hu, ⟨-, rfl⟩ | ⟨he, rfl⟩⟩ := consumeByte_cases b r s t hc
  · exact hr.dispatched hf hm ho hu
  · have hp : magicPhase u.phase = false := (Bool.or_eq_false_iff.1 he).2
    refine (hr.dispatched hf hm ho hu).pumpDone ?_ ?_ <;> intro e <;> rw [e] at hp <;> cases hp

/-- A command of the drain port keeps the invariant (R76). -/
theorem Inv.issueDrain {c : List Byte} {s t : State} (h : Inv s) (hd : issueDrain c s = .next t) : Inv t := by
  have hn := h.status.noHandler
  obtain ⟨r, rfl | ⟨hc, rfl⟩⟩ := issueDrain_cases c s t hd
  · exact h.congr h.op.congr (by simpa using hn)
  · exact ⟨h.link.congr, h.acc.congr, (h.queue.drop hc).congr, h.op.congr, h.status.congr (by simpa using hn)⟩

/-- A step from `MG_SINK` or `MG_DISCARD` to a magic phase of the same report (R132, R133, R44) needs only the sink's
signal and `MG_REMAIN` to fit the new phase. -/
theorem OpInv.magicStep {s t : State} (h : OpInv s) (hp : s.phase = .mgSink ∨ s.phase = .mgDiscard)
    (hm : magicPhase t.phase = true) (hr : t.magic.remain.toNat ≤ 508) (hd : t.phase = .mgDiscard → t.magic.remain ≠ 0)
    (hs : t.sink.done = true → t.phase = .mgSink) (e1 : t.op = s.op := by simp) (e2 : t.tx = s.tx := by simp)
    (e3 : t.link = s.link := by simp) : OpInv t := by
  have ho : s.op ≠ .none := fun e => hp.elim (h.idlePhase e).1 (h.idlePhase e).2
  have ht : receivingMagic (top s) = true := h.magicTop ho (by obtain e | e := hp <;> rw [e] <;> rfl)
  refine ⟨fun _ e => ?_, fun _ e => ?_, fun e => absurd (e1 ▸ e) ho, fun _ _ => top_congr e3 ▸ ht, hr, hd, hs,
    e1 ▸ e2 ▸ h.txPush, e2 ▸ h.txLength, e2 ▸ h.txChecksum⟩ <;> rw [e] at hm <;> cases hm

/-- Every step of every agent keeps the invariant. -/
theorem Stepped.inv {s t : State} (h : Inv s) (hf : s.fault = false) (hs : Stepped s t) : Inv t := by
  have ht := h.turned
  have o := h.op
  have hn := h.status.noHandler
  cases hs with
  | idle => exact ht
  | clock | peer | sinkRead => exact h.congr o.congr (by simpa using hn)
  | sinkDone hx hp =>
    exact h.congr (o.magicStep (.inl hp) (by simp [hp, magicPhase]) (by simpa using o.remaining) (by simp [hp])
      (by simp [hp])) (by simpa using hn)
  | hostCmd c cs t hx ho hc hi =>
    have h1 : Inv { turned s with script := { (turned s).script with cmdIn := cs } } :=
      h.congr o.congr (by simpa using hn)
    exact h1.issued (by simpa using ho) (issueCommand_issued _ _ _ hi)
  | hostDrain c cs t hx hi =>
    have h1 : Inv { turned s with script := { (turned s).script with drainIn := cs } } :=
      h.congr o.congr (by simpa using hn)
    exact h1.issueDrain hi
  | pumpEmpty p hx ho hp hr =>
    exact h.congr (.completed (by simp) (by simp [hp]) (by simp [hp]) (by simpa using o.remaining)
      (by simpa using h.sinkDone_false (by simp [hp])) (by simpa using o.txLength) (by simpa using o.txChecksum)) (by simp)
  | consume b r t hx hr hc hu =>
    have hop : s.op ≠ .none ∧ magicPhase s.phase = false := by
      obtain ⟨ho, hp⟩ | ⟨ho | ho, hp, -⟩ := hc <;> simp [ho, hp, magicPhase]
    exact ht.consumeByte (by simpa using hf) (by simpa using hop.2) (by simpa using hop.1) hu
  | waitDone hx ho hp hi => exact ht.finishWait (by simpa using ho) (by simpa using hp)
  | waitTimeout hx ho hp hi hr he =>
    have h1 : Inv (setError .timeout (turned s)) := h.congr o.congr (by simp)
    exact h1.finishWait (by simpa using ho) (by simpa using hp)
  | mgSink hx ho hp hd =>
    exact h.congr (o.magicStep (.inl hp) rfl (by simpa using o.remaining) (by simp) (by simp)) (by simpa using hn)
  | mgDiscard b r hx ho hp hr =>
    have hne := o.discarding hp
    have hle := o.remaining
    refine h.congr (o.magicStep (.inr hp) ?_ ?_ ?_ (by simp [o.sinkDone_false, hp])) (by simpa using hn)
    · show magicPhase (if s.magic.remain - 1 = 0 then .mgCsum else .mgDiscard) = true
      split <;> rfl
    · show (s.magic.remain - 1).toNat ≤ 508
      bv_omega
    · show (if s.magic.remain - 1 = 0 then .mgCsum else .mgDiscard) = Phase.mgDiscard → s.magic.remain - 1 ≠ 0
      intro e h0
      rw [if_pos h0] at e; cases e
  | mgCsum b r hx ho hp hr =>
    have h1 : Inv { turned s with rxFifo := r } := h.congr o.congr (by simpa using hn)
    exact h1.pumpDone_pop (by simpa using hp)

/-- Settles O11: `step_stepped` lists what one step can do, and each of its cases keeps every part of the invariant. -/
theorem stepKeepsInvariant : Obligations.StepKeepsInvariant := by
  intro s t h hst
  obtain ⟨hf, hs⟩ := step_stepped s t hst
  exact hs.inv h hf

/-! ### The state after reset and the reachable states -/

/-- After reset the stack's baseline entry is `Idle`, since there is at least one entry (R8, R45). -/
theorem resetWith_base (cfg : Config) (now : Millis) (script : Script) :
    (State.resetWith cfg now script).link.ls.getD 0 .shutdown = .idle := by
  have hp : 0 < cfg.val.stackDepth := (stackDepth_range (State.resetWith cfg now script)).1
  simp [State.resetWith, hp]

/-- Settles O9: `State.resetWith` writes each of the values R45 gives. -/
theorem resetValues : Obligations.ResetValues := by
  intro cfg now script
  exact ⟨resetWith_base cfg now script, rfl, rfl, rfl, rfl, rfl, rfl, rfl, rfl, rfl, rfl, rfl, rfl, rfl, rfl, rfl, rfl,
    rfl, rfl, rfl, rfl, rfl, rfl, rfl, rfl⟩

/-- After reset the stack holds its baseline alone (R21, R45). -/
theorem LinkInv.resetWith (cfg : Config) (now : Millis) (script : Script) :
    LinkInv (State.resetWith cfg now script) where
  length := List.length_replicate
  depthLow := Nat.le_refl 1
  depthTop := (stackDepth_range (State.resetWith cfg now script)).1
  base := resetWith_base cfg now script
  entries := fun _ h1 h2 => absurd h2 (Nat.not_lt.2 h1)

/-- After reset the queue is empty (R27, R45). -/
theorem QueueInv.resetWith (cfg : Config) (now : Millis) (script : Script) :
    QueueInv (State.resetWith cfg now script) where
  length := List.length_replicate
  margin := Nat.zero_le _
  readIdx := Nat.lt_of_lt_of_le (show 0 < 4 by decide) (qCap_range (State.resetWith cfg now script)).1
  writeIdx := (Nat.zero_mod _).symm
  distinct := fun _ _ _ h => absurd h (Nat.not_lt_zero _)

/-- Settles O10: beside the stack and the queue, the accumulator is cleared, no operation is in progress, the latch is
empty, and there is neither an error nor a fault. -/
theorem resetSatisfiesInvariant : Obligations.ResetSatisfiesInvariant := by
  intro cfg now script
  exact ⟨.resetWith cfg now script, .zero rfl rfl, .resetWith cfg now script,
    .completed rfl (by simp [State.resetWith]) (by simp [State.resetWith]) (by simp [State.resetWith]) rfl
      (by simp [State.resetWith]) rfl,
    ⟨by simp [State.resetWith], by simp [State.resetWith], by simp [State.resetWith]⟩⟩

/-- The invariant holds of every reachable state: by induction over the run. -/
theorem Reachable.inv {s : State} (h : Reachable s) : Inv s := by
  induction h with
  | reset cfg now script => exact resetSatisfiesInvariant cfg now script
  | step _ hst ih => exact stepKeepsInvariant _ _ ih hst

/-- Settles O57: each part is read off the invariant of the reachable states. -/
theorem reachableStatesAreSafe : Obligations.ReachableStatesAreSafe := by
  intro s hr
  have h := hr.inv
  exact ⟨h.top_ne_shutdown, h.status.noShutdown, h.status.noHandler, h.queue.margin, h.link.depthLow, h.link.depthTop⟩

end Sys2Proof.Machine
end

section
/-! PROOF. The agents one by one: a step of the machine exists exactly without a fault (R36), and what the environment's
turns, the drain port's and a dispatch in `Shutdown` do. -/

namespace Sys2Proof.Machine

/-- Without a fault, the step is that of the agent the script names next (R5). -/
theorem step_of_turn {s : State} {x : Turn} {ts : List Turn} (hf : s.fault = false) (ht : s.script.turns = x :: ts) :
    step s = takeTurn x { s with script := { s.script with turns := ts } } := by
  simp [step, hf, nextTurn, ht]

/-! ### Every turn answers a next state -/

/-- Every byte dispatched answers a next state, whether it has a class or not. -/
theorem dispatchByte_next (b : Byte) (s : State) : ∃ t, dispatchByte b s = .next t := by
  unfold dispatchByte
  split
  · exact exec_next _ s
  · exact ⟨_, rfl⟩

/-- Every pump that takes a byte answers a next state. -/
theorem consumeByte_next (b : Byte) (r : List Byte) (s : State) : ∃ t, consumeByte b r s = .next t := by
  obtain ⟨u, hu⟩ := dispatchByte_next b { s with rxFifo := r }
  simp only [consumeByte, hu, afterDispatch]
  split <;> exact ⟨_, rfl⟩

/-- The poll answers a next state (R136). -/
theorem pumpStart_next (s : State) : ∃ t, pumpStart s = .next t := by
  unfold pumpStart
  split
  · exact ⟨_, rfl⟩
  · exact consumeByte_next _ _ s

/-- The wait loop answers a next state (R214). -/
theorem loopStep_next (s : State) : ∃ t, loopStep s = .next t := by
  unfold loopStep
  split
  · exact ⟨_, rfl⟩
  split
  · exact consumeByte_next _ _ s
  · split <;> exact ⟨_, rfl⟩

/-- The block's step answers a next state in every pair of `OP` and `PHASE`. -/
theorem blockStep_next (s : State) : ∃ t, blockStep s = .next t := by
  unfold blockStep
  split
  case h_2 => exact pumpStart_next s
  case h_5 | h_7 => exact loopStep_next s
  all_goals exact ⟨_, rfl⟩

/-- A command presented to the command port answers a next state, legal or not. -/
theorem issueCommand_next (c : List Byte) (s : State) : ∃ t, issueCommand c s = .next t := by
  unfold issueCommand
  split
  · exact exec_next _ s
  · exact ⟨_, rfl⟩

/-- A command presented to the drain port answers a next state, legal or not. -/
theorem issueDrain_next (c : List Byte) (s : State) : ∃ t, issueDrain c s = .next t := by
  unfold issueDrain
  split
  · exact exec_next _ s
  · exact ⟨_, rfl⟩

/-- Whatever agent has the turn, its step answers a next state. -/
theorem takeTurn_next (x : Turn) (s : State) : ∃ t, takeTurn x s = .next t := by
  cases x with
  | hostCmd =>
    simp only [takeTurn, hostCmdStep]
    split
    · split
      · exact ⟨_, rfl⟩
      · exact issueCommand_next _ _
    · exact ⟨_, rfl⟩
  | hostDrain =>
    simp only [takeTurn, hostDrainStep]
    split
    · exact ⟨_, rfl⟩
    · exact issueDrain_next _ _
  | block => exact blockStep_next s
  | peer | clock | sinkRead | sinkDone => exact ⟨_, rfl⟩

/-- Settles O46: `step` tests `FAULT` first, and without a fault every agent's turn answers a next state. -/
theorem faultIsFinal : Obligations.FaultIsFinal := by
  intro s
  refine ⟨fun hf => by simp [step, hf], fun hf => ?_⟩
  rw [step_of_not_fault hf]
  exact takeTurn_next _ _

/-! ### The environment's turns -/

/-- R40: `PEER` appends its next byte. -/
theorem peerStep_appends {s : State} {b : Byte} {bs : List Byte} (h : s.script.peerIn = b :: bs) :
    peerStep s = { s with rxFifo := s.rxFifo ++ [b], script := { s.script with peerIn := bs } } := by
  simp [peerStep, h]

/-- R44: the sink has a step in `MG_SINK` until it is done. -/
theorem sinkActive_of_mgSink {s : State} (hp : s.phase = .mgSink) (hd : s.sink.done = false) : sinkActive s = true := by
  simp [sinkActive, hp, hd]

/-- R44: *sink-read* of an active sink moves the oldest byte. -/
theorem sinkReadStep_moves {s : State} {b : Byte} {r : List Byte} (ha : sinkActive s = true) (hr : s.rxFifo = b :: r) :
    sinkReadStep s = { s with rxFifo := r, sinkData := s.sinkData ++ [b] } := by
  simp [sinkReadStep, ha, hr]

/-- R44: *sink-done* of an active sink sets `SINK_DONE`. -/
theorem sinkDoneStep_signals {s : State} (ha : sinkActive s = true) :
    sinkDoneStep s = { s with sink := { s.sink with done := true } } := by
  simp [sinkDoneStep, ha]

/-- Settles O50: the step is the step of the agent the script names, and that agent's step is known in each case. -/
theorem environmentSteps : Obligations.EnvironmentSteps := by
  intro s ts hf
  refine ⟨fun ht => ?_, fun b bs ht hp => ?_, fun b r ht hp hd hr => ?_, fun ht hp hd => ?_, fun ht hi => ?_⟩
  · rw [step_of_turn hf ht]; rfl
  · rw [step_of_turn hf ht, takeTurn, peerStep_appends (by exact hp)]
  · rw [step_of_turn hf ht, takeTurn, sinkReadStep_moves (by exact sinkActive_of_mgSink hp hd) (by exact hr)]
  · rw [step_of_turn hf ht, takeTurn, sinkDoneStep_signals (by exact sinkActive_of_mgSink hp hd)]
  · obtain ht | ht := ht <;> rw [step_of_turn hf ht, takeTurn]
    · rw [sinkReadStep_waits (by exact hi.imp_right .inl)]
    · rw [sinkDoneStep_inactive (by exact hi)]

/-! ### A dispatch in `Shutdown` -/

/-- R129: in `Shutdown` a byte taken raises the fault, which ends the step. -/
theorem consumeByte_shutdown {b : Byte} {r : List Byte} {s : State} (ht : top s = .shutdown) :
    consumeByte b r s = .next (raiseFault .shutdownState { s with rxFifo := r }) := by
  have htop : top { s with rxFifo := r } = .shutdown := ht
  simp [consumeByte, dispatchByte, htop, decode, decodeReceive, afterDispatch]

/-- R136, R214: a `PUMP` at `START`, and a wait or transmit operation at `LOOP` below the baseline, take the oldest byte. -/
theorem blockStep_consumes {s : State} {b : Byte} {r : List Byte} (hr : s.rxFifo = b :: r)
    (h : (s.op = .pump ∧ s.phase = .start) ∨ ((s.op = .wait ∨ s.op = .tx) ∧ s.phase = .loop ∧ top s ≠ .idle)) :
    blockStep s = consumeByte b r s := by
  obtain ⟨ho, hp⟩ | ⟨ho | ho, hp, ht⟩ := h
  · simp [blockStep, ho, hp, pumpStart, hr]
  · simp [blockStep, ho, hp, loopStep, ht, hr]
  · simp [blockStep, ho, hp, loopStep, ht, hr]

/-- Settles O48: the block takes the byte, and its dispatch in `Shutdown` faults. -/
theorem shutdownDispatchFaults : Obligations.ShutdownDispatchFaults := by
  intro s ts b rest hf hts hr ht hop
  have hop' : (s.op = .pump ∧ s.phase = .start) ∨ ((s.op = .wait ∨ s.op = .tx) ∧ s.phase = .loop ∧ top s ≠ .idle) :=
    hop.imp_right fun ⟨ho, hp⟩ => ⟨ho, hp, by simp [ht]⟩
  rw [step_of_turn hf hts, takeTurn, blockStep_consumes (by exact hr) (by exact hop'), consumeByte_shutdown (by exact ht)]
  rfl

/-! ### The drain port -/

/-- Settles O24: the port takes its next command, if it has one; the answer is logged, and a `DEQUEUE` moves the queue's
read side. -/
theorem drainPortFrame : Obligations.DrainPortFrame := by
  intro s t ts hts hst
  rw [step_of_turn (step_stepped s t hst).1 hts, takeTurn, hostDrainStep] at hst
  split at hst
  · cases hst
    exact ⟨s.queue, s.respDrain, s.script.drainIn, rfl, rfl, rfl⟩
  · next c cs _ =>
    obtain ⟨r, rfl | ⟨-, rfl⟩⟩ := issueDrain_cases _ _ _ hst
    · exact ⟨_, _, cs, rfl, rfl, rfl⟩
    · exact ⟨_, _, cs, rfl, rfl, rfl⟩

end Sys2Proof.Machine
end

section
/-! PROOF. Safety over every step (R29, R31, R32, R36, R40 to R43, R56, R59, R77): what can raise a fault, take or flush a
received byte, write to a log, count a fatal error, or write a registration. Each is a case analysis over `Stepped`. -/

namespace Sys2Proof.Machine

/-! ### What the steps' parts leave -/

/-- Fields no issue of a command writes. -/
theorem Issued.fields {s t : State} (h : Issued s t) :
    t.fault = s.fault ∧ t.fatalCount = s.fatalCount ∧ t.txLog = s.txLog ∧ t.respDrain = s.respDrain ∧ t.now = s.now := by
  cases h with
  | illegal | pump | waitIdle | resync | register | transmit => simp

/-- Fields no command of the drain port writes. -/
theorem issueDrain_fields {c : List Byte} {s t : State} (h : issueDrain c s = .next t) :
    t.fault = s.fault ∧ t.fatalCount = s.fatalCount ∧ t.reg = s.reg ∧ t.op = s.op ∧ t.rxFifo = s.rxFifo
    ∧ t.txLog = s.txLog ∧ t.respCmd = s.respCmd ∧ t.now = s.now := by
  obtain ⟨r, rfl | ⟨-, rfl⟩⟩ := issueDrain_cases c s t h <;> simp

/-- Fields no pump that takes a byte writes. -/
theorem consumeByte_fields {b : Byte} {r : List Byte} {s t : State} (h : consumeByte b r s = .next t) :
    t.reg = s.reg ∧ t.txLog = s.txLog ∧ t.respDrain = s.respDrain ∧ t.now = s.now := by
  obtain ⟨u, hu, ⟨-, rfl⟩ | ⟨-, rfl⟩⟩ := consumeByte_cases b r s t h <;> simp [dispatched_fields hu]

/-! ### Faults (R36, R235) -/

/-- The two link states that accumulate a frame. -/
theorem receivingFrame_iff (l : LinkState) :
    receivingFrame l = true ↔ l = .receivingReport ∨ l = .receivingEvent := by
  cases l <;> simp [receivingFrame]

/-- The two link states that parse a magic header. -/
theorem receivingMagic_iff (l : LinkState) :
    receivingMagic l = true ↔ l = .receivingMagicBytes ∨ l = .receivingMagicDoubleBytes := by
  cases l <;> simp [receivingMagic]

/-- A bad checksum raises no fault by itself (R127). -/
@[simp] theorem badChecksum_fault (s : State) : (badChecksum s).fault = s.fault := by
  rcases badChecksum_cases s with e | e | e <;> rw [e] <;> simp

/-- A dispatch raises a fault at a full accumulator, at a complete magic header and in `Shutdown`, and then does nothing
else (R126, R129, R130). -/
theorem Dispatched.of_fault {b : Byte} {s u : State} (h : Dispatched b s u) (hf : s.fault = false)
    (hu : u.fault = true) : ∃ k, u = raiseFault k s
      ∧ ((k = .staleAccumulator ∧ s.acc.count = 6 ∧ (top s = .receivingReport ∨ top s = .receivingEvent))
        ∨ (k = .staleMagicCursor ∧ s.magic.cursor = 3
            ∧ (top s = .receivingMagicBytes ∨ top s = .receivingMagicDoubleBytes))
        ∨ (k = .shutdownState ∧ top s = .shutdown)) := by
  cases h with
  | frameStale hr h6 => exact ⟨_, rfl, .inl ⟨rfl, Fin.ext h6, (receivingFrame_iff _).1 hr⟩⟩
  | headerStale hr h3 => exact ⟨_, rfl, .inr (.inl ⟨rfl, h3, (receivingMagic_iff _).1 hr⟩)⟩
  | shutdown ht => exact ⟨_, rfl, .inr (.inr ⟨rfl, ht⟩)⟩
  | eventLead | magicLead | overflow | ack | nak | reportLead | framing | frameByte | frameGood | frameBad | headerCmd
  | headerIdx | headerSink | headerDiscard => simp [overflowResync, replaceTop, hf] at hu

/-- A pump raises a fault only in its dispatch, which ends the step. -/
theorem consumeByte_of_fault {b : Byte} {r : List Byte} {s t : State} (h : consumeByte b r s = .next t)
    (ht : t.fault = true) : Dispatched b { s with rxFifo := r } t := by
  obtain ⟨u, hu, ⟨-, rfl⟩ | ⟨he, rfl⟩⟩ := consumeByte_cases b r s t h
  · exact hu
  · simp only [pumpDone_fields] at ht
    simp [ht] at he

/-- Settles O47: only a dispatch writes `FAULT`, and a pump dispatches the oldest byte. -/
theorem faultRaisedOnlyByStaleDispatch : Obligations.FaultRaisedOnlyByStaleDispatch := by
  intro s t h ht
  obtain ⟨hf, hs⟩ := step_stepped s t h
  cases hs with
  | consume b r t hx hr _ hc =>
    obtain ⟨k, rfl, hk⟩ := (consumeByte_of_fault hc ht).of_fault (by simpa using hf) ht
    have htop : top { turned s with rxFifo := r } = top s := top_congr (by simp)
    rw [htop] at hk
    exact ⟨hx, b, r, k, hr, rfl, by simpa using hk⟩
  | hostCmd c cs t _ _ _ hi => simp [(issueCommand_issued _ _ _ hi).fields, hf] at ht
  | hostDrain c cs t _ hi => simp [issueDrain_fields hi, hf] at ht
  | waitDone | waitTimeout => simp [finishWait_fields, hf] at ht
  | idle | clock | peer | sinkRead | sinkDone | pumpEmpty | mgSink | mgDiscard | mgCsum => simp [hf] at ht

/-! ### The input and the fatal counter (R32, R40, R105) -/

/-- The input flushed, with the stack at its baseline and the queue empty, as a resync leaves them (R105). -/
def Flushed (t : State) : Prop := t.rxFifo = [] ∧ t.link.depth = 1 ∧ t.queue.count = 0

/-- A resync flushes. -/
theorem flushed_resyncLink (s : State) : Flushed (resyncLink s) := by simp [Flushed]

/-- What an operation of the block can do to the input it has not taken and to `FATAL_COUNT` (R32). -/
inductive InputEffect (s t : State) : Prop where
  | kept : t.rxFifo = s.rxFifo → t.fatalCount = s.fatalCount → InputEffect s t
  | framing : t.rxFifo = s.rxFifo → t.lastError = .framing → t.fatalCount = sat8Inc s.fatalCount → InputEffect s t
  | overflow : stackFull s = true → Flushed t → t.fatalCount = sat8Inc s.fatalCount → InputEffect s t

/-- The effect is one on the input, the stack, the queue, the error and the counter alone. -/
theorem InputEffect.congr {s u t : State} (h : InputEffect s u) (e1 : t.rxFifo = u.rxFifo := by simp)
    (e2 : t.link = u.link := by simp) (e3 : t.queue = u.queue := by simp) (e4 : t.lastError = u.lastError := by simp)
    (e5 : t.fatalCount = u.fatalCount := by simp) : InputEffect s t := by
  cases h with
  | kept h1 h2 => exact .kept (e1.trans h1) (e5.trans h2)
  | framing h1 h2 h3 => exact .framing (e1.trans h1) (e4.trans h2) (e5.trans h3)
  | overflow h1 h2 h3 => exact .overflow h1 (by simpa [Flushed, e1, e2, e3] using h2) (e5.trans h3)

/-- The effect does not depend on the fields it starts from beyond the input, the stack, its bound and the counter. -/
theorem InputEffect.congr_left {s s' t : State} (h : InputEffect s t) (e1 : s.rxFifo = s'.rxFifo := by simp)
    (e2 : s.link = s'.link := by simp) (e3 : s.cfg = s'.cfg := by simp) (e4 : s.fatalCount = s'.fatalCount := by simp) :
    InputEffect s' t := by
  cases h with
  | kept h1 h2 => exact .kept (h1.trans e1) (h2.trans e4)
  | framing h1 h2 h3 => exact .framing (h1.trans e1) h2 (e4 ▸ h3)
  | overflow h1 h2 h3 => exact .overflow (by simpa [stackFull, e2, e3] using h1) h2 (e4 ▸ h3)

/-- The rest of the input stays, or all of it is flushed. -/
theorem InputEffect.input {s t : State} (h : InputEffect s t) : t.rxFifo = s.rxFifo ∨ Flushed t := by
  cases h with
  | kept e | framing e => exact .inl e
  | overflow _ hf => exact .inr hf

/-- A count that saturates adds exactly one where it changes (R10). -/
theorem sat8Inc_toNat {x : Byte} (h : sat8Inc x ≠ x) : (sat8Inc x).toNat = x.toNat + 1 := by
  have hx : x ≠ 0xFF := fun e => h (by simp [sat8Inc, e])
  rw [sat8Inc, if_neg hx]
  bv_omega

/-- A counter that changes has counted one framing error or one overflow. -/
theorem InputEffect.counted {s t : State} (h : InputEffect s t) (hne : t.fatalCount ≠ s.fatalCount) :
    t.fatalCount.toNat = s.fatalCount.toNat + 1
    ∧ (t.lastError = .framing ∨ (s.link.depth.toNat = s.cfg.val.stackDepth ∧ Flushed t)) := by
  cases h with
  | kept _ e => exact absurd e hne
  | framing _ hl e =>
    rw [e] at hne ⊢
    exact ⟨sat8Inc_toNat hne, .inl hl⟩
  | overflow hs hf e =>
    rw [e] at hne ⊢
    exact ⟨sat8Inc_toNat hne, .inr ⟨of_decide_eq_true hs, hf⟩⟩

/-- The overflow branch of `Push` resyncs and counts (R100). -/
theorem overflowResync_effect {s : State} (h : stackFull s = true) : InputEffect s (overflowResync s) :=
  .overflow h (flushed_resyncLink s) (by simp [overflowResync])

/-- `Push` leaves the input, or overflows. -/
theorem push_effect (w : LinkState) (s : State) : InputEffect s (push w s).2 := by
  rcases push_cases w s with ⟨hf, e⟩ | ⟨-, -, e⟩ | ⟨-, -, e⟩ <;> rw [e]
  · exact overflowResync_effect hf
  · exact .kept (by simp) (by simp)
  · exact .kept (by simp) (by simp)

/-- A bad checksum counts nothing and flushes nothing (R127). -/
theorem badChecksum_kept (s : State) :
    (badChecksum s).rxFifo = s.rxFifo ∧ (badChecksum s).fatalCount = s.fatalCount := by
  rcases badChecksum_cases s with e | e | e <;> rw [e] <;> simp

/-- A dispatch counts a framing error, overflows, or leaves the input and the counter. -/
theorem Dispatched.effect {b : Byte} {s u : State} (h : Dispatched b s u) : InputEffect s u := by
  cases h with
  | overflow _ hf => exact overflowResync_effect hf
  | framing => exact .framing (by simp) (by simp) (by simp)
  | frameBad => exact .kept (by simp [badChecksum_kept]) (by simp [badChecksum_kept])
  | eventLead | magicLead | ack | nak | reportLead | frameStale | frameByte | frameGood | headerCmd | headerIdx
  | headerSink | headerDiscard | headerStale | shutdown =>
    exact .kept (by simp [replaceTop]) (by simp [replaceTop])

/-- A pump does to the rest of the input what its dispatch does. -/
theorem consumeByte_effect {b : Byte} {r : List Byte} {s t : State} (h : consumeByte b r s = .next t) :
    InputEffect { s with rxFifo := r } t := by
  obtain ⟨u, hu, ⟨-, rfl⟩ | ⟨-, rfl⟩⟩ := consumeByte_cases b r s t h
  · exact hu.effect
  · exact hu.effect.congr

/-- The end of a wait pushes the wait state of a transmission (R186, R215). -/
theorem finishWait_effect (s : State) : InputEffect s (finishWait s) := by
  unfold finishWait
  split
  · exact .kept (by simp [completeWithError]) (by simp [completeWithError])
  · exact ((push_effect s.tx.push (transmitFrame s)).congr_left).congr (by simp [txFinish, completeWithError])
      (by simp [txFinish, completeWithError]) (by simp [txFinish, completeWithError])
      (by simp [txFinish, completeWithError]) (by simp [txFinish, completeWithError])

/-- The issue of a command leaves the input, or is a `RESYNC` (R217). -/
theorem Issued.input {s t : State} (h : Issued s t) : t.rxFifo = s.rxFifo ∨ Flushed t := by
  cases h with
  | resync => exact .inr (flushed_resyncLink _)
  | illegal | pump | waitIdle | register | transmit => exact .inl (by simp)

/-- Only `CLOCK` writes `NOW` (R42). -/
theorem Stepped.now_eq {s t : State} (h : Stepped s t) (hx : (nextTurn s).1 ≠ .clock) : t.now = s.now := by
  cases h with
  | clock hc => exact absurd hc hx
  | hostCmd c cs t _ _ _ hi => simp [(issueCommand_issued _ _ _ hi).fields]
  | hostDrain c cs t _ hi => simp [issueDrain_fields hi]
  | consume b r t _ _ _ hc => simp [consumeByte_fields hc]
  | waitDone | waitTimeout => simp [finishWait_fields]
  | idle | peer | sinkRead | sinkDone | pumpEmpty | mgSink | mgDiscard | mgCsum => simp

/-- `CLOCK`'s turn adds one to `NOW` (R42). -/
theorem step_clock_now {s t : State} (hf : s.fault = false) (hx : (nextTurn s).1 = .clock) (h : step s = .next t) :
    t.now = s.now + 1 := by
  rw [step_of_not_fault hf, hx, takeTurn] at h
  cases h
  simp [clockStep]

/-- Settles O51: the input is as before, shorter by its oldest byte, longer by a last one, or flushed. -/
theorem inputLeavesInOrder : Obligations.InputLeavesInOrder := by
  intro s t h
  obtain ⟨hf, hs⟩ := step_stepped s t h
  refine ⟨?_, ?_⟩
  · cases hs with
    | peer b bs hx => exact .inr (.inr (.inl ⟨b, rfl, hx⟩))
    | sinkRead b r hx _ hr => exact .inr (.inl ⟨b, hr, .inr hx⟩)
    | mgDiscard b r hx _ _ hr => exact .inr (.inl ⟨b, hr, .inl hx⟩)
    | mgCsum b r hx _ _ hr => exact .inr (.inl ⟨b, by simpa using hr, .inl hx⟩)
    | hostCmd c cs t hx _ _ hi =>
      obtain e | ⟨h1, h2, h3⟩ := (issueCommand_issued _ _ _ hi).input
      · exact .inl (by simpa using e)
      · exact .inr (.inr (.inr ⟨h1, h2, h3, .inr hx⟩))
    | hostDrain c cs t _ hi => exact .inl (by simp [issueDrain_fields hi])
    | consume b r t hx hr _ hc =>
      obtain e | ⟨h1, h2, h3⟩ := (consumeByte_effect hc).input
      · exact .inr (.inl ⟨b, e ▸ hr, .inl hx⟩)
      · exact .inr (.inr (.inr ⟨h1, h2, h3, .inl hx⟩))
    | waitDone hx | waitTimeout hx =>
      exact (finishWait_effect _).input.imp (fun e => by simpa using e)
        fun ⟨h1, h2, h3⟩ => .inr (.inr ⟨h1, h2, h3, .inl hx⟩)
    | idle | clock | sinkDone | pumpEmpty | mgSink => exact .inl (by simp)
  · split
    next hx => exact step_clock_now hf hx h
    next hx => exact hs.now_eq hx

/-- Settles O54: `FATAL_COUNT` changes only in the block's dispatch or at the end of a wait, by their effect on it. -/
theorem fatalCountCauses : Obligations.FatalCountCauses := by
  intro s t h hne
  -- an operation of the block, from a state with the stack, its bound and the counter of `s`
  have counted : ∀ u : State, (nextTurn s).1 = .block → InputEffect u t → u.link = s.link → u.cfg = s.cfg →
      u.fatalCount = s.fatalCount → t.fatalCount.toNat = s.fatalCount.toNat + 1 ∧ (nextTurn s).1 = .block
      ∧ (t.lastError = .framing
        ∨ (s.link.depth.toNat = s.cfg.val.stackDepth ∧ t.link.depth = 1 ∧ t.queue.count = 0 ∧ t.rxFifo = [])) := by
    intro u hx hu el ec ef
    obtain ⟨h1, h2⟩ := hu.counted (ef ▸ hne)
    rw [el, ec] at h2
    exact ⟨ef ▸ h1, hx, h2.imp_right fun ⟨hd, h3, h4, h5⟩ => ⟨hd, h4, h5, h3⟩⟩
  obtain ⟨-, hs⟩ := step_stepped s t h
  cases hs with
  | consume b r t hx _ _ hc => exact counted _ hx (consumeByte_effect hc) (by simp) (by simp) (by simp)
  | waitDone hx | waitTimeout hx => exact counted _ hx (finishWait_effect _) (by simp) (by simp) (by simp)
  | hostCmd c cs t _ _ _ hi => simp [(issueCommand_issued _ _ _ hi).fields] at hne
  | hostDrain c cs t _ hi => simp [issueDrain_fields hi] at hne
  | idle | clock | peer | sinkRead | sinkDone | pumpEmpty | mgSink | mgDiscard | mgCsum => simp at hne

/-! ### The logs (R41, R43, R59, R77) -/

/-- Settles O52: only the end of a transmit operation's wait writes `TX_LOG`. -/
theorem framesAreSentWhole : Obligations.FramesAreSentWhole := by
  intro s t h
  -- the end of a wait, in a state with the operation, the latch and the log of `s`
  have finished : ∀ u : State, (nextTurn s).1 = .block → (s.op = .wait ∨ s.op = .tx) → s.phase = .loop →
      u.op = s.op → u.tx = s.tx → u.txLog = s.txLog →
      (finishWait u).txLog = s.txLog
      ∨ ((finishWait u).txLog = s.txLog ++ s.tx.frame ∧ (nextTurn s).1 = .block ∧ s.op = .tx ∧ s.phase = .loop
        ∧ (finishWait u).op = .none) := by
    intro u hx ho hp e1 e2 e3
    obtain ⟨-, -, -, -, -, hop, -, ⟨-, hlog⟩ | ⟨hw, hlog⟩⟩ := finishWait_fields u
    · exact .inl (hlog.trans e3)
    · exact .inr ⟨by rw [hlog, e3, e2], hx, ho.resolve_left (e1 ▸ hw), hp, hop⟩
  obtain ⟨-, hs⟩ := step_stepped s t h
  cases hs with
  | waitDone hx ho hp | waitTimeout hx ho hp => exact finished _ hx ho hp (by simp) (by simp) (by simp)
  | hostCmd c cs t _ _ _ hi => exact .inl (by simp [(issueCommand_issued _ _ _ hi).fields])
  | hostDrain c cs t _ hi => exact .inl (by simp [issueDrain_fields hi])
  | consume b r t _ _ _ hc => exact .inl (by simp [consumeByte_fields hc])
  | idle | clock | peer | sinkRead | sinkDone | pumpEmpty | mgSink | mgDiscard | mgCsum => exact .inl (by simp)

/-- `PumpDone` answers a `PUMP` and frees the port, or writes no response and leaves `OP` (R135). -/
theorem pumpDone_response (s : State) :
    ((pumpDone s).respCmd = s.respCmd ∧ (pumpDone s).op = s.op)
    ∨ ∃ r, (pumpDone s).respCmd = s.respCmd ++ [r] ∧ (pumpDone s).op = .none := by
  rcases pumpDone_cases s with ⟨-, e⟩ | ⟨-, e⟩ <;> rw [e]
  · exact .inr ⟨_, rfl, rfl⟩
  · exact .inl ⟨rfl, rfl⟩

/-- A pump that takes a byte answers as its end does. -/
theorem consumeByte_response {b : Byte} {r : List Byte} {s t : State} (h : consumeByte b r s = .next t) :
    (t.respCmd = s.respCmd ∧ t.op = s.op) ∨ ∃ r, t.respCmd = s.respCmd ++ [r] ∧ t.op = .none := by
  obtain ⟨u, hu, ⟨-, rfl⟩ | ⟨-, rfl⟩⟩ := consumeByte_cases b r s t h
  · exact .inl (by simp [dispatched_fields hu])
  · simpa [dispatched_fields hu] using pumpDone_response u

/-- The issue of a command writes no response, or its one response with the port free (R77). -/
theorem Issued.response {s t : State} (h : Issued s t) (ho : s.op = .none) :
    t.respCmd = s.respCmd ∨ ∃ r, t.respCmd = s.respCmd ++ [r] ∧ t.op = .none := by
  cases h with
  | pump | waitIdle | transmit => exact .inl (by simp)
  | illegal | resync | register => exact .inr ⟨_, rfl, by simpa using ho⟩

/-- A step of a busy block keeps `OP` and the responses, or answers and frees the port (R77). -/
theorem Stepped.busy_response {s t : State} (h : Stepped s t) (ho : s.op ≠ .none) :
    (t.respCmd = s.respCmd ∧ t.op = s.op) ∨ ∃ r, t.respCmd = s.respCmd ++ [r] ∧ t.op = .none := by
  cases h with
  | hostCmd c cs t _ hn => exact absurd hn ho
  | hostDrain c cs t _ hi => exact .inl (by simp [issueDrain_fields hi])
  | consume b r t _ _ _ hc => simpa using consumeByte_response hc
  | pumpEmpty => exact .inr (by simp)
  | waitDone | waitTimeout => exact .inr (by simp [finishWait_fields])
  | mgCsum b r => simpa using pumpDone_response (pop { turned s with rxFifo := r })
  | idle | clock | peer | sinkRead | sinkDone | mgSink | mgDiscard => exact .inl (by simp)

/-- A step of an idle block writes no response, or one with the port still free (R73, R77). -/
theorem Stepped.idle_response {s t : State} (h : Stepped s t) (ho : s.op = .none) :
    t.respCmd = s.respCmd ∨ ∃ r, t.respCmd = s.respCmd ++ [r] ∧ t.op = .none := by
  cases h with
  | hostCmd c cs t _ _ _ hi => simpa using (issueCommand_issued _ _ _ hi).response (by simpa using ho)
  | hostDrain c cs t _ hi => exact .inl (by simp [issueDrain_fields hi])
  | pumpEmpty _ _ hp | consume _ _ _ _ _ hp | waitDone _ hp | waitTimeout _ hp => simp [ho] at hp
  | mgCsum _ _ _ hp => exact absurd ho hp
  | idle | clock | peer | sinkRead | sinkDone | mgSink | mgDiscard => exact .inl (by simp)

/-- The drain log grows by one response, at `HOST_DRAIN`'s turn (R43, R76). -/
theorem Stepped.drain_response {s t : State} (h : Stepped s t) :
    t.respDrain = s.respDrain ∨ ∃ r, t.respDrain = s.respDrain ++ [r] ∧ (nextTurn s).1 = .hostDrain := by
  cases h with
  | hostDrain c cs t hx hi =>
    obtain ⟨r, rfl | ⟨-, rfl⟩⟩ := issueDrain_cases _ _ _ hi <;> exact .inr ⟨r, by simp, hx⟩
  | hostCmd c cs t _ _ _ hi => exact .inl (by simp [(issueCommand_issued _ _ _ hi).fields])
  | consume b r t _ _ _ hc => exact .inl (by simp [consumeByte_fields hc])
  | waitDone | waitTimeout => exact .inl (by simp [finishWait_fields])
  | idle | clock | peer | sinkRead | sinkDone | pumpEmpty | mgSink | mgDiscard | mgCsum => exact .inl (by simp)

/-- Settles O53: a busy block, an idle block and the drain log, each by its own case analysis. -/
theorem oneResponsePerOperation : Obligations.OneResponsePerOperation := by
  intro s t h
  have hs := (step_stepped s t h).2
  exact ⟨hs.busy_response, hs.idle_response, hs.drain_response⟩

end Sys2Proof.Machine
end

section
/-! PROOF. The registrations (R29, R79, R190 to R192): only a legal `SET_*` command writes one, and it takes the en byte. -/

namespace Sys2Proof.Machine

/-- The three `SET_*` operations with their opcodes (R72). -/
def setForms (en : Bool) : List (Byte × Instr) :=
  [(0x04, .setHandler en), (0x05, .setBytesSink en), (0x06, .setDbytesSink en)]

/-- The registrations with the one of opcode `op` written (R190 to R192). -/
def register (op : Byte) (en : Bool) (g : Registrations) : Registrations where
  handler := if op = 0x04 then en else g.handler
  bsink := if op = 0x05 then en else g.bsink
  dsink := if op = 0x06 then en else g.dsink

/-- An operation of the command port that writes a registration is a `SET_*`. -/
theorem exec_reg {i : Instr} {s t : State} (hp : i.hostPort? = some .command) (h : exec i s = .next t)
    (hr : t.reg ≠ s.reg) : ∃ op en, (op, i) ∈ setForms en ∧ t.reg = register op en s.reg := by
  cases i with
  | setHandler en => cases h; exact ⟨0x04, en, by simp [setForms], by simp [register]⟩
  | setBytesSink en => cases h; exact ⟨0x05, en, by simp [setForms], by simp [register]⟩
  | setDbytesSink en => cases h; exact ⟨0x06, en, by simp [setForms], by simp [register]⟩
  | pump | waitIdle | resync | readObj | writeObj | writeContrast | writeStr | writeStrU | writeMagicBytes
  | writeMagicDbytes => cases h; exact absurd (by simp) hr
  | dequeue | readStatus | rxReportEventLead | rxMagicBytesLead | rxMagicDbytesLead | rxAck | rxNak | rxReportObjLead
  | rxFramingError | rxFrameByte | rxMagicHeaderByte => cases hp

/-- The en byte is the whole operand, and 0x01 registers (R79). -/
theorem decodeEnable_ok {f : Bool → Instr} {args : List Byte} {i : Instr} (h : decodeEnable f args = .ok i) :
    ∃ b, args = [b] ∧ i = f (decide (b = 0x01)) := by
  unfold decodeEnable at h
  split at h
  · next b =>
    split at h
    · next hb => cases h; exact ⟨b, rfl, by simp [hb]⟩
    split at h
    · next hb => cases h; exact ⟨b, rfl, by simp [hb]⟩
    · cases h
  · cases h

/-- Operands that decode to a `SET_*` are the en byte of that row of R72. -/
theorem decodeOperands_set {o : Opcode} {args : List Byte} {i : Instr} {op : Byte} {en : Bool}
    (h : decodeOperands o args = .ok i) (hi : (op, i) ∈ setForms en) :
    (op, o) ∈ [(0x04, Opcode.setHandler), (0x05, .setBytesSink), (0x06, .setDbytesSink)]
    ∧ ∃ b, args = [b] ∧ en = decide (b = 0x01) := by
  cases o with
  | setHandler | setBytesSink | setDbytesSink =>
    obtain ⟨b, rfl, rfl⟩ := decodeEnable_ok h
    simpa [setForms, eq_comm] using hi
  | pump | waitIdle | resync | readObj | writeObj | writeContrast | writeStr | writeStrU | writeMagicBytes
  | writeMagicDbytes | dequeue | readStatus =>
    simp only [decodeOperands, decodeCmd1, decodeUnits8, decodeUnits16] at h
    repeat' split at h
    all_goals cases h
    all_goals simp [setForms] at hi

/-- An entry found in the opcode table is one of its rows. -/
theorem mem_opcodeTable_of_lookup {op : Byte} {o : Opcode} (h : opcodeTable.lookup op = some o) :
    (op, o) ∈ opcodeTable := by
  obtain ⟨l, r, e, -⟩ := List.lookup_eq_some_iff.1 h
  rw [e]
  exact List.mem_append_right l List.mem_cons_self

/-- A command that decodes to a `SET_*` is its opcode and the en byte (R72, R79). -/
theorem decodeHost_set {port : Port} {c : List Byte} {i : Instr} {op : Byte} {en : Bool}
    (h : decodeHost port c = .ok i) (hi : (op, i) ∈ setForms en) : ∃ b, c = [op, b] ∧ en = decide (b = 0x01) := by
  unfold decodeHost at h
  split at h
  · cases h
  next op' args =>
  split at h
  · cases h
  next o ho =>
  split at h
  · obtain ⟨hrow, b, rfl, hen⟩ := decodeOperands_set h hi
    have hop : op' = op := by
      have hmem := mem_opcodeTable_of_lookup ho
      simp only [List.mem_cons, Prod.mk.injEq, List.not_mem_nil, or_false] at hrow
      obtain ⟨rfl, rfl⟩ | ⟨rfl, rfl⟩ | ⟨rfl, rfl⟩ := hrow <;> simpa [opcodeTable] using hmem
    exact ⟨b, by rw [hop], hen⟩
  · cases h

/-- A pending command that writes a registration when it is issued is a legal `SET_*`. -/
theorem issueCommand_reg {c : List Byte} {s t : State} (h : issueCommand c s = .next t) (hr : t.reg ≠ s.reg) :
    ∃ op en, c = [op, en] ∧ op ∈ ([0x04, 0x05, 0x06] : List Byte) ∧ t.reg = register op (decide (en = 0x01)) s.reg := by
  unfold issueCommand decode at h
  split at h
  · next i hd =>
    obtain ⟨op, en, hi, ht⟩ := exec_reg (decodeHost_sound _ _ _ hd).1 h hr
    obtain ⟨b, rfl, rfl⟩ := decodeHost_set hd hi
    exact ⟨op, b, rfl, List.mem_map_of_mem (f := Prod.fst) hi, ht⟩
  · cases h
    exact absurd rfl hr

/-- Settles O56: of the steps only the issue of a command writes a registration. -/
theorem registrationsWrittenBySetOnly : Obligations.RegistrationsWrittenBySetOnly := by
  intro s t h hr
  obtain ⟨-, hs⟩ := step_stepped s t h
  cases hs with
  | hostCmd c cs t hx ho hc hi =>
    obtain ⟨op, en, rfl, hop, ht⟩ := issueCommand_reg hi (by simpa using hr)
    exact ⟨hx, ho, op, en, cs, hc, hop, by simpa [register] using ht⟩
  | hostDrain c cs t _ hi => simp [issueDrain_fields hi] at hr
  | consume b r t _ _ _ hc => simp [consumeByte_fields hc] at hr
  | waitDone | waitTimeout => simp [finishWait_fields] at hr
  | idle | clock | peer | sinkRead | sinkDone | pumpEmpty | mgSink | mgDiscard | mgCsum => simp at hr

end Sys2Proof.Machine
end

section
/-! PROOF. The host loop `DRAIN` (R88) as a refinement: it returns the list of live entries, oldest first, and empties it. -/

namespace Sys2Proof.Machine

/-- Freeing the oldest slot makes every live entry one older (R166). -/
theorem liveEntry_dropOldest (s : State) (i : Nat) : liveEntry (dropOldest s) i = liveEntry s (i + 1) := by
  simp [liveEntry, Nat.mod_add_mod, Nat.add_assoc, Nat.add_comm 1 i]

/-- The oldest frame is the first live entry. -/
theorem oldestFrame_eq_liveEntry {s : State} (h : QueueInv s) : oldestFrame s = liveEntry s 0 := by
  simp [oldestFrame, liveEntry, Nat.mod_eq_of_lt h.readIdx]

/-- `Q_COUNT - 1` does not wrap while there is an entry. -/
theorem dropOldest_count {s : State} {n : Nat} (h : s.queue.count.toNat = n + 1) :
    (dropOldest s).queue.count.toNat = n := by
  simp only [dropOldest_fields]
  bv_omega

/-- The live entries are the oldest frame and those left after it is freed (R28, R166). -/
theorem liveEntries_cons {s : State} {n : Nat} (hq : QueueInv s) (h : s.queue.count.toNat = n + 1) :
    liveEntries s = oldestFrame s :: liveEntries (dropOldest s) := by
  rw [liveEntries, liveEntries, h, dropOldest_count h, List.range_succ_eq_map, oldestFrame_eq_liveEntry hq]
  simp [liveEntry_dropOldest]

/-- An empty queue has no live entry. -/
theorem liveEntries_eq_nil {s : State} (h : s.queue.count = 0) : liveEntries s = [] := by
  simp [liveEntries, h]

/-- A response does not change the live entries. -/
theorem liveEntries_respondDrain (l : List Byte) (s : State) : liveEntries (respondDrain l s) = liveEntries s := rfl

/-- `DRAIN` ends at the response `[0x00]` of an empty queue (R88, R166). -/
theorem drainLoop_empty {s : State} (fuel : Nat) (hf : s.fault = false) (hc : s.queue.count = 0) :
    drainLoop (fuel + 1) s = .next (respondDrain [0x00] s) := by
  have hx : exec .dequeue s = .next (respondDrain [0x00] s) := if_pos hc
  simp [drainLoop, drainCall_dequeue _ s hf, hx]

/-- `DRAIN` goes on after the response with the oldest frame (R88, R166). -/
theorem drainLoop_live {s : State} (fuel : Nat) (hf : s.fault = false) (hc : s.queue.count ≠ 0) :
    drainLoop (fuel + 1) s = drainLoop fuel (respondDrain (0x01 :: frameBytes (oldestFrame s)) (dropOldest s)) := by
  have hx : exec .dequeue s = .next (respondDrain (0x01 :: frameBytes (oldestFrame s)) (dropOldest s)) := if_neg hc
  simp [drainLoop, drainCall_dequeue _ s hf, hx]

/-- `DRAIN` on a queue of `n` live entries, by induction on `n`. -/
theorem drainLoop_returns (n : Nat) : ∀ s : State, QueueInv s → s.fault = false → s.queue.count.toNat = n →
    ∃ t, drainLoop (n + 1) s = .next t ∧ liveEntries t = []
      ∧ t.respDrain = s.respDrain ++ (liveEntries s).map (fun f => 0x01 :: frameBytes f) ++ [[0x00]] := by
  induction n with
  | zero =>
    intro s hq hf hn
    have hc : s.queue.count = 0 := BitVec.eq_of_toNat_eq hn
    have hl := liveEntries_eq_nil hc
    exact ⟨_, drainLoop_empty 0 hf hc, hl, by simp [hl]⟩
  | succ n ih =>
    intro s hq hf hn
    have hc : s.queue.count ≠ 0 := fun e => by rw [e] at hn; cases hn
    have hu : QueueInv (respondDrain (0x01 :: frameBytes (oldestFrame s)) (dropOldest s)) := (hq.drop hc).congr
    obtain ⟨t, ht, hl, hr⟩ := ih _ hu (by simpa using hf) (dropOldest_count hn)
    refine ⟨t, (drainLoop_live _ hf hc).trans ht, hl, ?_⟩
    rw [hr, liveEntries_respondDrain, liveEntries_cons hq hn]
    simp

/-- Settles O60: one `DEQUEUE` per live entry and one more, and none in a faulted state. -/
theorem drainReturnsLiveEntriesInOrder : Obligations.DrainReturnsLiveEntriesInOrder := by
  intro s hq
  refine ⟨fun hf => drainLoop_returns _ s hq hf rfl, fun hf => ?_⟩
  simp [drainLoop, drainCall_faulted hf]

end Sys2Proof.Machine
end

section
/-! PROOF. The XOR checksum of a frame (R128): an error pattern adds its own XOR to that of the frame it flips, and the
checksum byte is the XOR of the bytes before it. The data value of a frame (R53, R167). -/

namespace Sys2Proof.Machine

/-- The XOR of two byte lists of one length, taken position by position, is the XOR of their XORs. -/
theorem xorBytes_zipWith (a b : List Byte) (h : a.length = b.length) :
    xorBytes (List.zipWith (· ^^^ ·) a b) = xorBytes a ^^^ xorBytes b := by
  induction a generalizing b with
  | nil => simp [List.length_eq_zero_iff.mp h.symm, xorBytes]
  | cons x xs ih =>
    cases b with
    | nil => cases h
    | cons y ys =>
      simp only [List.zipWith_cons_cons, xorBytes, ih ys (Nat.succ.inj h)]
      ac_rfl

/-- A frame is valid when its six bytes XOR to zero (R128). -/
theorem frameValid_iff (f : Frame) : frameValid f = true ↔ xorBytes (frameBytes f) = 0 := decide_eq_true_iff

/-- The XOR of a frame's six bytes, written out. -/
theorem xorBytes_frameBytes (f : Frame) :
    xorBytes (frameBytes f) = f.cmd ^^^ f.obj ^^^ f.idx ^^^ f.dataHi ^^^ f.dataLo ^^^ f.csum := by
  simp [frameBytes, xorBytes, BitVec.xor_assoc]

/-- A frame is valid when its last byte is the XOR of the first five (R80, R128). -/
theorem frameValid_iff_csum (f : Frame) :
    frameValid f = true ↔ f.csum = f.cmd ^^^ f.obj ^^^ f.idx ^^^ f.dataHi ^^^ f.dataLo := by
  rw [frameValid_iff, xorBytes_frameBytes]
  exact BitVec.xor_eq_zero_iff.trans eq_comm

/-- The frame `f` with the bits of the error pattern `e` flipped. -/
def flipFrame (f e : Frame) : Frame :=
  ⟨f.cmd ^^^ e.cmd, f.obj ^^^ e.obj, f.idx ^^^ e.idx, f.dataHi ^^^ e.dataHi, f.dataLo ^^^ e.dataLo, f.csum ^^^ e.csum⟩

/-- Flipping bits of a frame flips the bits of its XOR by the XOR of the error pattern. -/
theorem xorBytes_flipFrame (f e : Frame) :
    xorBytes (frameBytes (flipFrame f e)) = xorBytes (frameBytes f) ^^^ xorBytes (frameBytes e) :=
  xorBytes_zipWith (frameBytes f) (frameBytes e) rfl

/-- An error pattern on a valid frame goes unnoticed when its own six bytes XOR to zero (R128). -/
theorem frameValid_flipFrame {f : Frame} (h : frameValid f = true) (e : Frame) :
    frameValid (flipFrame f e) = true ↔ xorBytes (frameBytes e) = 0 := by
  rw [frameValid_iff] at h ⊢
  simp [xorBytes_flipFrame, h]

/-- Joining two bytes is `h * 256 + l` (R71, R86). -/
theorem joinBytes_eq_ofNat (h l : Byte) : joinBytes h l = BitVec.ofNat 16 (h.toNat * 256 + l.toNat) := by
  have hj : (joinBytes h l).toNat = h.toNat * 256 + l.toNat := by
    rw [joinBytes, BitVec.toNat_append, ← Nat.shiftLeft_add_eq_or_of_lt l.isLt, Nat.shiftLeft_eq]
  rw [← hj, BitVec.ofNat_toNat, BitVec.setWidth_eq]

/-- Settles O34: the XOR of a flipped frame is that of the frame and that of the error pattern. -/
theorem checksumDetectsOddFlips : Obligations.ChecksumDetectsOddFlips := by
  refine ⟨fun f e hf => ?_, frameValid_iff_csum, fun f => joinBytes_eq_ofNat f.dataHi f.dataLo⟩
  rw [← xorBytes_frameBytes]
  exact frameValid_flipFrame hf e

end Sys2Proof.Machine
end

section
/-! PROOF. Decoder and encoder are inverse (R70): at a host port by the formats of R72, in the receiver by the classes of
R84. The class of a received byte is read off from that. -/

namespace Sys2Proof.Machine

/-! ### Units and counts (R71, R72) -/

/-- A unit is its two bytes, high byte first. -/
@[simp] theorem joinBytes_hiByte_loByte (u : Unit16) : joinBytes (hiByte u) (loByte u) = u := by
  simp only [joinBytes, hiByte, loByte]
  rw [BitVec.extractLsb'_append_extractLsb'_eq_extractLsb'] <;> simp

@[simp] theorem hiByte_joinBytes (h l : Byte) : hiByte (joinBytes h l) = h := BitVec.extractLsb'_append_eq_left

@[simp] theorem loByte_joinBytes (h l : Byte) : loByte (joinBytes h l) = l := BitVec.extractLsb'_append_eq_right

/-- Bytes are joined into the units they are split from. -/
theorem joinUnits_splitUnits (us : List Unit16) : joinUnits (splitUnits us) = some us := by
  induction us with
  | nil => rfl
  | cons u us ih => simp [splitUnits, joinUnits, ih]

/-- Joined units split into the bytes they are joined from. -/
theorem splitUnits_of_joinUnits {bs : List Byte} : ∀ {us : List Unit16}, joinUnits bs = some us → splitUnits us = bs := by
  induction bs using joinUnits.induct with
  | case1 => rintro us ⟨⟩; rfl
  | case2 => rintro us ⟨⟩
  | case3 h l rest ih =>
    intro us hj
    obtain ⟨vs, hv, rfl⟩ := Option.map_eq_some_iff.1 hj
    simp [splitUnits, ih hv]

/-- An even number of bytes joins into units. -/
theorem exists_joinUnits {bs : List Byte} : ∀ {n : Nat}, bs.length = 2 * n → ∃ us, joinUnits bs = some us := by
  induction bs using joinUnits.induct with
  | case1 => exact fun _ => ⟨[], rfl⟩
  | case2 b => intro n h; rw [List.length_singleton] at h; omega
  | case3 h l rest ih =>
    intro n hn
    obtain ⟨us, hu⟩ := ih (n := n - 1) (by simp only [List.length_cons] at hn; omega)
    exact ⟨joinBytes h l :: us, by simp [joinUnits, hu]⟩

/-- The count byte of a legal list is its length. -/
theorem countByte_toNat {n : Nat} (h : n ≤ 255) : (countByte n).toNat = n := by
  rw [countByte, BitVec.toNat_ofNat]
  exact Nat.mod_eq_of_lt (by omega)

/-- A byte is the count byte of its value. -/
@[simp] theorem countByte_toNat_self (n : Byte) : countByte n.toNat = n := by simp [countByte]

/-! ### The operand forms of R72 -/

/-- An operation without operands is its opcode alone. -/
theorem decodeCmd1_ok {i j : Instr} {args : List Byte} (h : decodeCmd1 i args = .ok j) : args = [] ∧ j = i := by
  cases args <;> cases h
  exact ⟨rfl, rfl⟩

/-- The en byte is `enableByte` of the bit it stands for (R79). -/
theorem decodeEnable_enableByte (f : Bool → Instr) (en : Bool) : decodeEnable f [enableByte en] = .ok (f en) := by
  cases en <;> rfl

/-- Operands accepted as an en byte are `enableByte` of a bit (R79). -/
theorem enableByte_of_decodeEnable {f : Bool → Instr} {args : List Byte} {i : Instr} (h : decodeEnable f args = .ok i) :
    ∃ en, args = [enableByte en] ∧ i = f en := by
  unfold decodeEnable at h
  split at h
  · split at h
    · next hb => cases h; exact ⟨false, by rw [hb]; rfl, rfl⟩
    split at h
    · next hb => cases h; exact ⟨true, by rw [hb]; rfl, rfl⟩
    · cases h
  · cases h

/-- Format CMDV8, written from a legal list. -/
theorem decodeUnits8_count (f : Byte → List Byte → Instr) (idx : Byte) {us : List Byte} (h : us.length ≤ 255) :
    decodeUnits8 f (idx :: countByte us.length :: us) = .ok (f idx us) := by
  simp [decodeUnits8, countByte_toNat h]

/-- Operands accepted in format CMDV8 are an index, a count and that many units. -/
theorem decodeUnits8_ok {f : Byte → List Byte → Instr} {args : List Byte} {i : Instr} (h : decodeUnits8 f args = .ok i) :
    ∃ idx us, args = idx :: countByte us.length :: us ∧ i = f idx us := by
  unfold decodeUnits8 at h
  split at h
  · next idx n us =>
    split at h
    · next hn => cases h; exact ⟨idx, us, by simp [hn], rfl⟩
    · cases h
  · cases h

/-- Format CMDV16, written from a legal list. -/
theorem decodeUnits16_count (f : Byte → List Unit16 → Instr) (idx : Byte) {us : List Unit16} (h : us.length ≤ 255) :
    decodeUnits16 f (idx :: countByte us.length :: splitUnits us) = .ok (f idx us) := by
  simp [decodeUnits16, countByte_toNat h, splitUnits_length, joinUnits_splitUnits]

/-- Operands accepted in format CMDV16 are an index, a count and that many units, split into bytes. -/
theorem decodeUnits16_ok {f : Byte → List Unit16 → Instr} {args : List Byte} {i : Instr}
    (h : decodeUnits16 f args = .ok i) :
    ∃ idx us, args = idx :: countByte us.length :: splitUnits us ∧ i = f idx us := by
  unfold decodeUnits16 at h
  split at h
  · next idx n bs =>
    split at h
    · next hn =>
      split at h
      · next us hj =>
        cases h
        have hl : us.length = n.toNat := by have := joinUnits_length bs us hj; omega
        exact ⟨idx, us, by simp [hl, splitUnits_of_joinUnits hj], rfl⟩
      · cases h
    · cases h
  · cases h

/-! ### The host ports (R70, R72) -/

/-- The opcode column of R72, read from the mnemonic. -/
def opcodeByte : Opcode → Byte
  | .pump => 0x01
  | .waitIdle => 0x02
  | .resync => 0x03
  | .setHandler => 0x04
  | .setBytesSink => 0x05
  | .setDbytesSink => 0x06
  | .readObj => 0x10
  | .writeObj => 0x11
  | .writeContrast => 0x12
  | .writeStr => 0x13
  | .writeStrU => 0x14
  | .writeMagicBytes => 0x15
  | .writeMagicDbytes => 0x16
  | .dequeue => 0x20
  | .readStatus => 0x21

/-- Each mnemonic has one row in the opcode table, and each row one mnemonic. -/
theorem lookup_opcodeTable_iff {op : Byte} {o : Opcode} : opcodeTable.lookup op = some o ↔ op = opcodeByte o := by
  constructor
  · intro h
    have hmem := mem_opcodeTable_of_lookup h
    cases o <;> simpa [opcodeTable, opcodeByte] using hmem
  · rintro rfl
    cases o <;> rfl

/-- A host port decodes an opcode of its own and that row's operands, nothing else (R73). -/
theorem decodeHost_ok_iff {port : Port} {bs : List Byte} {i : Instr} :
    decodeHost port bs = .ok i ↔
      ∃ o args, bs = opcodeByte o :: args ∧ opcodePort o = port ∧ decodeOperands o args = .ok i := by
  constructor
  · intro h
    unfold decodeHost at h
    split at h
    · cases h
    next op args =>
    split at h
    · cases h
    next o ho =>
    split at h
    · next hp => exact ⟨o, args, by rw [lookup_opcodeTable_iff.1 ho], hp, h⟩
    · cases h
  · rintro ⟨o, args, rfl, rfl, h⟩
    simp [decodeHost, lookup_opcodeTable_iff.2 rfl, h]

/-- Operands that decode in a row of R72 are, after that row's opcode, the encoding of what they decode to. -/
theorem encode_of_decodeOperands (c : Codes) {o : Opcode} {args : List Byte} {i : Instr}
    (h : decodeOperands o args = .ok i) : encode c i = opcodeByte o :: args := by
  cases o with
  | pump | waitIdle | resync | dequeue | readStatus =>
    obtain ⟨rfl, rfl⟩ := decodeCmd1_ok h
    rfl
  | setHandler | setBytesSink | setDbytesSink =>
    obtain ⟨en, rfl, rfl⟩ := enableByte_of_decodeEnable h
    rfl
  | readObj | writeObj | writeContrast =>
    simp only [decodeOperands] at h
    split at h <;> cases h
    rfl
  | writeStr | writeMagicBytes =>
    obtain ⟨idx, us, rfl, rfl⟩ := decodeUnits8_ok h
    rfl
  | writeStrU | writeMagicDbytes =>
    obtain ⟨idx, us, rfl, rfl⟩ := decodeUnits16_ok h
    rfl

/-- The encoding of a well-formed operation is an opcode of its port and operands that decode to it in that row. -/
theorem encode_eq_opcodeByte_cons (c : Codes) {i : Instr} {port : Port} (hp : i.hostPort? = some port)
    (hw : i.wellFormed = true) :
    ∃ o args, encode c i = opcodeByte o :: args ∧ opcodePort o = port ∧ decodeOperands o args = .ok i := by
  cases i with
  | pump => cases hp; exact ⟨.pump, [], rfl, rfl, rfl⟩
  | waitIdle => cases hp; exact ⟨.waitIdle, [], rfl, rfl, rfl⟩
  | resync => cases hp; exact ⟨.resync, [], rfl, rfl, rfl⟩
  | setHandler en => cases hp; exact ⟨.setHandler, _, rfl, rfl, decodeEnable_enableByte _ en⟩
  | setBytesSink en => cases hp; exact ⟨.setBytesSink, _, rfl, rfl, decodeEnable_enableByte _ en⟩
  | setDbytesSink en => cases hp; exact ⟨.setDbytesSink, _, rfl, rfl, decodeEnable_enableByte _ en⟩
  | readObj => cases hp; exact ⟨.readObj, _, rfl, rfl, rfl⟩
  | writeObj => cases hp; exact ⟨.writeObj, _, rfl, rfl, rfl⟩
  | writeContrast => cases hp; exact ⟨.writeContrast, _, rfl, rfl, rfl⟩
  | writeStr idx => cases hp; exact ⟨.writeStr, _, rfl, rfl, decodeUnits8_count _ idx (of_decide_eq_true hw)⟩
  | writeStrU idx => cases hp; exact ⟨.writeStrU, _, rfl, rfl, decodeUnits16_count _ idx (of_decide_eq_true hw)⟩
  | writeMagicBytes idx =>
    cases hp; exact ⟨.writeMagicBytes, _, rfl, rfl, decodeUnits8_count _ idx (of_decide_eq_true hw)⟩
  | writeMagicDbytes idx =>
    cases hp; exact ⟨.writeMagicDbytes, _, rfl, rfl, decodeUnits16_count _ idx (of_decide_eq_true hw)⟩
  | dequeue => cases hp; exact ⟨.dequeue, [], rfl, rfl, rfl⟩
  | readStatus => cases hp; exact ⟨.readStatus, [], rfl, rfl, rfl⟩
  | rxReportEventLead | rxMagicBytesLead | rxMagicDbytesLead | rxAck | rxNak | rxReportObjLead | rxFramingError
  | rxFrameByte | rxMagicHeaderByte => cases hp

/-! ### The receiver (R84, R126, R129, R130) -/

/-- In a state that classifies, the class of a byte is that of R84's table. -/
theorem decodeReceive_of_classifies (c : Codes) {top : LinkState} (b : Byte) (h : top.classifies = true) :
    decodeReceive c top b = .ok (classifyLead c top b) := by
  cases top with
  | idle | waitAckOrNak | waitReportHeader => rfl
  | receivingReport | receivingEvent | receivingMagicBytes | receivingMagicDoubleBytes | shutdown => cases h

/-- The class given to a byte is received in that state and is encoded as that byte. -/
theorem classifyLead_sound (c : Codes) {top : LinkState} (b : Byte) (h : top.classifies = true) :
    encode c (classifyLead c top b) = [b] ∧ (classifyLead c top b).receivedIn c top = true := by
  unfold classifyLead
  split_ifs with he hm hd ha hn hr
  · exact ⟨by rw [he]; rfl, h⟩
  · exact ⟨by rw [hm]; rfl, h⟩
  · exact ⟨by rw [hd]; rfl, h⟩
  · exact ⟨by rw [ha.2]; rfl, by simp [Instr.receivedIn, ha.1]⟩
  · exact ⟨by rw [hn.2]; rfl, by simp [Instr.receivedIn, hn.1]⟩
  · exact ⟨by rw [hr.2]; rfl, by simp [Instr.receivedIn, hr.1]⟩
  · have hb : b ∉ c.acceptedIn top := by cases top <;> simp_all [Codes.acceptedIn]
    exact ⟨rfl, by simp [Instr.receivedIn, h, hb]⟩

/-- What the receiver decodes a byte to is received in its state and is encoded as that byte. -/
theorem decodeReceive_sound {c : Codes} {top : LinkState} {b : Byte} {i : Instr} (h : decodeReceive c top b = .ok i) :
    encode c i = [b] ∧ i.receivedIn c top = true := by
  cases top with
  | idle | waitAckOrNak | waitReportHeader => cases h; exact classifyLead_sound c b rfl
  | receivingReport | receivingEvent | receivingMagicBytes | receivingMagicDoubleBytes =>
    cases h; exact ⟨rfl, rfl⟩
  | shutdown => cases h

/-- Receive classes have no bound to keep. -/
theorem wellFormed_of_receivedIn {c : Codes} {i : Instr} {top : LinkState} (h : i.receivedIn c top = true) :
    i.wellFormed = true := by
  cases i with
  | writeStr | writeStrU | writeMagicBytes | writeMagicDbytes => cases h
  | _ => rfl

/-- Distinct receive codes pass the tests that stand before their own in R84's order. -/
theorem distinct_ne_before {c : Codes} (h : c.distinct = true) :
    c.reportMagicBytes ≠ c.reportEvent
    ∧ (c.reportMagicDbytes ≠ c.reportEvent ∧ c.reportMagicDbytes ≠ c.reportMagicBytes)
    ∧ (c.ack ≠ c.reportEvent ∧ c.ack ≠ c.reportMagicBytes ∧ c.ack ≠ c.reportMagicDbytes)
    ∧ (c.nak ≠ c.reportEvent ∧ c.nak ≠ c.reportMagicBytes ∧ c.nak ≠ c.reportMagicDbytes ∧ c.nak ≠ c.ack)
    ∧ (c.reportObj ≠ c.reportEvent ∧ c.reportObj ≠ c.reportMagicBytes ∧ c.reportObj ≠ c.reportMagicDbytes) := by
  have hn : c.receive.Nodup := of_decide_eq_true h
  simp only [Codes.receive, List.nodup_cons, List.mem_cons, List.not_mem_nil, or_false, not_or] at hn
  grind

/-- With distinct receive codes the byte of a class received in a state has that class there (R82, R84). -/
theorem decodeReceive_encode {c : Codes} {top : LinkState} {i : Instr} (hd : c.distinct = true)
    (h : i.receivedIn c top = true) : ∃ b, encode c i = [b] ∧ decodeReceive c top b = .ok i := by
  have hne := distinct_ne_before hd
  cases i with
  | rxReportEventLead | rxMagicBytesLead | rxMagicDbytesLead =>
    exact ⟨_, rfl, by rw [decodeReceive_of_classifies c _ h]; simp [classifyLead, hne]⟩
  | rxAck | rxNak =>
    obtain rfl : top = .waitAckOrNak := of_decide_eq_true h
    exact ⟨_, rfl, by simp [decodeReceive, classifyLead, hne]⟩
  | rxReportObjLead =>
    obtain rfl : top = .waitReportHeader := of_decide_eq_true h
    exact ⟨_, rfl, by simp [decodeReceive, classifyLead, hne]⟩
  | rxFramingError b =>
    obtain ⟨ht, hb⟩ : top.classifies = true ∧ b ∉ c.acceptedIn top := by simpa [Instr.receivedIn] using h
    refine ⟨b, rfl, ?_⟩
    rw [decodeReceive_of_classifies c _ ht]
    cases top <;> simp_all [classifyLead, Codes.acceptedIn, LinkState.classifies]
  | rxFrameByte b =>
    obtain rfl | rfl : top = .receivingReport ∨ top = .receivingEvent := of_decide_eq_true h
    · exact ⟨b, rfl, rfl⟩
    · exact ⟨b, rfl, rfl⟩
  | rxMagicHeaderByte b =>
    obtain rfl | rfl : top = .receivingMagicBytes ∨ top = .receivingMagicDoubleBytes := of_decide_eq_true h
    · exact ⟨b, rfl, rfl⟩
    · exact ⟨b, rfl, rfl⟩
  | pump | waitIdle | resync | setHandler | setBytesSink | setDbytesSink | readObj | writeObj | writeContrast | writeStr
  | writeStrU | writeMagicBytes | writeMagicDbytes | dequeue | readStatus => cases h

/-! ### Every place -/

/-- Settles O2: at a port by the operand forms of R72, in the receiver by the distinct codes of R82. -/
theorem decodeOfEncode : Obligations.DecodeOfEncode := by
  intro c p i hd hw ha
  cases p with
  | host port => exact decodeHost_ok_iff.2 (encode_eq_opcodeByte_cons c (of_decide_eq_true ha) hw)
  | receive top =>
    obtain ⟨b, he, hb⟩ := decodeReceive_encode hd ha
    rw [he]
    exact hb

/-- Settles O3: at a port by the operand forms of R72, in the receiver by the classes of R84. -/
theorem encodeOfDecode : Obligations.EncodeOfDecode := by
  intro c p bs i h
  cases p with
  | host port =>
    obtain ⟨hp, hw⟩ := decodeHost_sound port bs i h
    obtain ⟨o, args, rfl, -, ho⟩ := decodeHost_ok_iff.1 h
    exact ⟨encode_of_decodeOperands c ho, hw, decide_eq_true hp⟩
  | receive top =>
    match bs, h with
    | [b], h =>
      obtain ⟨he, hr⟩ := decodeReceive_sound h
      exact ⟨he, wellFormed_of_receivedIn hr, hr⟩

/-- The decoder is fixed by the encoder: a byte list decodes to the admitted instruction it is the encoding of. -/
theorem decode_ok_iff {c : Codes} (hd : c.distinct = true) {p : Place} {bs : List Byte} {i : Instr} :
    decode c p bs = .ok i ↔ encode c i = bs ∧ i.wellFormed = true ∧ i.admittedAt c p = true := by
  constructor
  · exact encodeOfDecode c p bs i
  · rintro ⟨rfl, hw, ha⟩
    exact decodeOfEncode c p i hd hw ha

/-- A received byte has, in a link state, the class that is received there and encoded as that byte. -/
theorem decode_receive_ok_iff {c : Codes} (hd : c.distinct = true) {t : LinkState} {b : Byte} {i : Instr} :
    decode c (.receive t) [b] = .ok i ↔ [b] = encode c i ∧ i.receivedIn c t = true := by
  rw [decode_ok_iff hd, eq_comm]
  exact and_congr_right' (and_iff_right_of_imp wellFormed_of_receivedIn)

/-- Settles O5: `decode_receive_ok_iff` for each class, and the states in which every byte is data. -/
theorem receiveClassification : Obligations.ReceiveClassification := by
  intro c t b hd
  refine ⟨fun ht => ?_, ?_, ?_⟩
  · obtain rfl | rfl | rfl := ht <;>
      simp [decode_receive_ok_iff hd, encode, Instr.receivedIn, LinkState.classifies, Codes.acceptedIn, and_comm]
  · rintro (rfl | rfl) <;> rfl
  · rintro (rfl | rfl) <;> rfl

/-! ### Words of the tables (R72, R81, R84) -/

/-- Settles O1: each word is the encoding of its operation, under the codes of profile `SRC`. -/
theorem tableWordsDecode : Obligations.TableWordsDecode :=
  ⟨rfl, rfl, rfl, rfl, rfl, rfl, rfl, rfl, rfl, rfl⟩

end Sys2Proof.Machine
end

section
/-! PROOF. The host ports: which byte lists are illegal (R73), the step that issues a command or answers it (R73 to R76),
the frame a transmit operation latches at issue (R85, R183), and the assembler's examples (R87, R88). -/

namespace Sys2Proof.Machine

/-! ### Illegal commands (R73) -/

/-- An operation without operands is legal as its opcode alone. -/
theorem decodeCmd1_isOk {i : Instr} {args : List Byte} : (∃ j, decodeCmd1 i args = .ok j) ↔ args.length + 1 = 1 := by
  cases args <;> simp [decodeCmd1]

/-- Operands are an en byte exactly when they are the one byte 0x00 or 0x01 (R79). -/
theorem decodeEnable_isOk {f : Bool → Instr} {args : List Byte} :
    (∃ i, decodeEnable f args = .ok i) ↔ args.length + 1 = 2 ∧ ¬ ∃ en, args = [en] ∧ en ≠ 0x00 ∧ en ≠ 0x01 := by
  constructor
  · rintro ⟨i, h⟩
    obtain ⟨en, rfl, -⟩ := enableByte_of_decodeEnable h
    cases en <;> simp [enableByte]
  · rintro ⟨hl, he⟩
    obtain ⟨b, rfl⟩ := List.length_eq_one_iff.1 (Nat.succ.inj hl)
    by_cases h0 : b = 0x00
    · exact ⟨f false, by simp [decodeEnable, h0]⟩
    by_cases h1 : b = 0x01
    · exact ⟨f true, by simp [decodeEnable, h1]⟩
    · exact absurd ⟨b, rfl, h0, h1⟩ he

/-- Operands are in format CMDV8 exactly when their length is the one their count byte gives; a missing count byte gives
no length (R73). -/
theorem decodeUnits8_isOk {f : Byte → List Byte → Instr} {args : List Byte} :
    (∃ i, decodeUnits8 f args = .ok i) ↔ args.length + 1 = 3 + (args.getD 1 0).toNat := by
  match args with
  | [] => simp [decodeUnits8]
  | [_] => simp [decodeUnits8]
  | idx :: n :: us =>
    have hlen : (idx :: n :: us).length + 1 = 3 + n.toNat ↔ us.length = n.toNat := by
      simp only [List.length_cons]; omega
    by_cases h : us.length = n.toNat
    · exact iff_of_true ⟨f idx us, by simp [decodeUnits8, h]⟩ (hlen.2 h)
    · exact iff_of_false (by simp [decodeUnits8, h]) (mt hlen.1 h)

/-- Operands are in format CMDV16 exactly when their length is the one their count byte gives (R73). -/
theorem decodeUnits16_isOk {f : Byte → List Unit16 → Instr} {args : List Byte} :
    (∃ i, decodeUnits16 f args = .ok i) ↔ args.length + 1 = 3 + 2 * (args.getD 1 0).toNat := by
  match args with
  | [] => simp [decodeUnits16]
  | [_] => simp [decodeUnits16]
  | idx :: n :: bs =>
    have hlen : (idx :: n :: bs).length + 1 = 3 + 2 * n.toNat ↔ bs.length = 2 * n.toNat := by
      simp only [List.length_cons]; omega
    by_cases h : bs.length = 2 * n.toNat
    · obtain ⟨us, hu⟩ := exists_joinUnits h
      exact iff_of_true ⟨f idx us, by simp [decodeUnits16, h, hu]⟩ (hlen.2 h)
    · exact iff_of_false (by simp [decodeUnits16, h]) (mt hlen.1 h)

/-- R73 (d), (e): in its row a command is legal exactly when its length is the total length of the row and an en byte is
0x00 or 0x01. -/
theorem decodeOperands_isOk (o : Opcode) (args : List Byte) :
    (∃ i, decodeOperands o args = .ok i) ↔
      args.length + 1 = commandLength o (args.getD 1 0).toNat
      ∧ ¬ (o ∈ [Opcode.setHandler, .setBytesSink, .setDbytesSink] ∧ ∃ en, args = [en] ∧ en ≠ 0x00 ∧ en ≠ 0x01) := by
  cases o with
  | pump | waitIdle | resync | dequeue | readStatus => exact decodeCmd1_isOk.trans (and_iff_left (by simp)).symm
  | setHandler | setBytesSink | setDbytesSink => exact decodeEnable_isOk.trans (by simp [commandLength])
  | writeStr | writeMagicBytes => exact decodeUnits8_isOk.trans (and_iff_left (by simp)).symm
  | writeStrU | writeMagicDbytes => exact decodeUnits16_isOk.trans (and_iff_left (by simp)).symm
  | readObj =>
    match args with
    | [_, _] => simp [decodeOperands, commandLength]
    | [] | [_] | _ :: _ :: _ :: _ => simp [decodeOperands, commandLength]
  | writeObj =>
    match args with
    | [_, _, _, _] => simp [decodeOperands, commandLength]
    | [] | [_] | [_, _] | [_, _, _] | _ :: _ :: _ :: _ :: _ :: _ => simp [decodeOperands, commandLength]
  | writeContrast =>
    match args with
    | [_] => simp [decodeOperands, commandLength]
    | [] | _ :: _ :: _ => simp [decodeOperands, commandLength]

/-- R73 (c) to (e): why a command with an opcode of the table is illegal at a port. -/
theorem decodeHost_row_illegal_iff (port : Port) (o : Opcode) (args : List Byte) :
    (∀ i, decodeHost port (opcodeByte o :: args) ≠ .ok i) ↔
      opcodePort o ≠ port
      ∨ args.length + 1 ≠ commandLength o (args.getD 1 0).toNat
      ∨ (o ∈ [Opcode.setHandler, .setBytesSink, .setDbytesSink] ∧ ∃ en, args = [en] ∧ en ≠ 0x00 ∧ en ≠ 0x01) := by
  have hrow : decodeHost port (opcodeByte o :: args)
      = if opcodePort o = port then decodeOperands o args else .error .otherPort := by
    simp [decodeHost, lookup_opcodeTable_iff.2 rfl]
  have hops := not_congr (decodeOperands_isOk o args)
  rw [not_exists, not_and_or, not_not] at hops
  rw [hrow]
  by_cases hp : opcodePort o = port
  · simpa [hp] using hops
  · simp [hp]

/-! ### The columns of R72 by opcode -/

/-- The opcodes of R72 are the bytes of the opcode column. -/
theorem mem_opcodes_iff {op : Byte} :
    op ∈ ([0x01, 0x02, 0x03, 0x04, 0x05, 0x06, 0x10, 0x11, 0x12, 0x13, 0x14, 0x15, 0x16, 0x20, 0x21] : List Byte) ↔
      ∃ o, op = opcodeByte o := by
  constructor
  · intro h
    obtain ⟨r, hr, rfl⟩ := List.mem_map.1 (show op ∈ opcodeTable.map Prod.fst from h)
    exact ⟨r.2, (by decide : ∀ r ∈ opcodeTable, r.1 = opcodeByte r.2) r hr⟩
  · rintro ⟨o, rfl⟩
    cases o <;> decide

/-- The port column. -/
theorem opcodePort_ne_iff (o : Opcode) (port : Port) :
    opcodePort o ≠ port ↔
      (port = .command ∧ opcodeByte o ∈ ([0x20, 0x21] : List Byte))
      ∨ (port = .drain ∧ opcodeByte o ∉ ([0x20, 0x21] : List Byte)) := by
  cases port <;> cases o <;> decide

/-- The total-length column. -/
theorem ne_commandLength_iff (o : Opcode) (l n : Nat) :
    l ≠ commandLength o n ↔
      (opcodeByte o ∈ ([0x01, 0x02, 0x03, 0x20, 0x21] : List Byte) ∧ l ≠ 1)
      ∨ (opcodeByte o ∈ ([0x04, 0x05, 0x06, 0x12] : List Byte) ∧ l ≠ 2)
      ∨ (opcodeByte o = 0x10 ∧ l ≠ 3)
      ∨ (opcodeByte o = 0x11 ∧ l ≠ 5)
      ∨ (opcodeByte o ∈ ([0x13, 0x15] : List Byte) ∧ l ≠ 3 + n)
      ∨ (opcodeByte o ∈ ([0x14, 0x16] : List Byte) ∧ l ≠ 3 + 2 * n) := by
  cases o <;> simp [commandLength, opcodeByte]

/-- The operations with an en byte (R79). -/
theorem mem_enableOpcodes_iff (o : Opcode) :
    o ∈ [Opcode.setHandler, .setBytesSink, .setDbytesSink] ↔ opcodeByte o ∈ ([0x04, 0x05, 0x06] : List Byte) := by
  cases o <;> decide

/-! ### The issue step (R73 to R76) -/

/-- A command that decodes at the command port is issued as its meaning (R74). -/
theorem issueCommand_of_ok {b : List Byte} {s : State} {i : Instr}
    (h : decode s.cfg.val.codes (.host .command) b = .ok i) : issueCommand b s = exec i s := by
  simp [issueCommand, h]

/-- A command that decodes to nothing at the command port is answered `[0xFF]` (R73). -/
theorem issueCommand_of_error {b : List Byte} {s : State} {r : Reject}
    (h : decode s.cfg.val.codes (.host .command) b = .error r) :
    issueCommand b s = .next (respondCmd [0xFF] s) := by
  simp [issueCommand, h]

/-- A command that decodes at the drain port runs as its meaning (R76). -/
theorem issueDrain_of_ok {b : List Byte} {s : State} {i : Instr}
    (h : decode s.cfg.val.codes (.host .drain) b = .ok i) : issueDrain b s = exec i s := by
  simp [issueDrain, h]

/-- A command that decodes to nothing at the drain port is answered `[0xFF]` (R73). -/
theorem issueDrain_of_error {b : List Byte} {s : State} {r : Reject}
    (h : decode s.cfg.val.codes (.host .drain) b = .error r) :
    issueDrain b s = .next (respondDrain [0xFF] s) := by
  simp [issueDrain, h]

/-- Settles O4: (a) by the empty list, (b) by the opcode column, (c) to (e) by the row of the opcode. -/
theorem illegalCommands : Obligations.IllegalCommands := by
  refine ⟨fun c port bs => ?_, fun s bs r h => issueCommand_of_error h, fun s bs r h => issueDrain_of_error h⟩
  cases bs with
  | nil => simp [decode, decodeHost]
  | cons op args =>
    simp only [mem_opcodes_iff]
    by_cases ho : ∃ o, op = opcodeByte o
    · obtain ⟨o, rfl⟩ := ho
      have h := decodeHost_row_illegal_iff port o args
      rw [opcodePort_ne_iff, ne_commandLength_iff, mem_enableOpcodes_iff] at h
      have hrow : ¬ ∀ x, opcodeByte o ≠ opcodeByte x := fun hne => hne o rfl
      simpa [decode, hrow, or_assoc] using h
    · have h : ∀ i, decodeHost port (op :: args) ≠ .ok i := by
        intro i hi
        obtain ⟨o, args', he, -⟩ := decodeHost_ok_iff.1 hi
        exact ho ⟨o, (List.cons.inj he).1⟩
      exact iff_of_true h (.inr ⟨op, args, rfl, .inl ho⟩)

/-- Settles O6: the turn is the command port's, and the port takes the command. -/
theorem stepRunsIssuedCommand : Obligations.StepRunsIssuedCommand := by
  intro s ts b bs hf ht ho hc
  have hs : step s = issueCommand b { s with script := { s.script with turns := ts, cmdIn := bs } } := by
    simp [step_of_turn hf ht, takeTurn, hostCmdStep, ho, hc]
  rw [hs]
  exact ⟨fun i h => issueCommand_of_ok h, fun r h => issueCommand_of_error h⟩

/-- Settles O7: the turn is the drain port's, which takes the command whatever `OP` is. -/
theorem stepRunsDrainCommand : Obligations.StepRunsDrainCommand := by
  intro s ts b bs hf ht hc
  have hs : step s = issueDrain b { s with script := { s.script with turns := ts, drainIn := bs } } := by
    simp [step_of_turn hf ht, takeTurn, hostDrainStep, hc]
  rw [hs]
  exact ⟨fun i h => issueDrain_of_ok h, fun r h => issueDrain_of_error h⟩

/-! ### The frame latched at issue (R85, R181, R183) -/

/-- The checksum is the running XOR of the bytes, from the left (R181). -/
theorem foldl_xor_eq_xorBytes (bs : List Byte) : ∀ a : Byte, bs.foldl (· ^^^ ·) a = a ^^^ xorBytes bs := by
  induction bs with
  | nil => intro a; simp [xorBytes]
  | cons b bs ih => intro a; simp [xorBytes, ih, BitVec.xor_assoc]

/-- Units on the wire are their bytes, high byte first (R85). -/
theorem splitUnits_eq_flatMap (us : List Unit16) :
    splitUnits us = us.flatMap (fun u => [u.extractLsb' 8 8, u.extractLsb' 0 8]) := by
  induction us with
  | nil => rfl
  | cons u us ih => simp [splitUnits, ih, hiByte, loByte]

/-- A frame of three bytes and a payload, with its checksum last. -/
theorem txFrame_payload (a b n : Byte) (p : List Byte) :
    txFrame (a :: b :: n :: p) = [a, b, n] ++ p ++ [a ^^^ b ^^^ n ^^^ p.foldl (· ^^^ ·) 0] := by
  simp [txFrame, xorBytes, foldl_xor_eq_xorBytes, BitVec.xor_assoc]

/-- The frame of a payload of 16-bit units; `n` counts units (R189, R194). -/
theorem txFrame_bodyUnits16 (code idx : Byte) (us : List Unit16) :
    txFrame (bodyUnits16 code idx us) = [code, idx, BitVec.ofNat 8 us.length]
      ++ us.flatMap (fun u => [u.extractLsb' 8 8, u.extractLsb' 0 8])
      ++ [code ^^^ idx ^^^ BitVec.ofNat 8 us.length
          ^^^ (us.flatMap (fun u => [u.extractLsb' 8 8, u.extractLsb' 0 8])).foldl (· ^^^ ·) 0] := by
  rw [bodyUnits16, txFrame_payload, splitUnits_eq_flatMap]
  rfl

/-- Settles O18: each meaning is `issueTransmit` of its body, whose frame is the body and its checksum. -/
theorem transmitIssueLatchesFrame : Obligations.TransmitIssueLatchesFrame := by
  intro s c latched
  have hissue : ∀ {i : Instr} {body f : List Byte} {w : LinkState},
      exec i s = .next (issueTransmit body w s) → txFrame body = f → exec i s = latched f w := by
    rintro i body f w h rfl
    exact h
  refine ⟨fun obj idx => hissue rfl ?_, fun obj idx dh dl => hissue rfl ?_, fun val => hissue rfl ?_,
    fun idx us => hissue rfl (txFrame_payload ..), fun idx us => hissue rfl (txFrame_payload ..),
    fun idx us => hissue rfl (txFrame_bodyUnits16 ..), fun idx us => hissue rfl (txFrame_bodyUnits16 ..)⟩
  · simp [txFrame, bodyReadObj, xorBytes, BitVec.xor_assoc, c]
  · simp [txFrame, bodyWriteObj, xorBytes, BitVec.xor_assoc, c]
  · simp [txFrame, bodyWriteContrast, xorBytes, c]

/-! ### The assembler (R87, R88) -/

/-- The high byte of a 16-bit value. -/
theorem hiByte_ofNat {v : Nat} (h : v < 65536) : hiByte (BitVec.ofNat 16 v) = BitVec.ofNat 8 (v / 256) := by
  apply BitVec.eq_of_toNat_eq
  simp only [hiByte, BitVec.extractLsb'_toNat, BitVec.toNat_ofNat]
  omega

/-- The low byte of a 16-bit value. -/
theorem loByte_ofNat (v : Nat) : loByte (BitVec.ofNat 16 v) = BitVec.ofNat 8 (v % 256) := by
  apply BitVec.eq_of_toNat_eq
  simp [loByte]

/-- Settles O59: the lines by evaluation, `WRITE_OBJ16` by the two bytes of its value. -/
theorem assemblerExamples : Obligations.AssemblerExamples := by
  refine ⟨rfl, rfl, rfl, fun c obj idx v hv => ?_⟩
  simp [expandWriteObj16, encode, hiByte_ofNat hv, loByte_ofNat]

end Sys2Proof.Machine
end

section
/-! PROOF. The link-state stack (R100, R101, R105): what `Push`, its overflow, `Pop` and `RESYNC` write. -/

namespace Sys2Proof.Machine

/-! ### Push with room (R100) -/

/-- R100: with room, `Push` writes the stack, and the accumulator's count and checksum for `ReceivingEvent` alone. -/
theorem push_of_room {s : State} (w : LinkState) (h : s.link.depth.toNat < s.cfg.val.stackDepth) :
    push w s = (true, { s with
      link := (pushEntry w s).link
      acc := if w = .receivingEvent then { s.acc with count := 0, cs := 0 } else s.acc }) := by
  obtain ⟨hf, -⟩ | ⟨-, hw, e⟩ | ⟨-, hw, e⟩ := push_cases w s
  · exact absurd (of_decide_eq_true hf) (Nat.ne_of_lt h)
  · rw [e, if_pos hw]; rfl
  · rw [e, if_neg hw]; rfl

/-- R8, R22: `LS_DEPTH + 1` does not wrap while there is room. -/
theorem pushEntry_depth_toNat {s : State} (w : LinkState) (h : s.link.depth.toNat < s.cfg.val.stackDepth) :
    (pushEntry w s).link.depth.toNat = s.link.depth.toNat + 1 := by
  have hmax := (stackDepth_range s).2
  simp only [pushEntry_fields]
  bv_omega

/-- With room, the pushed state is the active one. -/
theorem top_pushEntry {s : State} (w : LinkState) (hl : LinkInv s) (h : s.link.depth.toNat < s.cfg.val.stackDepth) :
    top (pushEntry w s) = w := by
  rw [top, pushEntry_depth_toNat w h, Nat.add_sub_cancel]
  simp only [pushEntry_fields]
  exact getD_set_eq _ _ _ _ (hl.length ▸ h)

/-- A push leaves every live entry. -/
theorem pushEntry_below {s : State} (w d : LinkState) {i : Nat} (hi : i < s.link.depth.toNat) :
    (pushEntry w s).link.ls.getD i d = s.link.ls.getD i d := by
  simp only [pushEntry_fields]
  exact getD_set_ne _ _ _ _ _ (Nat.ne_of_gt hi)

/-! ### Push at a full stack (R100, R105) -/

/-- R100: at the bound, `Push` resyncs, counts and pushes nothing. -/
theorem push_of_full {s : State} (w : LinkState) (h : s.link.depth.toNat = s.cfg.val.stackDepth) :
    push w s = (false, overflowResync s) :=
  if_pos (decide_eq_true h)

/-- R105: after `Resync` the baseline is the active state. -/
theorem top_resyncLink {s : State} (hl : LinkInv s) : top (resyncLink s) = .idle := by
  have hlen : 0 < s.link.ls.length := hl.length ▸ (stackDepth_range s).1
  simp only [top, resyncLink_fields]
  exact getD_set_eq _ _ _ _ hlen

/-- R10: a saturating count stops at 255. -/
theorem sat8Inc_toNat_eq_min (x : Byte) : (sat8Inc x).toNat = min (x.toNat + 1) 255 := by
  unfold sat8Inc
  split
  next hx => rw [hx]; rfl
  next hx => bv_omega

/-- Settles O27: with room by what `pushEntry` writes, at the bound by what `overflowResync` writes. -/
theorem pushMakesTopOrResyncs : Obligations.PushMakesTopOrResyncs := by
  intro s w hl
  refine ⟨fun h => ?_, fun h => ?_⟩
  · exact ⟨_, _, push_of_room w h, top_pushEntry w hl h, pushEntry_depth_toNat w h,
      fun i hi => pushEntry_below w .shutdown hi, rfl⟩
  · exact ⟨_, _, push_of_full w h, top_resyncLink hl, rfl, sat8Inc_toNat_eq_min s.fatalCount⟩

/-! ### Pop (R101) -/

/-- R101: the baseline is never removed. -/
theorem pop_of_baseline {s : State} (h : s.link.depth.toNat ≤ 1) : pop s = s :=
  if_neg (Nat.not_lt.2 h)

/-- R101: above the baseline, `Pop` takes one from `LS_DEPTH`. -/
theorem pop_of_pushed {s : State} (h : 1 < s.link.depth.toNat) :
    pop s = { s with link := { s.link with depth := s.link.depth - 1 } } :=
  if_pos h

/-- R101: `Pop` after a push with room restores `LS_DEPTH`; the entry written stays, above the stack. -/
theorem pop_push_link {s : State} (w : LinkState) (hl : LinkInv s) (h : s.link.depth.toNat < s.cfg.val.stackDepth) :
    (pop (push w s).2).link = { (pushEntry w s).link with depth := s.link.depth } := by
  have hdepth : 1 < (pushEntry w s).link.depth.toNat := by
    rw [pushEntry_depth_toNat w h]
    exact Nat.lt_succ_of_le hl.depthLow
  rw [push_of_room w h, pop_of_pushed (by exact hdepth)]
  simp

/-- Settles O28: a pop after a push restores the depth, and the push left the entry below its own. -/
theorem popResumesSuspendedState : Obligations.PopResumesSuspendedState := by
  refine ⟨fun s w hl h => ?_, fun s h => pop_of_baseline h, fun s h => pop_of_pushed h⟩
  rw [top, pop_push_link w hl h]
  exact ⟨pushEntry_below w .idle (Nat.sub_one_lt_of_le hl.depthLow le_rfl), rfl⟩

/-! ### RESYNC (R217) -/

/-- R77: the code of `NONE` as a response byte. -/
theorem errorByte_none : errorByte .none = 0x00 := by decide

/-- R217: `RESYNC` records no error, resyncs and answers `[0x00]`. -/
theorem exec_resync (s : State) : exec .resync s = .next (respondCmd [0x00] (resyncLink (setError .none s))) := by
  rw [← errorByte_none]
  rfl

/-- Settles O16: the fields `RESYNC` writes are those of `resyncLink`, its error code and its response. -/
theorem resyncClearsToBaseline : Obligations.ResyncClearsToBaseline := fun s => exec_resync s

end Sys2Proof.Machine
end

section
/-! PROOF. The meanings of the receive classes (R121 to R127, R130, R131): the lead classes, ACK and NAK, the framing error,
the accumulator with its check, and the magic header with its dispatch. -/

namespace Sys2Proof.Machine

/-! ### One byte into the accumulator (R126, R127) -/

/-- R126: before the sixth byte, `Accumulate` stores. -/
theorem accumulate_of_lt {s : State} (b : Byte) (h : s.acc.count.val < 5) : accumulate b s = storeByte b s := by
  obtain ⟨h6, -⟩ | ⟨-, e⟩ | ⟨h5, -⟩ := accumulate_cases b s
  · omega
  · exact e
  · omega

/-- R126, R127: the sixth byte is stored and the frame checked. -/
theorem accumulate_of_five {s : State} (b : Byte) (h : s.acc.count.val = 5) :
    accumulate b s = checkFrame (storeByte b s) := by
  obtain ⟨h6, -⟩ | ⟨h5, -⟩ | ⟨-, e⟩ := accumulate_cases b s
  · omega
  · omega
  · exact e

/-- R126: a byte at a full accumulator faults. -/
theorem accumulate_of_six {s : State} (b : Byte) (h : s.acc.count.val = 6) :
    accumulate b s = raiseFault .staleAccumulator s := by
  obtain ⟨-, e⟩ | ⟨h5, -⟩ | ⟨h5, -⟩ := accumulate_cases b s
  · exact e
  · omega
  · omega

/-- R24: `RX_BUF[k] <- b` writes the `k`-th byte of the frame in wire order, and no other. -/
theorem frameBytes_setFrameByte (f : Frame) (k : Fin 7) (b : Byte) :
    frameBytes (setFrameByte f k b) = (frameBytes f).set k.val b := by
  fin_cases k <;> rfl

/-- R104, R126: the first byte after `EnterReceiving`. -/
theorem storeByte_enterReceiving (b : Byte) (s : State) :
    storeByte b (enterReceiving s) = { s with acc := { buf := { s.acc.buf with cmd := b }, count := 1, cs := b } } := by
  simp [storeByte, enterReceiving, setFrameByte]

/-- R126: the sixth byte completes the frame. -/
theorem storeByte_of_five {s : State} (b : Byte) (h : s.acc.count.val = 5) :
    storeByte b s
      = { s with acc := { buf := { s.acc.buf with csum := b }, count := 6, cs := s.acc.cs ^^^ b } } := by
  have h5 : s.acc.count = 5 := Fin.ext h
  simp [storeByte, h5, setFrameByte]

/-- Settles O32: below the sixth byte `storeByte`, which writes one place of the frame; at a full accumulator the fault. -/
theorem frameByteAccumulates : Obligations.FrameByteAccumulates := by
  intro s b
  refine ⟨fun h => ⟨setFrameByte s.acc.buf s.acc.count b, ?_, count_succ _ (by omega), ?_⟩, fun h => ?_⟩
  · exact congrArg Host.Outcome.next (accumulate_of_lt b h)
  · exact frameBytes_setFrameByte _ _ _
  · exact congrArg Host.Outcome.next (accumulate_of_six b h)

/-- R127: a frame whose XOR is zero is enqueued and its state popped. -/
theorem checkFrame_of_zero {s : State} (h : s.acc.cs = 0) : checkFrame s = pop (enqueue s.acc.buf s) :=
  if_pos h

/-- R127: any other frame goes by the policy for bad checksums. -/
theorem checkFrame_of_ne {s : State} (h : s.acc.cs ≠ 0) : checkFrame s = badChecksum s :=
  if_neg h

/-- Settles O33: the sixth byte is stored, and the frame checked; `RX_CS` is then zero exactly when it was the byte. -/
theorem sixthByteChecksFrame : Obligations.SixthByteChecksFrame := by
  intro s b h5 t u v
  have hexec : exec (.rxFrameByte b) s = .next (checkFrame t) := by
    show Host.Outcome.next (accumulate b s) = _
    rw [accumulate_of_five b h5, storeByte_of_five b h5]
  rw [hexec]
  refine ⟨fun he => ?_, fun hne => ?_⟩
  · rw [checkFrame_of_zero (BitVec.xor_eq_zero_iff.2 he)]
  · rw [checkFrame_of_ne (mt BitVec.xor_eq_zero_iff.1 hne)]
    refine ⟨fun hp => ?_, fun hp => ?_, fun hp => ?_⟩
    all_goals
      have hpt : t.cfg.val.badCsPolicy = _ := hp
      rw [badChecksum, hpt]
      rfl

/-! ### The lead classes (R121, R122, R124) -/

/-- R121: with room, an event lead is pushed and stored as the first byte of a frame. -/
theorem exec_eventLead_of_room {s : State} (h : s.link.depth.toNat < s.cfg.val.stackDepth) :
    exec .rxReportEventLead s
      = .next (storeByte s.cfg.val.codes.reportEvent (enterReceiving (pushEntry .receivingEvent s))) := by
  have hpush : push .receivingEvent s = (true, enterReceiving (pushEntry .receivingEvent s)) := push_of_room _ h
  simp only [exec, execRxReportEventLead, hpush, if_true]
  rw [accumulate_of_lt _ (by simp)]

/-- R121: at a full stack, an event lead is dropped after the resync. -/
theorem exec_eventLead_of_full {s : State} (h : s.link.depth.toNat = s.cfg.val.stackDepth) :
    exec .rxReportEventLead s = .next (overflowResync s) := by
  simp [exec, execRxReportEventLead, push_of_full _ h]

/-- R124: a report lead replaces the active state and is stored as the first byte of a frame. -/
theorem exec_reportLead (s : State) :
    exec .rxReportObjLead s = .next (storeByte s.cfg.val.codes.reportObj (replaceTop .receivingReport s)) :=
  congrArg Host.Outcome.next (accumulate_of_lt _ (by simp [replaceTop]))

/-- R22: a stack that is not full has room. -/
theorem LinkInv.room {s : State} (h : LinkInv s) (hne : s.link.depth.toNat ≠ s.cfg.val.stackDepth) :
    s.link.depth.toNat < s.cfg.val.stackDepth :=
  Nat.lt_of_le_of_ne h.depthTop hne

/-- Settles O25: with room the push and the first byte of the frame, at the bound what `overflowResync` writes. -/
theorem eventLeadPushes : Obligations.EventLeadPushes := by
  intro s hl
  refine ⟨fun hne => ?_, fun hfull => ?_⟩
  · rw [exec_eventLead_of_room (hl.room hne), storeByte_enterReceiving]
    rfl
  · exact exec_eventLead_of_full hfull

/-- R122: with room, a magic lead clears the cursor and pushes its state. -/
theorem magicLead_of_room {s : State} {w : LinkState} (h : s.link.depth.toNat < s.cfg.val.stackDepth)
    (hw : w ≠ .receivingEvent) :
    magicLead w s = pushEntry w { s with magic := { s.magic with cursor := 0 } } := by
  rw [magicLead, push_of_room w (by exact h)]
  simp only [if_neg hw]
  rfl

/-- R122, R105: at a full stack a magic lead only resyncs, which clears the cursor too. -/
theorem magicLead_of_full {s : State} (w : LinkState) (h : s.link.depth.toNat = s.cfg.val.stackDepth) :
    magicLead w s = overflowResync s := by
  rw [magicLead, push_of_full w (by exact h)]
  rfl

/-- Settles O26: with room the two states pushed, at the bound what `overflowResync` writes. -/
theorem magicLeadPushes : Obligations.MagicLeadPushes := by
  intro s hl
  refine ⟨fun hne => ⟨?_, ?_⟩, fun hfull i hi => ?_⟩
  · exact congrArg Host.Outcome.next (magicLead_of_room (hl.room hne) (by decide))
  · exact congrArg Host.Outcome.next (magicLead_of_room (hl.room hne) (by decide))
  · obtain rfl | rfl := hi
    · exact congrArg Host.Outcome.next (magicLead_of_full _ hfull)
    · exact congrArg Host.Outcome.next (magicLead_of_full _ hfull)

/-- Settles O30: the replaced entry and the first byte of the frame. -/
theorem reportLeadReplacesTop : Obligations.ReportLeadReplacesTop := by
  intro s _
  rw [exec_reportLead, replaceTop, storeByte_enterReceiving]

/-! ### ACK, NAK and the framing error (R123, R125) -/

/-- Settles O29: both classes are `Pop`, NAK with its error. -/
theorem ackAndNakPop : Obligations.AckAndNakPop := by
  intro s l
  have hpop : pop s = { s with link := l } := by
    unfold pop l
    split <;> rfl
  exact ⟨congrArg Host.Outcome.next hpop, congrArg (Host.Outcome.next ∘ setError .nak) hpop⟩

/-- Settles O31: the error and the count are all that `FramingError` writes. -/
theorem framingErrorCounts : Obligations.FramingErrorCounts := fun _ _ => rfl

/-! ### The magic header and its dispatch (R130, R131) -/

/-- Settles O38: one byte of the header at each value of the cursor. -/
theorem magicHeaderBytes : Obligations.MagicHeaderBytes := by
  intro s b
  refine ⟨fun h => ?_, fun h => ?_, fun h => ?_, fun h => ?_⟩
  all_goals
    simp only [exec, execRxMagicHeaderByte, magicHeaderByte, h]
    rfl

/-- R131: with its sink registered the header is handed off. -/
theorem magicDispatch_of_sink {s : State} (h : sinkRegistered s = true) : magicDispatch s = handToSink s :=
  if_pos h

/-- R131: without a sink the payload is discarded. -/
theorem magicDispatch_of_no_sink {s : State} (h : sinkRegistered s = false) : magicDispatch s = discardPayload s :=
  if_neg (by simp [h])

/-- R131: `k * max(MG_LEN - 1, 0)` fits `MG_REMAIN`. -/
theorem discardCount_toNat (s : State) : (discardCount s).toNat = unitBytes s * (s.magic.len.toNat - 1) := by
  have hk : unitBytes s ≤ 2 := by unfold unitBytes; split <;> omega
  have hlen : s.magic.len.toNat - 1 ≤ 254 := by have := s.magic.len.isLt; omega
  have hmul : unitBytes s * (s.magic.len.toNat - 1) ≤ 2 * 254 := Nat.mul_le_mul hk hlen
  rw [discardCount, BitVec.toNat_ofNat, Nat.mod_eq_of_lt (by omega)]

/-- Settles O39: which sink counts is told by `TOP`, and with it the width of a unit. -/
theorem magicDispatchHandsOffOrDiscards : Obligations.MagicDispatchHandsOffOrDiscards := by
  intro s
  refine ⟨fun ht hr => ?_, fun ht hr => ?_, fun h => ⟨discardCount s, discardCount_toNat s, ?_⟩⟩
  · rw [magicDispatch_of_sink (by simp [sinkRegistered, ht, hr])]
    simp [handToSink, ht]
  · rw [magicDispatch_of_sink (by simp [sinkRegistered, ht, hr])]
    simp [handToSink, ht]
  · have hno : sinkRegistered s = false := by
      obtain ⟨ht, hr⟩ | ⟨ht, hr⟩ := h <;> simp [sinkRegistered, ht, hr]
    have hzero : discardCount s = 0 ↔ (discardCount s).toNat = 0 := BitVec.toNat_eq
    rw [magicDispatch_of_no_sink hno]
    simp only [discardPayload, hzero]

end Sys2Proof.Machine
end

section
/-! PROOF. The block's pump and its end (R120, R135 to R137), the magic phases (R132 to R134), and a whole discard as a run
of block steps. -/

namespace Sys2Proof.Machine

/-! ### The pump (R120, R136, R137, R214) -/

/-- R120: a byte with a class runs that class. -/
theorem dispatchByte_of_ok {s : State} {b : Byte} {i : Instr}
    (h : decode s.cfg.val.codes (.receive (top s)) [b] = .ok i) : dispatchByte b s = exec i s := by
  simp [dispatchByte, h]

/-- R129: a byte without a class, in `Shutdown`, faults. -/
theorem dispatchByte_of_error {s : State} {b : Byte} {r : Reject}
    (h : decode s.cfg.val.codes (.receive (top s)) [b] = .error r) :
    dispatchByte b s = .next (raiseFault .shutdownState s) := by
  simp [dispatchByte, h]

/-- The magic phases by name. -/
theorem magicPhase_iff (p : Phase) : magicPhase p = true ↔ p = .mgSink ∨ p = .mgDiscard ∨ p = .mgCsum := by
  cases p <;> simp [magicPhase]

/-- R136, R214: a dispatch ends the pump, unless it raised a fault or entered a magic phase. -/
theorem afterDispatch_next (t : State) :
    afterDispatch (.next t)
      = .next (if t.fault = true ∨ t.phase = .mgSink ∨ t.phase = .mgDiscard ∨ t.phase = .mgCsum then t
        else pumpDone t) := by
  simp only [afterDispatch, Bool.or_eq_true, magicPhase_iff]
  split <;> rfl

/-- Settles O8: the block's turn consumes the byte, whose dispatch is its class's meaning. -/
theorem stepRunsReceivedByte : Obligations.StepRunsReceivedByte := by
  intro s ts b rest i t hf hts hr hop hdec hexec
  rw [step_of_turn hf hts, takeTurn, blockStep_consumes (by exact hr) (by exact hop), consumeByte,
    dispatchByte_of_ok (by exact hdec)]
  exact (congrArg afterDispatch hexec).trans (afterDispatch_next t)

/-- R77: the flags of a pump that found no byte. -/
theorem pumpByte_unprocessed (n : Bool) : pumpByte false n = if n = true then 0x02 else 0x00 := by
  cases n <;> decide

/-- R137: the handler is notified of a queue that is not empty. -/
theorem handlerNotified_iff (s : State) :
    handlerNotified s = true ↔ s.reg.handler = true ∧ s.queue.count ≠ 0 := by
  simp [handlerNotified]

/-- R136, R137: the poll of an empty input answers `NO_CHAR`. -/
theorem pumpStart_of_empty {s : State} (h : s.rxFifo = []) :
    pumpStart s = .next (completeCmd
      [if s.reg.handler = true ∧ s.queue.count ≠ 0 then 0x02 else 0x00, 0x01] (setError .noChar s)) := by
  have herror : errorByte .noChar = 0x01 := by decide
  simp [pumpStart, h, pumpByte_unprocessed, handlerNotified_iff, herror]

/-- R136: the poll takes the oldest byte. -/
theorem pumpStart_of_byte {s : State} {b : Byte} {r : List Byte} (h : s.rxFifo = b :: r) :
    pumpStart s = consumeByte b r s := by
  simp [pumpStart, h]

/-- Settles O13: the issue is its three writes; the poll of an empty input completes the operation. -/
theorem pumpIssueAndEmptyPoll : Obligations.PumpIssueAndEmptyPoll := by
  refine ⟨fun _ => rfl, fun s ho hp hr => ?_⟩
  have hblock : blockStep s = pumpStart s := by simp only [blockStep, ho, hp]
  rw [hblock, pumpStart_of_empty hr]
  rfl

/-- Settles O14: the two cases of `PumpDone`. -/
theorem pumpDoneAnswersOrExtends : Obligations.PumpDoneAnswersOrExtends := by
  intro s
  obtain ⟨ho, e⟩ | ⟨ho, e⟩ := pumpDone_cases s <;> rw [e]
  · refine ⟨fun _ => ?_, fun h => ?_⟩
    · have hbyte : pumpByte true false = 0x01 := by decide
      rw [hbyte]
      rfl
    · simp [ho] at h
  · exact ⟨fun h => absurd h ho, fun _ => rfl⟩

/-! ### The magic phases (R132 to R134) -/

/-- R132: `MG_SINK` is one phase of every operation in progress. -/
theorem blockStep_mgSink {s : State} (ho : s.op ≠ .none) (hp : s.phase = .mgSink) :
    blockStep s = .next (mgSinkStep s) := by
  cases h : s.op with
  | none => exact absurd h ho
  | pump | wait | tx => simp only [blockStep, h, hp]

/-- R133: `MG_DISCARD` likewise. -/
theorem blockStep_mgDiscard {s : State} (ho : s.op ≠ .none) (hp : s.phase = .mgDiscard) :
    blockStep s = .next (mgDiscardStep s) := by
  cases h : s.op with
  | none => exact absurd h ho
  | pump | wait | tx => simp only [blockStep, h, hp]

/-- R134: `MG_CSUM` likewise. -/
theorem blockStep_mgCsum {s : State} (ho : s.op ≠ .none) (hp : s.phase = .mgCsum) :
    blockStep s = .next (mgCsumStep s) := by
  cases h : s.op with
  | none => exact absurd h ho
  | pump | wait | tx => simp only [blockStep, h, hp]

/-- R132: after `SINK_DONE` the checksum byte is next. -/
theorem mgSinkStep_done {s : State} (h : s.sink.done = true) :
    mgSinkStep s = { s with sink := { s.sink with done := false }, phase := .mgCsum } :=
  if_pos h

/-- R133: a discard drops the oldest byte, and the last one leads to the checksum. -/
theorem mgDiscardStep_drops {s : State} {b : Byte} {r : List Byte} (h : s.rxFifo = b :: r) :
    mgDiscardStep s = { s with
      rxFifo := r
      magic := { s.magic with remain := s.magic.remain - 1 }
      phase := if s.magic.remain = 1 then .mgCsum else .mgDiscard } := by
  have hlast : s.magic.remain - 1 = 0 ↔ s.magic.remain = 1 := sub_eq_zero
  simp only [mgDiscardStep, h, hlast]

/-- R134: the checksum byte is dropped, the magic state popped, and the pump done. -/
theorem mgCsumStep_drops {s : State} {b : Byte} {r : List Byte} (h : s.rxFifo = b :: r) :
    mgCsumStep s = pumpDone (pop { s with rxFifo := r }) := by
  simp [mgCsumStep, h]

/-- Settles O40: the block's step in each phase, waiting or not. -/
theorem magicPhasesAdvance : Obligations.MagicPhasesAdvance := by
  intro s ho
  refine ⟨fun hp hd => ?_, fun hp hd => ?_, fun hp hr => ?_, fun b r hp hr => ?_, fun b r hp hr => ?_⟩
  · rw [blockStep_mgSink ho hp, mgSinkStep_waits hd]
  · rw [blockStep_mgSink ho hp, mgSinkStep_done hd]
  · obtain hp | hp := hp
    · rw [blockStep_mgDiscard ho hp, mgDiscardStep_waits hr]
    · rw [blockStep_mgCsum ho hp, mgCsumStep_waits hr]
  · rw [blockStep_mgDiscard ho hp, mgDiscardStep_drops hr]
  · rw [blockStep_mgCsum ho hp, mgCsumStep_drops hr]

/-! ### A whole discard (R133) -/

/-- With no turn scripted, the step is `BLOCK`'s. -/
theorem step_of_no_turns {s : State} (hf : s.fault = false) (ht : s.script.turns = []) : step s = blockStep s := by
  simp [step, hf, nextTurn, ht, takeTurn]

/-- A run starts with its first step. -/
theorem run_succ_of_step {s t : State} (k : Nat) (h : step s = .next t) :
    Host.Core.run core (k + 1) s = Host.Core.run core k t := by
  have hcore : core.step s = .next t := h
  simp [Host.Core.run, hcore]

/-- Settles O41: by induction on the number of bytes; each step drops one, and the last enters `MG_CSUM`. -/
theorem discardDropsExactlyRemaining : Obligations.DiscardDropsExactlyRemaining := by
  intro n
  induction n with
  | zero => intro s _ _ _ _ hpos; omega
  | succ n ih =>
    intro s hf ho hp hn _ hlen ht
    obtain ⟨b, r, hr⟩ := List.exists_cons_of_length_pos (show 0 < s.rxFifo.length by omega)
    have hstep := step_of_no_turns hf ht
    rw [blockStep_mgDiscard ho hp, mgDiscardStep_drops hr] at hstep
    rw [run_succ_of_step n hstep, hr, List.drop_succ_cons]
    by_cases hlast : n = 0
    · subst hlast
      have hone : s.magic.remain = 1 := BitVec.eq_of_toNat_eq hn
      rw [if_pos hone, hone]
      rfl
    · have hne : s.magic.remain ≠ 1 := fun e => hlast (by rw [e] at hn; exact (Nat.succ.inj hn).symm)
      have hsub : (s.magic.remain - 1).toNat = n := by bv_omega
      rw [if_neg hne]
      exact ih _ hf ho rfl hsub (by omega) (by rw [hr] at hlen; exact Nat.le_of_succ_le_succ hlen) ht

end Sys2Proof.Machine
end

section
/-! PROOF. A whole frame through the receiver (R138): its lead byte enters a receiving state, the next five bytes fill the
accumulator, and the check delivers the frame or records its checksum. -/

namespace Sys2Proof.Machine

/-! ### The bytes of a frame (R126) -/

/-- R84, R126: in a state that accumulates a frame every byte is accumulated. -/
theorem dispatchByte_frame {s : State} (b : Byte) (h : receivingFrame (top s) = true) :
    dispatchByte b s = .next (accumulate b s) := by
  obtain ht | ht := (receivingFrame_iff _).1 h <;> exact dispatchByte_of_ok (by rw [ht]; rfl)

/-- R138: a dispatch that answers a next state goes on with the bytes after it. -/
theorem dispatchAll_cons {s t : State} {b : Byte} (bs : List Byte) (h : dispatchByte b s = .next t) :
    dispatchAll (b :: bs) s = dispatchAll bs t := by
  simp [dispatchAll, h]

/-- R126: the bytes of `bs` stored one after the other. -/
def storeBytes (bs : List Byte) (s : State) : State := bs.foldl (fun u b => storeByte b u) s

/-- R126, R127: in a state that accumulates a frame, the bytes up to the sixth are stored, and the sixth is checked. -/
theorem dispatchAll_frame (bs : List Byte) (b : Byte) : ∀ s : State, receivingFrame (top s) = true →
    s.acc.count.val + bs.length = 5 →
      dispatchAll (bs ++ [b]) s = .next (checkFrame (storeByte b (storeBytes bs s))) := by
  induction bs with
  | nil =>
    intro s h hc
    rw [List.nil_append, dispatchAll_cons [] (dispatchByte_frame b h), accumulate_of_five b hc]
    rfl
  | cons x xs ih =>
    intro s h hc
    rw [List.length_cons] at hc
    have hsucc := count_succ s.acc.count (by omega)
    rw [List.cons_append, dispatchAll_cons _ (dispatchByte_frame x h), accumulate_of_lt x (by omega)]
    refine ih (storeByte x s) (by rwa [top_congr (s := s) (by simp)]) ?_
    simp only [storeByte_fields]
    omega

/-- The accumulator full with the frame `f`, and `RX_CS` the XOR of its bytes (R24). -/
def framed (f : Frame) (s : State) : State :=
  { s with acc := { buf := f, count := 6, cs := xorBytes (frameBytes f) } }

/-- R24, R126: six bytes stored after `EnterReceiving` are the frame. -/
theorem storeBytes_frame (x0 x1 x2 x3 x4 x5 : Byte) (s : State) :
    storeBytes [x0, x1, x2, x3, x4, x5] (enterReceiving s) = framed ⟨x0, x1, x2, x3, x4, x5⟩ s := by
  simp [storeBytes, storeByte, enterReceiving, setFrameByte, framed, frameBytes, xorBytes, BitVec.xor_assoc]

/-- R138: once the lead byte has entered a receiving state, the next five bytes complete the frame, which is checked. -/
theorem dispatchAll_after_lead (x0 x1 x2 x3 x4 x5 : Byte) {s : State} (h : receivingFrame (top s) = true) :
    dispatchAll [x1, x2, x3, x4, x5] (storeByte x0 (enterReceiving s))
      = .next (checkFrame (framed ⟨x0, x1, x2, x3, x4, x5⟩ s)) := by
  have htop : receivingFrame (top (storeByte x0 (enterReceiving s))) = true := by
    rwa [top_congr (s := s) (by simp)]
  rw [← storeBytes_frame]
  exact dispatchAll_frame [x1, x2, x3, x4] x5 _ htop (by simp)

/-! ### The check of a frame (R127) -/

/-- `Pop` moves the stack by the stack alone. -/
theorem pop_link_congr {s t : State} (h : t.link = s.link) : (pop t).link = (pop s).link := by
  rw [pop_eq, pop_eq, h]

/-- R127, R160: a frame whose XOR is zero is enqueued, whatever state received it, and that state popped. -/
theorem checkFrame_delivers {f : Frame} (s : State) (h : xorBytes (frameBytes f) = 0) :
    (checkFrame (framed f s)).link = (pop s).link ∧ (checkFrame (framed f s)).fault = s.fault
    ∧ (checkFrame (framed f s)).queue = (enqueue f s).queue
    ∧ (checkFrame (framed f s)).lastError = (enqueue f s).lastError := by
  have hcheck : checkFrame (framed f s) = pop (enqueue f (framed f s)) := checkFrame_of_zero h
  have hlink : (enqueue f (framed f s)).link = s.link := by simp [framed]
  obtain ⟨hqueue, herror⟩ := enqueue_queue_congr f s (framed f s) rfl rfl rfl
  rw [hcheck]
  exact ⟨pop_link_congr hlink, by simp [framed], by simpa using hqueue, by simpa using herror⟩

/-- R127: under every policy a bad checksum leaves the queue and records its error. -/
theorem badChecksum_records (s : State) :
    (badChecksum s).queue = s.queue ∧ (badChecksum s).lastError = .badChecksum := by
  obtain e | e | e := badChecksum_cases s <;> rw [e] <;> simp

/-- R127: any other frame is not enqueued. -/
theorem checkFrame_rejects {f : Frame} (s : State) (h : xorBytes (frameBytes f) ≠ 0) :
    (checkFrame (framed f s)).fault = s.fault ∧ (checkFrame (framed f s)).queue = s.queue
    ∧ (checkFrame (framed f s)).lastError = .badChecksum := by
  have hcheck : checkFrame (framed f s) = badChecksum (framed f s) := checkFrame_of_ne h
  rw [hcheck]
  exact ⟨badChecksum_fault _, badChecksum_records _⟩

/-! ### The lead bytes of a frame (R84, R121, R124) -/

/-- R8, R82: the receive codes of a configuration are distinct. -/
theorem codes_distinct (s : State) : s.cfg.val.codes.distinct = true := by
  have hvalid := s.cfg.property
  simp only [Params.valid, Bool.and_eq_true] at hvalid
  obtain ⟨⟨⟨⟨hd, -⟩, -⟩, -⟩, -⟩ := hvalid
  exact hd

/-- R121: with room, an event lead received in a state that classifies starts a frame in `ReceivingEvent`. -/
theorem dispatchByte_eventLead {s : State} (ht : top s = .idle ∨ top s = .waitAckOrNak ∨ top s = .waitReportHeader)
    (hroom : s.link.depth.toNat < s.cfg.val.stackDepth) :
    dispatchByte s.cfg.val.codes.reportEvent s
      = .next (storeByte s.cfg.val.codes.reportEvent (enterReceiving (pushEntry .receivingEvent s))) := by
  obtain ⟨hclass, -⟩ := receiveClassification s.cfg.val.codes (top s) s.cfg.val.codes.reportEvent (codes_distinct s)
  rw [dispatchByte_of_ok ((hclass ht).1.2 rfl), exec_eventLead_of_room hroom]

/-- R103: the active entry overwritten, which `Replace` does before it clears the accumulator. -/
def replaceEntry (w : LinkState) (s : State) : State :=
  { s with link := { s.link with ls := s.link.ls.set (s.link.depth.toNat - 1) w } }

/-- R103: `Replace` is that write and `EnterReceiving`. -/
theorem replaceTop_eq (w : LinkState) (s : State) : replaceTop w s = enterReceiving (replaceEntry w s) := rfl

/-- R124: a report lead received in `WaitReportHeader` starts a frame in `ReceivingReport`. -/
theorem dispatchByte_reportLead {s : State} (ht : top s = .waitReportHeader) :
    dispatchByte s.cfg.val.codes.reportObj s
      = .next (storeByte s.cfg.val.codes.reportObj (enterReceiving (replaceEntry .receivingReport s))) := by
  obtain ⟨hclass, -⟩ := receiveClassification s.cfg.val.codes (top s) s.cfg.val.codes.reportObj (codes_distinct s)
  obtain ⟨-, -, -, -, -, hlead, -⟩ := hclass (.inr (.inr ht))
  rw [dispatchByte_of_ok (hlead.2 ⟨ht, rfl⟩), exec_reportLead, replaceTop_eq]

/-! ### The stack after a frame (R101, R103) -/

/-- R101: `Pop` after a push with room goes back to the suspended state. -/
theorem pop_pushEntry {s : State} (w : LinkState) (hl : LinkInv s) (h : s.link.depth.toNat < s.cfg.val.stackDepth) :
    top (pop (pushEntry w s)) = top s ∧ (pop (pushEntry w s)).link.depth = s.link.depth := by
  have hlink : (pop (pushEntry w s)).link = (pop (push w s).2).link := pop_link_congr (by rw [push_of_room w h])
  rw [top_congr hlink, hlink]
  exact popResumesSuspendedState.1 s w hl h

/-- A read inside a list does not depend on the default. -/
theorem getD_eq_getD {α : Type} {l : List α} {i : Nat} (d d' : α) (h : i < l.length) : l.getD i d = l.getD i d' := by
  rw [List.getD_eq_getElem _ _ h, List.getD_eq_getElem _ _ h]

/-- R22: a state other than `Idle` is active only above the baseline. -/
theorem LinkInv.above_baseline {s : State} (hl : LinkInv s) (h : top s ≠ .idle) : 1 < s.link.depth.toNat := by
  by_contra hle
  have hdepth : s.link.depth.toNat = 1 := Nat.le_antisymm (Nat.not_lt.1 hle) hl.depthLow
  have hlen : 0 < s.link.ls.length := hl.length ▸ (stackDepth_range s).1
  exact h (by rw [top, hdepth, getD_eq_getD _ .shutdown hlen, hl.base])

/-- R103: the state written over the active one is active. -/
theorem top_replaceEntry {s : State} (w : LinkState) (hl : LinkInv s) : top (replaceEntry w s) = w := by
  have hlow := hl.depthLow
  have htop := hl.depthTop
  exact getD_set_eq _ _ _ _ (by rw [hl.length]; omega)

/-- R101, R103: `Pop` after a replaced entry goes back to the state below it. -/
theorem pop_replaceEntry {s : State} (w : LinkState) (hl : LinkInv s) (h : 1 < s.link.depth.toNat) :
    top (pop (replaceEntry w s)) = s.link.ls.getD (s.link.depth.toNat - 2) .shutdown
    ∧ (pop (replaceEntry w s)).link.depth = s.link.depth - 1 := by
  have hlen := hl.length
  have htop := hl.depthTop
  have hdepth : (s.link.depth - 1).toNat - 1 = s.link.depth.toNat - 2 := by bv_omega
  rw [pop_of_pushed (by exact h)]
  refine ⟨?_, rfl⟩
  show (s.link.ls.set (s.link.depth.toNat - 1) w).getD ((s.link.depth - 1).toNat - 1) .idle = _
  rw [hdepth, getD_set_ne _ _ _ _ _ (by omega), getD_eq_getD _ .shutdown (by omega)]

/-! ### The six bytes (R138) -/

/-- R138 (a), (b): six bytes led by `REPORT_EVENT` are pushed, accumulated and checked. -/
theorem dispatchAll_eventFrame {s : State} (x1 x2 x3 x4 x5 : Byte) (hl : LinkInv s)
    (ht : top s = .idle ∨ top s = .waitAckOrNak ∨ top s = .waitReportHeader)
    (hroom : s.link.depth.toNat < s.cfg.val.stackDepth) :
    dispatchAll [s.cfg.val.codes.reportEvent, x1, x2, x3, x4, x5] s
      = .next (checkFrame (framed ⟨s.cfg.val.codes.reportEvent, x1, x2, x3, x4, x5⟩
          (pushEntry .receivingEvent s))) := by
  rw [dispatchAll_cons _ (dispatchByte_eventLead ht hroom), dispatchAll_after_lead]
  rw [top_pushEntry _ hl hroom]
  rfl

/-- R138 (c): six bytes led by `REPORT_OBJ` are accumulated and checked in the wait state's place. -/
theorem dispatchAll_reportFrame {s : State} (x1 x2 x3 x4 x5 : Byte) (hl : LinkInv s)
    (ht : top s = .waitReportHeader) :
    dispatchAll [s.cfg.val.codes.reportObj, x1, x2, x3, x4, x5] s
      = .next (checkFrame (framed ⟨s.cfg.val.codes.reportObj, x1, x2, x3, x4, x5⟩
          (replaceEntry .receivingReport s))) := by
  rw [dispatchAll_cons _ (dispatchByte_reportLead ht), dispatchAll_after_lead]
  rw [top_replaceEntry _ hl]
  rfl

/-- Settles O35: both leads end in the check of the frame in the state they entered; a valid frame is enqueued and that
state popped, any other records its checksum. -/
theorem sixByteFramesDelivered : Obligations.SixByteFramesDelivered := by
  intro s x1 x2 x3 x4 x5 hinv hf e r
  have hl := hinv.link
  have hxor : ∀ x, x ^^^ x1 ^^^ x2 ^^^ x3 ^^^ x4 ^^^ x5 = xorBytes (frameBytes ⟨x, x1, x2, x3, x4, x5⟩) :=
    fun x => (xorBytes_frameBytes ⟨x, x1, x2, x3, x4, x5⟩).symm
  refine ⟨fun ht hroom => ⟨_, dispatchAll_eventFrame x1 x2 x3 x4 x5 hl ht hroom, ?_⟩,
    fun ht hz => ⟨_, dispatchAll_reportFrame x1 x2 x3 x4 x5 hl ht, ?_⟩⟩
  · rw [hxor]
    by_cases hz : xorBytes (frameBytes ⟨e, x1, x2, x3, x4, x5⟩) = 0
    · obtain ⟨hlink, hfault, hqueue, herror⟩ := checkFrame_delivers (pushEntry .receivingEvent s) hz
      obtain ⟨hresumed, hdepth⟩ := pop_pushEntry .receivingEvent hl hroom
      obtain ⟨hq, he⟩ := enqueue_queue_congr ⟨e, x1, x2, x3, x4, x5⟩ s (pushEntry .receivingEvent s) rfl rfl rfl
      exact ⟨hfault.trans hf, fun _ => ⟨(top_congr hlink).trans hresumed, (congrArg _ hlink).trans hdepth,
        hqueue.trans hq, herror.trans he⟩, fun hne => absurd hz hne⟩
    · obtain ⟨hfault, hrejected⟩ := checkFrame_rejects (pushEntry .receivingEvent s) hz
      exact ⟨hfault.trans hf, fun h0 => absurd h0 hz, fun _ => hrejected⟩
  · rw [hxor] at hz
    obtain ⟨hlink, hfault, hqueue, herror⟩ := checkFrame_delivers (replaceEntry .receivingReport s) hz
    obtain ⟨hresumed, hdepth⟩ := pop_replaceEntry .receivingReport hl (hl.above_baseline (by simp [ht]))
    obtain ⟨hq, he⟩ := enqueue_queue_congr ⟨r, x1, x2, x3, x4, x5⟩ s (replaceEntry .receivingReport s) rfl rfl rfl
    exact ⟨hfault.trans hf, (congrArg _ hlink).trans hdepth, (top_congr hlink).trans hresumed, hqueue.trans hq,
      herror.trans he⟩

end Sys2Proof.Machine
end

section
/-! PROOF. `MG_CMD` is stored and never read (R130): every operation commutes with overwriting it, but for the header byte
that stores it. -/

namespace Sys2Proof.Machine

/-- `MG_CMD` overwritten with `x`. -/
def withMgCmd (x : Byte) (s : State) : State := { s with magic := { s.magic with cmd := x } }

/-! ### The shared operations

Each tests only what `withMgCmd` leaves, so it takes the same branch in both states. -/

theorem push_withMgCmd (w : LinkState) (x : Byte) (s : State) :
    push w (withMgCmd x s) = Prod.map id (withMgCmd x) (push w s) := by
  simp only [push, apply_ite (Prod.map id (withMgCmd x))]
  rfl

theorem pop_withMgCmd (x : Byte) (s : State) : pop (withMgCmd x s) = withMgCmd x (pop s) := by
  simp only [pop, apply_ite (withMgCmd x)]
  rfl

theorem enqueue_withMgCmd (f : Frame) (x : Byte) (s : State) :
    enqueue f (withMgCmd x s) = withMgCmd x (enqueue f s) := by
  have hmatch : matchingSlot f (withMgCmd x s) = matchingSlot f s := rfl
  simp only [enqueue, hmatch, apply_ite (withMgCmd x)]
  cases matchingSlot f s <;> rfl

theorem badChecksum_withMgCmd (x : Byte) (s : State) :
    badChecksum (withMgCmd x s) = withMgCmd x (badChecksum s) := by
  have hpolicy : (withMgCmd x s).cfg = s.cfg := rfl
  simp only [badChecksum, hpolicy]
  cases s.cfg.val.badCsPolicy with
  | restart | staleFault => rfl
  | restartPop => exact pop_withMgCmd x (enterReceiving (setError .badChecksum s))

theorem checkFrame_withMgCmd (x : Byte) (s : State) :
    checkFrame (withMgCmd x s) = withMgCmd x (checkFrame s) := by
  simp only [checkFrame, enqueue_withMgCmd, pop_withMgCmd, badChecksum_withMgCmd, apply_ite (withMgCmd x)]
  rfl

theorem accumulate_withMgCmd (b x : Byte) (s : State) :
    accumulate b (withMgCmd x s) = withMgCmd x (accumulate b s) := by
  have hstore : storeByte b (withMgCmd x s) = withMgCmd x (storeByte b s) := rfl
  simp only [accumulate, hstore, checkFrame_withMgCmd, apply_ite (withMgCmd x)]
  rfl

/-- R122: a magic lead clears the cursor and leaves the rest of the header. -/
theorem magicLead_withMgCmd (w : LinkState) (x : Byte) (s : State) :
    magicLead w (withMgCmd x s) = withMgCmd x (magicLead w s) :=
  congrArg Prod.snd (push_withMgCmd w x { s with magic := { s.magic with cursor := 0 } })

theorem magicDispatch_withMgCmd (x : Byte) (s : State) :
    magicDispatch (withMgCmd x s) = withMgCmd x (magicDispatch s) := by
  simp only [magicDispatch, apply_ite (withMgCmd x)]
  rfl

theorem pumpDone_withMgCmd (x : Byte) (s : State) : pumpDone (withMgCmd x s) = withMgCmd x (pumpDone s) := by
  simp only [pumpDone, apply_ite (withMgCmd x)]
  rfl

theorem finishWait_withMgCmd (x : Byte) (s : State) :
    finishWait (withMgCmd x s) = withMgCmd x (finishWait s) := by
  have hlatch : (withMgCmd x s).tx = s.tx := rfl
  have hsent : transmitFrame (withMgCmd x s) = withMgCmd x (transmitFrame s) := rfl
  simp only [finishWait, txFinish, hlatch, hsent, push_withMgCmd, Prod.map_snd, apply_ite (withMgCmd x)]
  rfl

/-- R130: the first header byte overwrites `MG_CMD`; the others leave it. -/
theorem magicHeaderByte_withMgCmd (b x : Byte) (s : State) :
    ∃ y, magicHeaderByte b (withMgCmd x s) = withMgCmd y (magicHeaderByte b s) := by
  have hcursor : (withMgCmd x s).magic.cursor = s.magic.cursor := rfl
  simp only [magicHeaderByte, hcursor]
  split
  · exact ⟨b, rfl⟩
  · exact ⟨x, rfl⟩
  · exact ⟨x, magicDispatch_withMgCmd x { s with magic := { s.magic with len := b, cursor := 3 } }⟩
  · exact ⟨x, rfl⟩

/-! ### The magic phases and the environment -/

theorem mgSinkStep_withMgCmd (x : Byte) (s : State) : mgSinkStep (withMgCmd x s) = withMgCmd x (mgSinkStep s) := by
  simp only [mgSinkStep, apply_ite (withMgCmd x)]
  rfl

theorem mgDiscardStep_withMgCmd (x : Byte) (s : State) :
    mgDiscardStep (withMgCmd x s) = withMgCmd x (mgDiscardStep s) := by
  cases hr : s.rxFifo with
  | nil => rw [mgDiscardStep_waits hr, mgDiscardStep_waits (by exact hr)]
  | cons b r =>
    rw [mgDiscardStep_drops hr, mgDiscardStep_drops (by exact hr)]
    rfl

theorem mgCsumStep_withMgCmd (x : Byte) (s : State) : mgCsumStep (withMgCmd x s) = withMgCmd x (mgCsumStep s) := by
  cases hr : s.rxFifo with
  | nil => rw [mgCsumStep_waits hr, mgCsumStep_waits (by exact hr)]
  | cons b r =>
    rw [mgCsumStep_drops hr, mgCsumStep_drops (by exact hr), ← pumpDone_withMgCmd, ← pop_withMgCmd]
    rfl

theorem peerStep_withMgCmd (x : Byte) (s : State) : peerStep (withMgCmd x s) = withMgCmd x (peerStep s) := by
  cases hp : s.script.peerIn with
  | nil => rw [peerStep_waits hp, peerStep_waits (by exact hp)]
  | cons b bs =>
    rw [peerStep_appends hp, peerStep_appends (by exact hp)]
    rfl

theorem sinkReadStep_withMgCmd (x : Byte) (s : State) :
    sinkReadStep (withMgCmd x s) = withMgCmd x (sinkReadStep s) := by
  have hrx : (withMgCmd x s).rxFifo = s.rxFifo := rfl
  simp only [sinkReadStep, hrx, apply_ite (withMgCmd x)]
  cases s.rxFifo <;> rfl

theorem sinkDoneStep_withMgCmd (x : Byte) (s : State) :
    sinkDoneStep (withMgCmd x s) = withMgCmd x (sinkDoneStep s) := by
  simp only [sinkDoneStep, apply_ite (withMgCmd x)]
  rfl

/-! ### Meanings and steps -/

/-- The outcome `o'` is `o` with `MG_CMD` overwritten, where `o` answers a next state. -/
def SameButMgCmd (o o' : Host.Outcome State Fault Refusal) : Prop :=
  ∀ t, o = .next t → ∃ y, o' = .next (withMgCmd y t)

/-- A next state and the same with `MG_CMD` overwritten. -/
theorem sameButMgCmd_next (x : Byte) (t : State) : SameButMgCmd (.next t) (.next (withMgCmd x t)) := by
  rintro _ ⟨⟩
  exact ⟨x, rfl⟩

theorem sameButMgCmd_of_eq {x : Byte} {t u : State} (h : u = withMgCmd x t) : SameButMgCmd (.next t) (.next u) :=
  h ▸ sameButMgCmd_next x t

/-- No meaning reads `MG_CMD`. -/
theorem exec_withMgCmd (i : Instr) (x : Byte) (s : State) : SameButMgCmd (exec i s) (exec i (withMgCmd x s)) := by
  cases i with
  | pump | waitIdle | resync | setHandler | setBytesSink | setDbytesSink | readObj | writeObj | writeContrast | writeStr
  | writeStrU | writeMagicBytes | writeMagicDbytes | readStatus | rxFramingError => exact sameButMgCmd_next x _
  | dequeue =>
    simp only [exec, execDequeue]
    by_cases hc : s.queue.count = 0
    · rw [if_pos hc, if_pos (by exact hc)]
      exact sameButMgCmd_next x _
    · rw [if_neg hc, if_neg (by exact hc)]
      exact sameButMgCmd_next x _
  | rxReportEventLead =>
    refine sameButMgCmd_of_eq (x := x) ?_
    simp only [push_withMgCmd, Prod.map_fst, Prod.map_snd, accumulate_withMgCmd, apply_ite (withMgCmd x)]
    rfl
  | rxMagicBytesLead | rxMagicDbytesLead => exact sameButMgCmd_of_eq (magicLead_withMgCmd _ x s)
  | rxAck => exact sameButMgCmd_of_eq (pop_withMgCmd x s)
  | rxNak => exact sameButMgCmd_of_eq (x := x) (congrArg (setError .nak) (pop_withMgCmd x s))
  | rxReportObjLead => exact sameButMgCmd_of_eq (accumulate_withMgCmd _ x (replaceTop .receivingReport s))
  | rxFrameByte b => exact sameButMgCmd_of_eq (accumulate_withMgCmd b x s)
  | rxMagicHeaderByte b =>
    obtain ⟨y, hy⟩ := magicHeaderByte_withMgCmd b x s
    exact sameButMgCmd_of_eq hy

/-- Nor does the classification of a byte. -/
theorem dispatchByte_withMgCmd (b x : Byte) (s : State) :
    SameButMgCmd (dispatchByte b s) (dispatchByte b (withMgCmd x s)) := by
  cases hd : decode s.cfg.val.codes (.receive (top s)) [b] with
  | ok i =>
    rw [dispatchByte_of_ok hd, dispatchByte_of_ok (by exact hd)]
    exact exec_withMgCmd i x s
  | error r =>
    rw [dispatchByte_of_error hd, dispatchByte_of_error (by exact hd)]
    exact sameButMgCmd_next x _

/-- Nor does the end of a pump. -/
theorem afterDispatch_sameButMgCmd {o o' : Host.Outcome State Fault Refusal} (h : SameButMgCmd o o') :
    SameButMgCmd (afterDispatch o) (afterDispatch o') := by
  cases o with
  | next u =>
    obtain ⟨y, rfl⟩ := h u rfl
    rw [afterDispatch_next, afterDispatch_next]
    refine sameButMgCmd_of_eq (x := y) ?_
    simp only [pumpDone_withMgCmd, apply_ite (withMgCmd y)]
    rfl
  | fault | refused =>
    rintro t ⟨⟩

/-- R136, R214: a pump is a dispatch and its end. -/
theorem consumeByte_withMgCmd (b x : Byte) (r : List Byte) (s : State) :
    SameButMgCmd (consumeByte b r s) (consumeByte b r (withMgCmd x s)) :=
  afterDispatch_sameButMgCmd (dispatchByte_withMgCmd b x { s with rxFifo := r })

/-- R136: the poll tests the input; its notification is the queue's and the registration's. -/
theorem pumpStart_withMgCmd (x : Byte) (s : State) : SameButMgCmd (pumpStart s) (pumpStart (withMgCmd x s)) := by
  cases hr : s.rxFifo with
  | nil =>
    rw [pumpStart_of_empty hr, pumpStart_of_empty (by exact hr)]
    exact sameButMgCmd_next x _
  | cons b r =>
    rw [pumpStart_of_byte hr, pumpStart_of_byte (by exact hr)]
    exact consumeByte_withMgCmd b x r s

/-- R214: the loop tests the stack, the input and the clock. -/
theorem loopStep_withMgCmd (x : Byte) (s : State) : SameButMgCmd (loopStep s) (loopStep (withMgCmd x s)) := by
  have htop : top (withMgCmd x s) = top s := rfl
  have hrx : (withMgCmd x s).rxFifo = s.rxFifo := rfl
  have helapsed : elapsed (withMgCmd x s) = elapsed s := rfl
  simp only [loopStep, htop, hrx, helapsed]
  split
  · exact sameButMgCmd_of_eq (finishWait_withMgCmd x s)
  cases s.rxFifo with
  | cons b r => exact consumeByte_withMgCmd b x r s
  | nil =>
    cases elapsed s with
    | true => exact sameButMgCmd_of_eq (finishWait_withMgCmd x (setError .timeout s))
    | false => exact sameButMgCmd_next x s

/-- R6: the block's step is chosen by `OP` and `PHASE`. -/
theorem blockStep_withMgCmd (x : Byte) (s : State) : SameButMgCmd (blockStep s) (blockStep (withMgCmd x s)) := by
  have hop : (withMgCmd x s).op = s.op := rfl
  have hphase : (withMgCmd x s).phase = s.phase := rfl
  cases ho : s.op <;> cases hp : s.phase <;> simp only [blockStep, hop, hphase, ho, hp]
  case pump.start => exact pumpStart_withMgCmd x s
  case wait.loop | tx.loop => exact loopStep_withMgCmd x s
  case pump.mgSink | wait.mgSink | tx.mgSink => exact sameButMgCmd_of_eq (mgSinkStep_withMgCmd x s)
  case pump.mgDiscard | wait.mgDiscard | tx.mgDiscard => exact sameButMgCmd_of_eq (mgDiscardStep_withMgCmd x s)
  case pump.mgCsum | wait.mgCsum | tx.mgCsum => exact sameButMgCmd_of_eq (mgCsumStep_withMgCmd x s)
  all_goals exact sameButMgCmd_next x s

/-- R73: a command is decoded by itself, with the configured codes. -/
theorem issueCommand_withMgCmd (c : List Byte) (x : Byte) (s : State) :
    SameButMgCmd (issueCommand c s) (issueCommand c (withMgCmd x s)) := by
  cases hd : decode s.cfg.val.codes (.host .command) c with
  | ok i =>
    rw [issueCommand_of_ok hd, issueCommand_of_ok (by exact hd)]
    exact exec_withMgCmd i x s
  | error r =>
    rw [issueCommand_of_error hd, issueCommand_of_error (by exact hd)]
    exact sameButMgCmd_next x _

/-- R73, R76: likewise at the drain port. -/
theorem issueDrain_withMgCmd (c : List Byte) (x : Byte) (s : State) :
    SameButMgCmd (issueDrain c s) (issueDrain c (withMgCmd x s)) := by
  cases hd : decode s.cfg.val.codes (.host .drain) c with
  | ok i =>
    rw [issueDrain_of_ok hd, issueDrain_of_ok (by exact hd)]
    exact exec_withMgCmd i x s
  | error r =>
    rw [issueDrain_of_error hd, issueDrain_of_error (by exact hd)]
    exact sameButMgCmd_next x _

/-- R74, R75: the command port tests `OP`. -/
theorem hostCmdStep_withMgCmd (x : Byte) (s : State) :
    SameButMgCmd (hostCmdStep s) (hostCmdStep (withMgCmd x s)) := by
  have hop : (withMgCmd x s).op = s.op := rfl
  have hscript : (withMgCmd x s).script = s.script := rfl
  simp only [hostCmdStep, hop, hscript]
  split
  · cases s.script.cmdIn with
    | nil => exact sameButMgCmd_next x s
    | cons c cs => exact issueCommand_withMgCmd c x { s with script := { s.script with cmdIn := cs } }
  · exact sameButMgCmd_next x s

/-- R76: the drain port tests nothing. -/
theorem hostDrainStep_withMgCmd (x : Byte) (s : State) :
    SameButMgCmd (hostDrainStep s) (hostDrainStep (withMgCmd x s)) := by
  have hscript : (withMgCmd x s).script = s.script := rfl
  simp only [hostDrainStep, hscript]
  cases s.script.drainIn with
  | nil => exact sameButMgCmd_next x s
  | cons c cs => exact issueDrain_withMgCmd c x { s with script := { s.script with drainIn := cs } }

/-- No agent's step reads `MG_CMD`. -/
theorem takeTurn_withMgCmd (a : Turn) (x : Byte) (s : State) :
    SameButMgCmd (takeTurn a s) (takeTurn a (withMgCmd x s)) := by
  cases a with
  | hostCmd => exact hostCmdStep_withMgCmd x s
  | hostDrain => exact hostDrainStep_withMgCmd x s
  | peer => exact sameButMgCmd_of_eq (peerStep_withMgCmd x s)
  | clock => exact sameButMgCmd_next x (clockStep s)
  | sinkRead => exact sameButMgCmd_of_eq (sinkReadStep_withMgCmd x s)
  | sinkDone => exact sameButMgCmd_of_eq (sinkDoneStep_withMgCmd x s)
  | block => exact blockStep_withMgCmd x s

/-- The turns are not in the header. -/
theorem nextTurn_withMgCmd (x : Byte) (s : State) :
    nextTurn (withMgCmd x s) = Prod.map id (withMgCmd x) (nextTurn s) := by
  have hscript : (withMgCmd x s).script = s.script := rfl
  simp only [nextTurn, hscript]
  cases s.script.turns <;> rfl

/-- Settles O58: the turn is taken alike in both states, and no agent's step reads `MG_CMD`. -/
theorem magicCommandByteIsNeverRead : Obligations.MagicCommandByteIsNeverRead := by
  intro s t x h
  have hf := (step_stepped s t h).1
  rw [step_of_not_fault hf] at h
  obtain ⟨y, hy⟩ := takeTurn_withMgCmd _ x _ t h
  refine ⟨y, Eq.trans ?_ hy⟩
  show step (withMgCmd x s) = _
  rw [step_of_not_fault (by exact hf), turned, nextTurn_withMgCmd]
  rfl

end Sys2Proof.Machine
end

section
/-! PROOF. `DEQUEUE` at the drain port and as a refinement (R164, R166): it answers with the head of the list of live
entries and leaves the tail. -/

namespace Sys2Proof.Machine

/-- R166: from an empty queue the answer is `[0x00]`. -/
theorem exec_dequeue_of_empty {s : State} (h : s.queue.count = 0) :
    exec .dequeue s = .next (respondDrain [0x00] s) := if_pos h

/-- R166: otherwise it is the oldest frame, whose slot is freed. -/
theorem exec_dequeue_of_live {s : State} (h : s.queue.count ≠ 0) :
    exec .dequeue s = .next (respondDrain (0x01 :: frameBytes (oldestFrame s)) (dropOldest s)) := if_neg h

/-- Settles O22: the two cases of R166. -/
theorem dequeueAnswersOldest : Obligations.DequeueAnswersOldest :=
  fun _ _ => ⟨exec_dequeue_of_empty, exec_dequeue_of_live⟩

/-- Settles O37: the oldest frame is the head of the live entries, and freeing its slot leaves the tail. -/
theorem dequeueRefinesList : Obligations.DequeueRefinesList := by
  intro s f fs hq hlive
  have hcount : s.queue.count ≠ 0 := fun h => by simp [liveEntries_eq_nil h] at hlive
  obtain ⟨n, hn⟩ : ∃ n, s.queue.count.toNat = n + 1 :=
    Nat.exists_eq_add_one_of_ne_zero fun h => hcount (BitVec.eq_of_toNat_eq h)
  obtain ⟨rfl, rfl⟩ := List.cons.inj ((liveEntries_cons hq hn).symm.trans hlive)
  exact ⟨_, exec_dequeue_of_live hcount, liveEntries_respondDrain _ _, rfl⟩

end Sys2Proof.Machine
end

section
/-! PROOF. `READ_STATUS` (R168): the fields of the bytes it composes, and its answer. -/

namespace Sys2Proof.Machine

/-! ### S0: the link state and the busy bit -/

theorem statusLink_code (s : State) : (statusLink s).extractLsb' 0 3 = linkCode (top s) :=
  (BitVec.extractLsb'_append_eq_of_add_le (by decide)).trans BitVec.extractLsb'_append_eq_right

theorem statusLink_busy (s : State) : (statusLink s).getLsbD 3 = decide (s.op ≠ .none) := by
  simp only [statusLink, BitVec.getLsbD_append]
  simp

theorem statusLink_high (s : State) : (statusLink s).extractLsb' 4 4 = 0 := BitVec.extractLsb'_append_eq_left

/-- R102: `TOP` is the last live entry of the stack, whatever a read outside it gives. -/
theorem top_eq_getD {s : State} (hl : LinkInv s) (d : LinkState) :
    top s = s.link.ls.getD (s.link.depth.toNat - 1) d := by
  refine getD_eq_getD _ _ ?_
  rw [hl.length]
  have := hl.depthLow
  have := hl.depthTop
  omega

/-! ### S3: the error code -/

theorem statusError_code (s : State) : (statusError s).extractLsb' 0 4 = errorCode s.lastError :=
  BitVec.extractLsb'_append_eq_right

theorem statusError_high (s : State) : (statusError s).extractLsb' 4 4 = 0 := BitVec.extractLsb'_append_eq_left

/-! ### S4: the registrations, `FATAL_FLAG` and `FAULT` -/

theorem statusFlags_bits (s : State) :
    (statusFlags s).getLsbD 0 = s.reg.handler ∧ (statusFlags s).getLsbD 1 = s.reg.bsink
    ∧ (statusFlags s).getLsbD 2 = s.reg.dsink ∧ (statusFlags s).getLsbD 3 = fatalFlag s
    ∧ (statusFlags s).getLsbD 4 = s.fault := by
  simp only [statusFlags, BitVec.getLsbD_append]
  simp

theorem statusFlags_high (s : State) : (statusFlags s).extractLsb' 5 3 = 0 := BitVec.extractLsb'_append_eq_left

/-- Settles O23: the six bytes are those of `statusBytes`; each field is at its bits. -/
theorem readStatusFields : Obligations.ReadStatusFields := by
  intro s hl
  obtain ⟨hhandler, hbsink, hdsink, hfatal, hfault⟩ := statusFlags_bits s
  refine ⟨statusLink s, s.link.depth, s.queue.count, statusError s, statusFlags s, s.fatalCount, rfl, ?_, ?_,
    statusLink_high s, rfl, rfl, ?_, statusError_high s, hhandler, hbsink, hdsink, ?_, hfault, statusFlags_high s, rfl⟩
  · rw [statusLink_code, ← top_eq_getD hl .shutdown]
    cases top s <;> rfl
  · rw [statusLink_busy, decide_eq_true_iff]
  · rw [statusError_code]
    cases s.lastError <;> rfl
  · rw [hfatal, fatalFlag, decide_eq_true_iff]

end Sys2Proof.Machine
end

section
/-! PROOF. `Enqueue` as a refinement (R160, R161, R163): on the list of live entries it updates the one entry of the
frame's identity in place, or appends the frame. -/

namespace Sys2Proof.Machine

/-- There are `Q_COUNT` live entries. -/
theorem liveEntries_length (s : State) : (liveEntries s).length = s.queue.count.toNat := by
  simp [liveEntries]

/-- The `k`-th of them is the `k`-th slot from `Q_RD`. -/
theorem liveEntries_getD (s : State) {k : Nat} (h : k < s.queue.count.toNat) :
    (liveEntries s).getD k Frame.zero = liveEntry s k := by
  simp [liveEntries, h]

/-- No two live entries have one identity (R28). -/
theorem liveEntry_unique {s : State} (hq : QueueInv s) {f : Frame} {i k : Nat} (hi : i < s.queue.count.toNat)
    (hk : k < s.queue.count.toNat) (hfi : sameIdentity (liveEntry s i) f = true)
    (hfk : sameIdentity (liveEntry s k) f = true) : i = k := by
  have hsame : sameIdentity (liveEntry s i) (liveEntry s k) = true := by
    simp only [sameId_eq] at hfi hfk ⊢
    simp [hfi, hfk]
  rcases Nat.lt_trichotomy i k with h | h | h
  · rw [hq.distinct i k h hk] at hsame
    cases hsame
  · exact h
  · rw [sameId_symm, hq.distinct k i h hi] at hsame
    cases hsame

/-- R160: the scan finds the slot of the live entry with the frame's identity. -/
theorem matchingSlot_of_live {s : State} (hq : QueueInv s) {f : Frame} {k : Nat} (hk : k < s.queue.count.toNat)
    (hf : sameIdentity (liveEntry s k) f = true) :
    matchingSlot f s = some ((s.queue.rd + k) % s.cfg.val.qCap) := by
  cases hm : matchingSlot f s with
  | none => rw [matching_none hq hm k hk] at hf; cases hf
  | some j =>
    obtain ⟨i, hi, rfl, hfi⟩ := matching_some hq hm
    rw [liveEntry_unique hq hi hk hfi hf]

/-- R160: it finds no slot when no live entry has that identity. -/
theorem matchingSlot_of_fresh {s : State} (hq : QueueInv s) {f : Frame}
    (hf : ∀ g ∈ liveEntries s, sameIdentity g f = false) : matchingSlot f s = none := by
  cases hm : matchingSlot f s with
  | none => rfl
  | some j =>
    obtain ⟨i, hi, -, hfi⟩ := matching_some hq hm
    have hmem : liveEntry s i ∈ liveEntries s := List.mem_map_of_mem (List.mem_range.mpr hi)
    rw [hf _ hmem] at hfi
    cases hfi

/-- R161: coalescing into the `k`-th live entry writes the data bytes of the list's `k`-th element. -/
theorem liveEntries_coalesceInto {s : State} (hq : QueueInv s) (f : Frame) {k : Nat} (hk : k < s.queue.count.toNat) :
    liveEntries (coalesceInto ((s.queue.rd + k) % s.cfg.val.qCap) f s) =
      (liveEntries s).set k { liveEntry s k with dataHi := f.dataHi, dataLo := f.dataLo } := by
  refine List.ext_getElem (by simp [liveEntries]) fun i hi _ => ?_
  have hi' : i < s.queue.count.toNat := by simpa [liveEntries] using hi
  simp [liveEntries, live_coalesce hq hk i hi', List.getElem_set, eq_comm]

/-- R160: an appended frame is the newest live entry. -/
theorem liveEntries_appendFrame {s : State} (hq : QueueInv s) (f : Frame)
    (hroom : s.queue.count.toNat < s.cfg.val.qCap - 2) :
    liveEntries (appendFrame f s) = liveEntries s ++ [f] := by
  have hold : ∀ i ∈ List.range s.queue.count.toNat, liveEntry (appendFrame f s) i = liveEntry s i := by
    intro i hi
    have hlt := List.mem_range.mp hi
    rw [live_append hq hroom i (by omega), if_neg (by omega)]
  have hnew : liveEntry (appendFrame f s) s.queue.count.toNat = f := by
    rw [live_append hq hroom _ (by omega), if_pos rfl]
  simp only [liveEntries, appendFrame_fields, count_inc hq hroom, List.range_succ, List.map_append, List.map_cons,
    List.map_nil, hnew, List.map_congr_left hold]

/-- R160: at the margin a frame is rejected before any scan. -/
theorem enqueue_of_full {s : State} (f : Frame) (h : queueFull s = true) :
    enqueue f s = setError .queueOverflow s := if_pos h

/-- R160, R161: below it a match is coalesced into. -/
theorem enqueue_of_match {s : State} {f : Frame} {j : Nat} (h : queueFull s = false) (hm : matchingSlot f s = some j) :
    enqueue f s = coalesceInto j f s := by
  simp [enqueue, h, hm]

/-- R160: without a match the frame is appended. -/
theorem enqueue_of_noMatch {s : State} {f : Frame} (h : queueFull s = false) (hm : matchingSlot f s = none) :
    enqueue f s = appendFrame f s := by
  simp [enqueue, h, hm]

/-- R160: below the margin only the queue is written. -/
theorem enqueue_of_room {s : State} (f : Frame) (h : queueFull s = false) :
    enqueue f s = { s with queue := (enqueue f s).queue } := by
  cases hm : matchingSlot f s with
  | some j => rw [enqueue_of_match h hm]; rfl
  | none => rw [enqueue_of_noMatch h hm]; rfl

/-- Settles O36: rejection at the margin; below it the scan finds the one live entry of the frame's identity, or none. -/
theorem enqueueRefinesList : Obligations.EnqueueRefinesList := by
  intro s f hq
  refine ⟨fun hfull => enqueue_of_full f (decide_eq_true hfull), fun hroom => ?_⟩
  have hnot : queueFull s = false := decide_eq_false hroom.ne
  refine ⟨enqueue_of_room f hnot, fun k hk hsame => ?_, fun hfresh => ?_⟩
  · rw [liveEntries_length] at hk
    rw [liveEntries_getD s hk] at hsame ⊢
    rw [enqueue_of_match hnot (matchingSlot_of_live hq hk hsame), liveEntries_coalesceInto hq f hk]
  · rw [enqueue_of_noMatch hnot (matchingSlot_of_fresh hq hfresh), liveEntries_appendFrame hq f hroom]

end Sys2Proof.Machine
end

section
/-! PROOF. The command writer (R181 to R192): the checksum of a transmitted frame, the registrations, and the end of a
transmit operation with the `BLOCK` step that reaches it from `Idle`. -/

namespace Sys2Proof.Machine

/-! ### The checksum generator (R181) -/

/-- R10: the XOR folded from the left, from 0x00. -/
theorem foldl_xor_zero (bs : List Byte) : bs.foldl (· ^^^ ·) 0 = xorBytes bs := by
  simp [foldl_xor_eq_xorBytes]

/-- Settles O19: the appended byte is the XOR of the body, so it cancels it. -/
theorem transmittedFramesXorToZero : Obligations.TransmittedFramesXorToZero := by
  intro body
  rw [foldl_xor_zero body, foldl_xor_zero (txFrame body)]
  exact ⟨rfl, xorBytes_txFrame body⟩

/-! ### The registrations (R190 to R192) -/

/-- Settles O17: each meaning records no error, writes its registration bit and answers the code of `NONE`. -/
theorem setOperationsRegister : Obligations.SetOperationsRegister := by
  intro s en
  rw [← errorByte_none]
  exact ⟨rfl, rfl, rfl⟩

/-! ### The end of a transmit operation (R186) -/

/-- R215: the wait of a transmit operation ends in `TxFinish`. -/
theorem finishWait_of_tx {s : State} (ho : s.op = .tx) : finishWait s = txFinish s :=
  if_neg (by simp [ho])

/-- R186, R100: with room, the frame is sent and the wait state is pushed. -/
theorem txFinish_of_room {s : State} (h : s.link.depth.toNat < s.cfg.val.stackDepth)
    (hw : s.tx.push ≠ .receivingEvent) :
    txFinish s = completeWithError (pushEntry s.tx.push (transmitFrame s)) := by
  rw [txFinish, push_of_room _ (by exact h)]
  simp only [if_neg hw]
  rfl

/-- R186, R100: at a full stack, the frame is sent and the link resyncs. -/
theorem txFinish_of_full {s : State} (h : s.link.depth.toNat = s.cfg.val.stackDepth) :
    txFinish s = completeWithError (overflowResync (transmitFrame s)) := by
  rw [txFinish, push_of_full _ (by exact h)]

/-- Settles O20: with room by what `pushEntry` writes, at the bound by what `overflowResync` writes. -/
theorem transmitFinish : Obligations.TransmitFinish := by
  intro s hl ho hpush
  have hwait : s.tx.push ≠ .receivingEvent := by
    obtain h | h := hpush <;> simp [h]
  rw [finishWait_of_tx ho]
  exact ⟨fun hne => txFinish_of_room (hl.room hne) hwait, fun hfull => txFinish_of_full hfull⟩

/-! ### A transmit operation at `Idle` (R219) -/

/-- R22: `Idle` is active only at the baseline. -/
theorem LinkInv.baseline_of_idle {s : State} (hl : LinkInv s) (h : top s = .idle) : s.link.depth.toNat = 1 := by
  by_contra hne
  have hdepth : 1 < s.link.depth.toNat := Nat.lt_of_le_of_ne hl.depthLow (Ne.symm hne)
  have hpushable := hl.entries (s.link.depth.toNat - 1) (Nat.le_sub_one_of_lt hdepth) (by omega)
  rw [← top_eq_getD hl, h] at hpushable
  cases hpushable

/-- R214: the wait loop of a transmit operation ends at once when the link is `Idle`. -/
theorem blockStep_tx_of_idle {s : State} (ho : s.op = .tx) (hp : s.phase = .loop) (h : top s = .idle) :
    blockStep s = .next (finishWait s) := by
  simp only [blockStep, ho, hp, loopStep, if_pos h]

/-- R219 (c): at `Idle` the stack holds the baseline alone, so the wait ends with room for the wait state. -/
theorem blockStep_tx_transmits {s : State} (hl : LinkInv s) (ho : s.op = .tx) (hp : s.phase = .loop)
    (hpush : s.tx.push = .waitAckOrNak ∨ s.tx.push = .waitReportHeader) (hidle : top s = .idle)
    (hstack : 2 ≤ s.cfg.val.stackDepth) :
    ∃ t, blockStep s = .next t ∧ t.txLog = s.txLog ++ s.tx.frame ∧ top t = s.tx.push
      ∧ t.link.depth = s.link.depth + 1 ∧ t.rxFifo = s.rxFifo ∧ t.queue = s.queue ∧ t.lastError = s.lastError
      ∧ t.op = .none ∧ t.respCmd = s.respCmd ++ [[0#4 ++ errorCode s.lastError]] := by
  have hroom : s.link.depth.toNat < s.cfg.val.stackDepth := by
    rw [hl.baseline_of_idle hidle]
    exact hstack
  rw [blockStep_tx_of_idle ho hp hidle, (transmitFinish s hl ho hpush).1 hroom.ne]
  exact ⟨_, rfl, rfl, top_pushEntry s.tx.push hl hroom, rfl, rfl, rfl, rfl, rfl, rfl⟩

/-- Settles O21: the step is `BLOCK`'s, and taking the turn writes only the script. -/
theorem transmitFromIdleLeavesWaitState : Obligations.TransmitFromIdleLeavesWaitState := by
  intro s ts hi hf hturn ho hp hidle hstack
  rw [step_of_turn hf hturn]
  exact blockStep_tx_transmits (hi.link.congr rfl rfl) ho hp (hi.op.txPush ho) hidle hstack

end Sys2Proof.Machine
end

section
/-! PROOF. The supervisor (R210 to R219): the deadline set at issue and the wrap-around test of it, the cases of a loop
step, and the two ends of a `WAIT_IDLE`: at once at `Idle`, and after `TIMEOUT_MS` clock steps without a byte. -/

namespace Sys2Proof.Machine

/-! ### The deadline (R211, R213) -/

/-- R211, R183: whatever frame it latches, a transmit operation sets the deadline at issue. -/
theorem deadline_of_issueTransmit {body : List Byte} {w : LinkState} {s t : State}
    (h : .next (issueTransmit body w s) = (.next t : Host.Outcome State Fault Refusal)) :
    t.deadline = deadlineFrom s := by
  cases h
  rfl

/-- Settles O15: `WAIT_IDLE` is its four writes, and every transmit form is `issueTransmit` of its body. -/
theorem waitIssueSetsDeadline : Obligations.WaitIssueSetsDeadline := by
  refine fun s => ⟨rfl, fun i t hform hexec => ?_⟩
  obtain ⟨_, _, rfl⟩ | ⟨_, _, _, _, rfl⟩ | ⟨_, rfl⟩ | ⟨_, _, rfl⟩ | ⟨_, _, rfl⟩ | ⟨_, _, rfl⟩ | ⟨_, _, rfl⟩ := hform
  all_goals exact deadline_of_issueTransmit hexec

/-- R213: with the deadline `m` after a time `x`, the test at `x + k` is true in the 2^31 values from the deadline on. -/
theorem elapsed_eq_decide {s : State} {x : Millis} {m k : Nat} (hnow : s.now = x + BitVec.ofNat 32 k)
    (hdeadline : s.deadline = x + BitVec.ofNat 32 m) (hm : m < 2 ^ 31) (hk : k ≤ m + 2 ^ 31) :
    elapsed s = decide (m ≤ k ∧ k < m + 2 ^ 31) := by
  have hdiff : (s.now - s.deadline).toNat = (2 ^ 32 - m + k) % 2 ^ 32 := by
    rw [hnow, hdeadline, add_sub_add_left_eq_sub]
    bv_omega
  rw [elapsed, hdiff, decide_eq_decide]
  omega

/-- Settles O42: the three ranges of `elapsed_eq_decide`, with `TIMEOUT_MS` below 2^31 (R8). -/
theorem elapsedAfterTimeout : Obligations.ElapsedAfterTimeout := by
  intro s hdeadline
  have hm := timeoutMs_lt s
  have htest : ∀ k, k ≤ s.cfg.val.timeoutMs + 2 ^ 31 → elapsed { s with now := s.now + BitVec.ofNat 32 k }
      = decide (s.cfg.val.timeoutMs ≤ k ∧ k < s.cfg.val.timeoutMs + 2 ^ 31) :=
    fun k hk => elapsed_eq_decide rfl hdeadline hm hk
  refine ⟨fun k hk => ?_, fun k hk => ?_, ?_⟩
  · rw [htest k (by omega), decide_eq_false_iff_not]
    omega
  · rw [htest _ (by omega), decide_eq_true_eq]
    omega
  · rw [htest _ le_rfl, decide_eq_false_iff_not]
    omega

/-! ### The loop step (R214, R215) -/

/-- R214: at `LOOP`, the block's step of a wait is the loop step. -/
theorem blockStep_loop {s : State} (ho : s.op = .wait ∨ s.op = .tx) (hp : s.phase = .loop) :
    blockStep s = loopStep s := by
  obtain ho | ho := ho <;> simp only [blockStep, ho, hp]

/-- R214: at `LOOP`, the block's turn is the loop step. -/
theorem step_of_loop {s : State} {ts : List Turn} (hf : s.fault = false) (hturns : s.script.turns = .block :: ts)
    (ho : s.op = .wait ∨ s.op = .tx) (hp : s.phase = .loop) :
    step s = loopStep { s with script := { s.script with turns := ts } } :=
  (step_of_turn hf hturns).trans (blockStep_loop ho hp)

/-- R214: at `Idle` the wait ends, whatever bytes wait. -/
theorem loopStep_of_idle {s : State} (ht : top s = .idle) : loopStep s = .next (finishWait s) :=
  if_pos ht

/-- R214: without a byte, an elapsed deadline ends the wait with `TIMEOUT`. -/
theorem loopStep_of_elapsed {s : State} (ht : top s ≠ .idle) (hr : s.rxFifo = []) (he : elapsed s = true) :
    loopStep s = .next (finishWait (setError .timeout s)) := by
  simp [loopStep, ht, hr, he]

/-- R215: the wait of `WAIT_IDLE` ends with its error as the response. -/
theorem finishWait_of_wait {s : State} (ho : s.op = .wait) : finishWait s = completeWithError s :=
  if_pos ho

/-- Settles O43: the cases of the loop step, and the end of a `WAIT`. -/
theorem loopStepPriority : Obligations.LoopStepPriority := by
  intro s ho hp
  refine ⟨fun ht => ?_, fun ht b r hr => blockStep_consumes hr (.inr ⟨ho, hp, ht⟩), fun ht hr he => ?_,
    fun ht hr he => ?_, finishWait_of_wait⟩
  · rw [blockStep_loop ho hp, loopStep_of_idle ht]
  · rw [blockStep_loop ho hp, loopStep_of_elapsed ht hr he]
    rfl
  · rw [blockStep_loop ho hp, loopStep_waits ht hr he]

/-! ### A `WAIT_IDLE` at `Idle` (R219) -/

/-- R72: the command of `WAIT_IDLE` is the byte 0x02. -/
theorem decode_waitIdle (c : Codes) : decode c (.host .command) [0x02] = .ok .waitIdle := rfl

/-- R214, R215: the block's turn in a `WAIT` at `Idle` answers with the wait's error. -/
theorem step_wait_of_idle {s : State} {ts : List Turn} (hf : s.fault = false) (hturns : s.script.turns = .block :: ts)
    (ho : s.op = .wait) (hp : s.phase = .loop) (ht : top s = .idle) :
    step s = .next (completeWithError { s with script := { s.script with turns := ts } }) := by
  rw [step_of_loop hf hturns (.inl ho) hp, loopStep_of_idle (by exact ht), finishWait_of_wait (by exact ho)]

/-- Settles O44: the first step issues the operation, which leaves the link at `Idle`, so the second ends it. -/
theorem waitAtIdleReturnsAtOnce : Obligations.WaitAtIdleReturnsAtOnce := by
  intro s ts cs hf ho ht hturns hcmd
  have hissue := (stepRunsIssuedCommand s _ _ _ hf hturns ho hcmd).1 _ (decode_waitIdle _)
  rw [(waitIssueSetsDeadline _).1] at hissue
  rw [run_succ_of_step 1 hissue]
  refine (run_succ_of_step 0 (step_wait_of_idle (by exact hf) rfl rfl rfl (by exact ht))).trans ?_
  rw [← errorByte_none, ho]
  rfl

/-! ### A wait that times out (R213, R216, R219) -/

/-- R77: the code of `TIMEOUT` as a response byte. -/
theorem errorByte_timeout : errorByte .timeout = 0x04 := by decide

/-- A `WAIT` in its loop, not at `Idle`, with no byte to take: what `CLOCK` and the block's holds keep. -/
structure WaitsForByte (s : State) : Prop where
  unfaulted : s.fault = false
  op : s.op = .wait
  phase : s.phase = .loop
  notIdle : top s ≠ .idle
  noByte : s.rxFifo = []

/-- Neither the clock nor the script bears on a wait for a byte. -/
theorem WaitsForByte.congr {s : State} (h : WaitsForByte s) (x : Millis) (c : Script) :
    WaitsForByte { s with now := x, script := c } :=
  ⟨h.unfaulted, h.op, h.phase, h.notIdle, h.noByte⟩

/-- R213: the test before the deadline and at it. -/
theorem elapsed_of_remaining {s : State} {n : Nat} (hdeadline : s.deadline = s.now + BitVec.ofNat 32 n)
    (hn : n < 2 ^ 31) : elapsed s = decide (n = 0) := by
  rw [elapsed_eq_decide (k := 0) (by simp) hdeadline hn (by omega), decide_eq_decide]
  omega

/-- R42: a clock turn advances `NOW` and nothing else. -/
theorem step_clock {s : State} {ts : List Turn} (hf : s.fault = false) (hturns : s.script.turns = .clock :: ts) :
    step s = .next { s with now := s.now + 1, script := { s.script with turns := ts } } :=
  step_of_turn hf hturns

/-- R214: before the deadline the block's turn holds. -/
theorem WaitsForByte.step_holds {s : State} {ts : List Turn} (h : WaitsForByte s)
    (hturns : s.script.turns = .block :: ts) (he : elapsed s = false) :
    step s = .next { s with script := { s.script with turns := ts } } := by
  rw [step_of_loop h.unfaulted hturns (.inl h.op) h.phase,
    loopStep_waits (by exact h.notIdle) (by exact h.noByte) (by exact he)]

/-- R214 to R216: from the deadline on the block's turn answers `TIMEOUT`. -/
theorem WaitsForByte.step_timesOut {s : State} {ts : List Turn} (h : WaitsForByte s)
    (hturns : s.script.turns = .block :: ts) (he : elapsed s = true) :
    step s = .next (completeWithError (setError .timeout { s with script := { s.script with turns := ts } })) := by
  rw [step_of_loop h.unfaulted hturns (.inl h.op) h.phase,
    loopStep_of_elapsed (by exact h.notIdle) (by exact h.noByte) (by exact he), finishWait_of_wait (by exact h.op)]

/-- R219 (b): with `n` milliseconds left, by induction on `n`: at 0 the block's turn times out, and before that it holds and
the clock's turn leaves one millisecond less. -/
theorem WaitsForByte.run_timesOut (ts : List Turn) (n : Nat) : ∀ {s : State}, WaitsForByte s → n < 2 ^ 31 →
    s.deadline = s.now + BitVec.ofNat 32 n →
    s.script.turns = .block :: (List.replicate n [Turn.clock, .block]).flatten ++ ts →
    Host.Core.run core (2 * n + 1) s = .next (completeWithError (setError .timeout
      { s with now := s.deadline, script := { s.script with turns := ts } })) := by
  induction n with
  | zero =>
    intro s h hn hdeadline hturns
    have hnow : s.deadline = s.now := by simpa using hdeadline
    rw [run_succ_of_step 0 (h.step_timesOut hturns (elapsed_of_remaining hdeadline hn)), hnow]
    rfl
  | succ n ih =>
    intro s h hn hdeadline hturns
    have hleft : s.deadline = s.now + 1 + BitVec.ofNat 32 n := by
      rw [hdeadline]
      bv_omega
    refine (run_succ_of_step _ (h.step_holds hturns (elapsed_of_remaining hdeadline hn))).trans ?_
    refine (run_succ_of_step _ (step_clock (by exact h.unfaulted) rfl)).trans ?_
    exact ih (h.congr _ _) (by omega) hleft rfl

/-- Settles O45: the run of `run_timesOut` from `TIMEOUT_MS`, whose end state is written out. -/
theorem waitTimesOut : Obligations.WaitTimesOut := by
  intro s ts hf ho hp ht hr hdeadline hturns
  have hwait : WaitsForByte s := ⟨hf, ho, hp, ht, hr⟩
  rw [hwait.run_timesOut ts _ (timeoutMs_lt s) hdeadline hturns, ← errorByte_timeout]
  rfl

end Sys2Proof.Machine
end

section
/-! PROOF. The causes of errors (R31, R231, R236): what each kind that a dispatch or a step records was caused by. -/

namespace Sys2Proof.Machine

/-! ### A dispatch (R123, R125, R127, R160) -/

/-- The link states whose bytes R84 classifies. -/
theorem classifies_iff (l : LinkState) :
    l.classifies = true ↔ l = .idle ∨ l = .waitAckOrNak ∨ l = .waitReportHeader := by
  cases l <;> simp [LinkState.classifies]

/-- What makes the dispatch of the byte `b` record an error, by the kind it records. -/
inductive DispatchError (b : Byte) (s : State) : ErrorKind → Prop where
  | badChecksum : receivingFrame (top s) = true → s.acc.count.val = 5 → s.acc.cs ^^^ b ≠ 0 →
      DispatchError b s .badChecksum
  | nak : top s = .waitAckOrNak → b = s.cfg.val.codes.nak → DispatchError b s .nak
  | queueOverflow : receivingFrame (top s) = true → s.acc.count.val = 5 → queueFull s = true →
      DispatchError b s .queueOverflow
  | framing : (top s).classifies = true → b ∉ s.cfg.val.codes.acceptedIn (top s) → DispatchError b s .framing

/-- The cause is read from the stack, the accumulator, the queue and the parameters alone. -/
theorem DispatchError.congr {b : Byte} {s s' : State} {k : ErrorKind} (h : DispatchError b s k)
    (elink : s'.link = s.link := by simp) (eacc : s'.acc = s.acc := by simp) (equeue : s'.queue = s.queue := by simp)
    (ecfg : s'.cfg = s.cfg := by simp) : DispatchError b s' k := by
  have etop : top s' = top s := top_congr elink
  have efull : queueFull s' = queueFull s := by simp [queueFull, equeue, ecfg]
  cases h with
  | badChecksum hf hc hx => exact .badChecksum (etop ▸ hf) (eacc ▸ hc) (eacc ▸ hx)
  | nak ht hb => exact .nak (etop.trans ht) (ecfg ▸ hb)
  | queueOverflow hf hc hq => exact .queueOverflow (etop ▸ hf) (eacc ▸ hc) (efull.trans hq)
  | framing hc hb => exact .framing (etop ▸ hc) (by rwa [etop, ecfg])

/-- `Enqueue` records an error at capacity minus the margin alone (R160). -/
theorem enqueue_lastError (f : Frame) (s : State) :
    (enqueue f s).lastError = s.lastError ∨ (queueFull s = true ∧ (enqueue f s).lastError = .queueOverflow) := by
  obtain ⟨hq, e⟩ | ⟨-, j, -, e⟩ | ⟨-, -, e⟩ := enqueue_cases f s <;> rw [e]
  · exact .inr ⟨hq, by simp⟩
  · exact .inl (by simp)
  · exact .inl (by simp)

/-- `Pop` records no error (R101). -/
theorem pop_lastError (s : State) : (pop s).lastError = s.lastError := by simp

/-- A dispatch leaves `LAST_ERROR`, or records a kind by its cause. -/
theorem Dispatched.lastError {b : Byte} {s u : State} (h : Dispatched b s u) :
    u.lastError = s.lastError ∨ DispatchError b s u.lastError := by
  cases h with
  | nak ht hb => exact .inr (.nak ht hb)
  | framing hc hb => exact .inr (.framing hc hb)
  | frameGood hf hc =>
    obtain e | ⟨hq, e⟩ := enqueue_lastError (storeByte b s).acc.buf (storeByte b s)
    · exact .inl (by simpa using e)
    · have he : (pop (enqueue (storeByte b s).acc.buf (storeByte b s))).lastError = .queueOverflow :=
        (pop_lastError _).trans e
      exact .inr (he ▸ .queueOverflow hf hc hq)
  | frameBad hf hc hx =>
    rw [(badChecksum_records _).2]
    exact .inr (.badChecksum hf hc hx)
  | eventLead | magicLead | overflow | ack | reportLead | frameStale | frameByte | headerCmd | headerIdx | headerSink
  | headerDiscard | headerStale | shutdown => exact .inl (by simp [overflowResync, replaceTop])

/-- A pump that takes a byte records what its dispatch does: `PumpDone` records nothing (R135). -/
theorem consumeByte_lastError {b : Byte} {r : List Byte} {s t : State} (h : consumeByte b r s = .next t) :
    t.lastError = s.lastError ∨ DispatchError b s t.lastError := by
  obtain ⟨u, hu, ht⟩ := consumeByte_cases b r s t h
  have he : t.lastError = u.lastError := by
    obtain ⟨-, rfl⟩ | ⟨-, rfl⟩ := ht
    · rfl
    · simp
  rw [he]
  exact hu.lastError.imp_right fun hd => hd.congr

/-! ### A step (R31, R74, R136, R214) -/

/-- The issue of a command leaves `LAST_ERROR` or clears it (R31, R73). -/
theorem Issued.lastError {s t : State} (h : Issued s t) : t.lastError = s.lastError ∨ t.lastError = .none := by
  cases h with
  | illegal => exact .inl (by simp)
  | pump | waitIdle | resync | register | transmit => exact .inr (by simp)

/-- What makes a step change `LAST_ERROR`, by the kind it leaves there. -/
inductive ErrorCause (s : State) : ErrorKind → Prop where
  | cleared : (nextTurn s).1 = .hostCmd → ErrorCause s .none
  | noChar : (nextTurn s).1 = .block → s.op = .pump → s.phase = .start → s.rxFifo = [] → ErrorCause s .noChar
  | timeout : (nextTurn s).1 = .block → (s.op = .wait ∨ s.op = .tx) → s.phase = .loop → top s ≠ .idle →
      s.rxFifo = [] → elapsed s = true → ErrorCause s .timeout
  | dispatched (b : Byte) (r : List Byte) (k : ErrorKind) : (nextTurn s).1 = .block → s.rxFifo = b :: r →
      DispatchError b s k → ErrorCause s k

/-- A step leaves `LAST_ERROR`, or its change has a cause. -/
theorem Stepped.lastError {s t : State} (h : Stepped s t) : t.lastError = s.lastError ∨ ErrorCause s t.lastError := by
  cases h with
  | hostCmd c cs t hx _ _ hi =>
    obtain e | e := (issueCommand_issued _ _ _ hi).lastError
    · exact .inl (by simpa using e)
    · exact .inr (e ▸ .cleared hx)
  | hostDrain c cs t _ hi =>
    obtain ⟨r, rfl | ⟨-, rfl⟩⟩ := issueDrain_cases _ _ _ hi <;> exact .inl (by simp)
  | pumpEmpty p hx ho hp hr => exact .inr (.noChar hx ho hp hr)
  | waitTimeout hx ho hp ht hr he =>
    exact .inr (by simpa [finishWait_fields] using ErrorCause.timeout hx ho hp ht hr he)
  | consume b r t hx hr _ hc =>
    exact (consumeByte_lastError hc).imp (fun e => by simpa using e) fun hd => .dispatched b r _ hx hr hd.congr
  | waitDone => exact .inl (by simp [finishWait_fields])
  | idle | clock | peer | sinkRead | sinkDone | mgSink | mgDiscard | mgCsum => exact .inl (by simp)

/-- Settles O55: the cause of the change, read in each clause. -/
theorem errorKindCauses : Obligations.ErrorKindCauses := by
  intro s t h hne
  have hcause : ErrorCause s t.lastError := (step_stepped s t h).2.lastError.resolve_left hne
  generalize t.lastError = k at hcause
  cases hcause with
  | cleared hx => simp [hx]
  | noChar hx ho hp hr => simp [hx, ho, hp, hr]
  | timeout hx ho hp ht hr he => simp [hx, ho, hp, ht, hr, he]
  | dispatched b r k hx hr hd =>
    cases hd with
    | badChecksum hf hc hb =>
      have hcount : s.acc.count = 5 := Fin.ext hc
      simpa [hx, hr, hcount] using And.intro ((receivingFrame_iff _).1 hf) hb
    | nak ht hb => simp [hx, ht, hr, hb]
    | queueOverflow hf hc hq =>
      have hcount : s.acc.count = 5 := Fin.ext hc
      have hfull : s.queue.count.toNat = s.cfg.val.qCap - 2 := of_decide_eq_true hq
      simpa [hx, hcount, hfull] using (receivingFrame_iff _).1 hf
    | framing hc hb => simpa [hx, hr, hb] using (classifies_iff _).1 hc

end Sys2Proof.Machine
end
